-- ==== Sys2Proof/Word.lean ====
section
/-! DEFINITION. The three widths of the block's values: a FIFO byte, a 16-bit setup field or operand, and the
32-bit command and result word (10_state.md R31, 30_encoding.md R86, R92, R97). Every value is unsigned
(00_scope.md R12). -/

namespace Sys2Proof

/-- A byte of FIFO storage, of a packet or of a payload. -/
abbrev Byte := BitVec 8

/-- A 16-bit field: IMM16 of a command word, and wValue, wIndex and wLength of a setup packet. -/
abbrev Half := BitVec 16

/-- A 32-bit command word or result word. -/
abbrev Word := BitVec 32

end Sys2Proof
end

