-- ==== Sys2Proof/Config.lean ====
section
/-! DEFINITION. What an implementation fixes (00_scope.md R8: the OPEN parameters are fields of `Config`, the fixed
ones are constants), the line-coding constant, the spec's test configurations (R11), the agents the environment
schedules (10_state.md R54), and the free values: constants without a body, for what the environment chooses
and for a result the spec does not state. -/

namespace Sys2Proof

/-- The two clock domains, each with one port bound to it for good (00_scope.md R18, 60_exceptions.md R233). -/
inductive Domain where
  | app
  | usb
  deriving DecidableEq, Repr, Inhabited

/-- The six synchroniser copies (10_state.md R38), named as their SYNC steps (40_ring_buffer.md R123 to R128). -/
inductive Copy where
  | rxPut
  | rxGet
  | txPut
  | txGet
  | conn
  | rxcb
  deriving DecidableEq, Repr, Inhabited

/-- The agents that step the block (10_state.md R54). ENV is not among them: its choices are data of State. -/
inductive Agent where
  | app
  | usb
  | sync (c : Copy)
  deriving DecidableEq, Repr, Inhabited

/-- `DELIVERY_MODE` (00_scope.md R8): USB events arrive at any time, or only inside `POLL`. -/
inductive DeliveryMode where
  | irq
  | polled
  deriving DecidableEq, Repr

/-- The `SS_LEN` = 8 bytes of one serial-state notification (41_control_requests.md R144). -/
structure Notification where
  b0 : Byte
  b1 : Byte
  b2 : Byte
  b3 : Byte
  b4 : Byte
  b5 : Byte
  b6 : Byte
  b7 : Byte
  deriving DecidableEq, Repr

/-- The parameter `SERIAL_STATE_BYTES`, a function of the request value (R144), as plain data: the rows give the
values at which it differs from `dflt`. Every function of a 16-bit value has such a table (log 20). -/
structure SerialTable where
  dflt : Notification
  rows : List (Half × Notification)
  deriving DecidableEq, Repr

/-- The OPEN parameters of 00_scope.md R8. No command writes them (10_state.md R51). -/
structure Config where
  /-- `N_RX`. -/
  nRx : Nat
  /-- `N_TX`. -/
  nTx : Nat
  /-- `CTR_W`, the width of every counter and counter copy. -/
  ctrW : Nat
  /-- `SERIAL_STATE_NOTIFY`. -/
  serialStateNotify : Bool
  /-- `SERIAL_STATE_BYTES`. -/
  serialState : SerialTable
  /-- `DELIVERY_MODE`. -/
  deliveryMode : DeliveryMode
  /-- `RX_CB_BYPASS`. -/
  rxCbBypass : Bool
  /-- `USB_IRQ_PRIORITY`; no rule reads it (60_exceptions.md R226). -/
  usbIrqPriority : Nat
  /-- `SOF_PERIOD` in microseconds; no rule reads it (70_reset_and_hazards.md R269). -/
  sofPeriod : Nat
  deriving DecidableEq, Repr

/-- `MPS_BULK` (R8): the largest bulk packet, and the size of the packet buffer (10_state.md R50). -/
abbrev mpsBulk : Nat := 64

/-- `MPS_INT` (R8). -/
abbrev mpsInt : Nat := 16

/-- `SS_LEN` (R8). -/
abbrev ssLen : Nat := 8

/-- `LC_SIZE` (R8). -/
abbrev lcSize : Nat := 7

/-- The endpoint addresses of R3 and R8. -/
abbrev epBulkOut : Byte := 0x01#8
abbrev epBulkIn : Byte := 0x82#8
abbrev epIntIn : Byte := 0x83#8

/-- The line-coding register file `LC` (10_state.md R46). -/
structure LineCoding where
  dwDTERate : BitVec 32
  bCharFormat : Byte
  bParityType : Byte
  bDataBits : Byte
  deriving DecidableEq, Repr

/-- The hardwired value of `LC`: 115200 baud, 1 stop bit, no parity, 8 data bits (R46, R47). -/
def LineCoding.fixed : LineCoding :=
  { dwDTERate := 115200#32, bCharFormat := 0#8, bParityType := 0#8, bDataBits := 8#8 }

/-- The suggested notification of 92_eei_decisions.md D15, used by TC-C. -/
def suggestedNotification : Notification :=
  { b0 := 0xA1#8, b1 := 0x20#8, b2 := 0x00#8, b3 := 0x00#8, b4 := 0x00#8, b5 := 0x00#8, b6 := 0x02#8, b7 := 0x00#8 }

/-- Test configuration TC-A (R11). -/
def tcA : Config :=
  { nRx := 256, nTx := 256, ctrW := 16, serialStateNotify := false,
    serialState := { dflt := suggestedNotification, rows := [] },
    deliveryMode := .irq, rxCbBypass := false, usbIrqPriority := 0, sofPeriod := 1000 }

/-- Test configuration TC-B (R11): the smallest legal counter width for capacity 4. -/
def tcB : Config := { tcA with nRx := 4, nTx := 4, ctrW := 3 }

/-- Test configuration TC-C (R11). -/
def tcC : Config := { tcA with serialStateNotify := true }

/-- FREE VALUE: the environment's answer to the `n`-th draw it has not fixed beforehand (00_scope.md R16, log 3). -/
opaque Config.freeDraw : Nat → Bool

/-- FREE VALUE: the agent that makes the `n`-th step the environment has not scheduled beforehand (10_state.md R55,
log 2). -/
opaque Config.freeAgent : Nat → Agent

/-- FREE VALUE: the 32-bit result word of a count that does not fit in 32 bits (30_encoding.md R97 states none,
log 17). -/
opaque Config.freeCountWord : Nat → Word

end Sys2Proof
end

