-- ==== Sys2Proof/Syntax.lean ====
section
/-! DEFINITION. The instructions: one constructor per row of spec/opcode_table.json (30_encoding.md R91, R94, R95).
The first 27 are CMD32 commands and events; the last five are the control requests a setup packet inside
`EV_SETUP` can be (SETUP64). -/

namespace Sys2Proof

/-- `SEL`: the FIFO a ring-buffer command acts on (30_encoding.md R87). -/
inductive Sel where
  | rx
  | tx
  deriving DecidableEq, Repr

/-- One element of a port's stream: a command word and its payload (30_encoding.md R85). -/
structure StreamElem where
  word : Word
  payload : List Byte
  deriving DecidableEq, Repr

/-- The setup packet SETUP64 (30_encoding.md R92). -/
structure SetupPacket where
  bmRequestType : Byte
  bRequest : Byte
  wValue : Half
  wIndex : Half
  wLength : Half
  deriving DecidableEq, Repr

/-- The commands, events and control requests. `dir` is `bmRequestType[7]`, 1 = device to host (R93). -/
inductive Instr where
  | rbPushRx (b : Byte)
  | rbPushTx (b : Byte)
  | rbPopRx
  | rbPopTx
  | rbLenRx
  | rbLenTx
  | rbIsFullRx
  | rbIsFullTx
  | rbIsEmptyRx
  | rbIsEmptyTx
  | rbContigSpaceRx
  | rbContigSpaceTx
  | rbContigLenRx
  | rbContigLenTx
  | init
  | connected
  | available
  | recvByte
  | sendByte (b : Byte)
  | send (bytes : List Byte)
  | poll
  | setRxCallback (en : Bool)
  | evReset
  | evSetup (packet : SetupPacket) (stage : List Byte)
  | evBulkOut (bytes : List Byte)
  | evSof
  | evDataIn (ep : Byte)
  | setLineCoding (dir : Bool) (wValue wIndex wLength : Half)
  | getLineCoding (dir : Bool) (wValue wIndex wLength : Half)
  | setControlLineState (dir : Bool) (wValue wIndex wLength : Half)
  | classInterfaceUnsupported (dir : Bool) (bRequest : Byte) (wValue wIndex wLength : Half)
  | notRouted (packet : SetupPacket)
  deriving DecidableEq, Repr

end Sys2Proof
end

