-- ==== Sys2Proof/WellFormed.lean ====
section
/-! DEFINITION. Which instructions an encoding can carry: the payload lengths of 30_encoding.md R90 and R98, and which
setup packets are which control request (R94, R95). Five named checks; every other instruction is well formed. -/

namespace Sys2Proof

/-- `D`, the length of the host-to-device data stage after a setup packet (R90): `wLength` when the direction bit is
0, else 0. -/
def SetupPacket.stageLen (p : SetupPacket) : Nat :=
  if p.bmRequestType.getLsbD 7 then 0 else p.wLength.toNat

/-- A class request to an interface, the direction bit ignored (R95). -/
def SetupPacket.isClassInterface (p : SetupPacket) : Bool :=
  p.bmRequestType &&& 0x7F#8 == 0x21#8

/-- The three request codes the responder recognises (R94). -/
def isKnownRequest (r : Byte) : Bool :=
  r == 0x20#8 || r == 0x21#8 || r == 0x22#8

/-- The count of `SEND` is 16 bits (R88). -/
def sendFits (bytes : List Byte) : Bool := decide (bytes.length < 65536)

/-- A bulk-OUT packet has at most 64 bytes (R98 item 5). -/
def packetFits (bytes : List Byte) : Bool := decide (bytes.length ≤ mpsBulk)

/-- The data stage has the length the setup packet gives (R90). -/
def stageFits (p : SetupPacket) (stage : List Byte) : Bool := decide (stage.length = p.stageLen)

/-- An unsupported request is none of the three (R147). -/
def requestIsOther (r : Byte) : Bool := !isKnownRequest r

/-- A packet that is not routed is not a class request to an interface (R141). -/
def packetNotRouted (p : SetupPacket) : Bool := !p.isClassInterface

/-- The instruction has an encoding. -/
def Instr.wf : Instr → Bool
  | .send bytes => sendFits bytes
  | .evBulkOut bytes => packetFits bytes
  | .evSetup p stage => stageFits p stage
  | .classInterfaceUnsupported _ r _ _ _ => requestIsOther r
  | .notRouted p => packetNotRouted p
  | .rbPushRx _ | .rbPushTx _ | .rbPopRx | .rbPopTx | .rbLenRx | .rbLenTx | .rbIsFullRx | .rbIsFullTx
  | .rbIsEmptyRx | .rbIsEmptyTx | .rbContigSpaceRx | .rbContigSpaceTx | .rbContigLenRx | .rbContigLenTx
  | .init | .connected | .available | .recvByte | .sendByte _ | .poll | .setRxCallback _
  | .evReset | .evSof | .evDataIn _
  | .setLineCoding _ _ _ _ | .getLineCoding _ _ _ _ | .setControlLineState _ _ _ _ => true

end Sys2Proof
end

