-- ==== Sys2Proof/Decode.lean ====
section
/-! DEFINITION. The decoder (30_encoding.md R86 to R102), total, rejecting by the reason of R98, and after it the
encoder. Two formats (R85): a stream element, decoded as CMD32, and the 8 bytes of a setup packet, decoded as
SETUP64 into the control request the packet is. -/

namespace Sys2Proof

/-- The opcodes of R91: one for both FIFOs of a ring-buffer command. -/
inductive Opcode where
  | rbPush
  | rbPop
  | rbLen
  | rbIsFull
  | rbIsEmpty
  | rbContigSpace
  | rbContigLen
  | init
  | connected
  | available
  | recvByte
  | sendByte
  | send
  | poll
  | setRxCallback
  | evReset
  | evSetup
  | evBulkOut
  | evSof
  | evDataIn
  deriving DecidableEq, Repr

/-- The decoder's reasons of R98. -/
inductive EncReason where
  /-- `ENC_OPCODE`: `OP` is reserved (R99). -/
  | opcode
  /-- `ENC_RESERVED`: `RSV` is not 0. -/
  | reserved
  /-- `ENC_SEL`: `SEL` is 1 with an opcode that selects no FIFO. -/
  | sel
  /-- `ENC_IMM`: an `IMM16` bit that must be 0 is 1. -/
  | imm
  /-- `ENC_BULK_LEN`: a bulk-OUT packet longer than 64 bytes. -/
  | bulkLen
  /-- `ENC_PAYLOAD`: the payload length differs from R90. -/
  | payload
  deriving DecidableEq, Repr

/-- The two formats of R85. -/
inductive Code where
  | cmd32 (e : StreamElem)
  | setup64 (bytes : List Byte)
  deriving DecidableEq, Repr

/-- The opcode map of R91. -/
def opcodeRows : List (Byte × Opcode) :=
  [(0x01#8, .rbPush), (0x02#8, .rbPop), (0x03#8, .rbLen), (0x04#8, .rbIsFull), (0x05#8, .rbIsEmpty),
   (0x06#8, .rbContigSpace), (0x07#8, .rbContigLen)] ++
  [(0x10#8, .init), (0x11#8, .connected), (0x12#8, .available), (0x13#8, .recvByte), (0x14#8, .sendByte),
   (0x15#8, .send), (0x16#8, .poll), (0x17#8, .setRxCallback)] ++
  [(0x20#8, .evReset), (0x21#8, .evSetup), (0x22#8, .evBulkOut), (0x23#8, .evSof), (0x24#8, .evDataIn)]

/-- The opcode of an `OP` byte; none for the reserved ones (R99). -/
def opcodeOf (op : Byte) : Option Opcode :=
  (opcodeRows.find? fun row => row.1 == op).map (·.2)

/-- Opcodes 0x01 to 0x07, the ones that read `SEL` (R86). -/
def Opcode.usesSel : Opcode → Bool
  | .rbPush | .rbPop | .rbLen | .rbIsFull | .rbIsEmpty | .rbContigSpace | .rbContigLen => true
  | .init | .connected | .available | .recvByte | .sendByte | .send | .poll | .setRxCallback
  | .evReset | .evSetup | .evBulkOut | .evSof | .evDataIn => false

/-- The number of low `IMM16` bits the opcode uses; the bits above must be 0 (R88). -/
def Opcode.immBits : Opcode → Nat
  | .rbPush | .sendByte | .evDataIn => 8
  | .send | .evBulkOut => 16
  | .setRxCallback => 1
  | .rbPop | .rbLen | .rbIsFull | .rbIsEmpty | .rbContigSpace | .rbContigLen
  | .init | .connected | .available | .recvByte | .poll | .evReset | .evSetup | .evSof => 0

/-- The fields of a command word (R86). -/
def opField (w : Word) : Byte := w.extractLsb' 24 8
def selField (w : Word) : Bool := w.getLsbD 23
def rsvField (w : Word) : BitVec 7 := w.extractLsb' 16 7
def immField (w : Word) : Half := w.extractLsb' 0 16

/-- A 16-bit field from its two bytes, the least significant first (20_memory.md R62). -/
def halfOf (lo hi : Byte) : Half := hi ++ lo

def loByte (h : Half) : Byte := h.extractLsb' 0 8
def hiByte (h : Half) : Byte := h.extractLsb' 8 8

/-- The setup packet at the front of a payload, and the rest (R92); none when there are fewer than 8 bytes. -/
def splitSetup : List Byte → Option (SetupPacket × List Byte)
  | b0 :: b1 :: b2 :: b3 :: b4 :: b5 :: b6 :: b7 :: rest =>
    some ({ bmRequestType := b0, bRequest := b1, wValue := halfOf b2 b3, wIndex := halfOf b4 b5,
            wLength := halfOf b6 b7 }, rest)
  | _ => none

/-- The 8 bytes of a setup packet (R92). -/
def SetupPacket.bytes (p : SetupPacket) : List Byte :=
  [p.bmRequestType, p.bRequest, loByte p.wValue, hiByte p.wValue, loByte p.wIndex, hiByte p.wIndex,
   loByte p.wLength, hiByte p.wLength]

/-- `RQ = setup[0] | (setup[1] << 8)`, the value the request patterns match on (R95). -/
def SetupPacket.rq (p : SetupPacket) : Half := halfOf p.bmRequestType p.bRequest

/-- The control request a setup packet is, by the patterns of R95: the three requests first, then any other class
request to an interface, then everything else. Every packet is one (R100). -/
def decodeSetup (p : SetupPacket) : Instr :=
  if p.rq &&& 0xFF7F#16 = 0x2021#16 then
    .setLineCoding (p.bmRequestType.getLsbD 7) p.wValue p.wIndex p.wLength
  else if p.rq &&& 0xFF7F#16 = 0x2121#16 then
    .getLineCoding (p.bmRequestType.getLsbD 7) p.wValue p.wIndex p.wLength
  else if p.rq &&& 0xFF7F#16 = 0x2221#16 then
    .setControlLineState (p.bmRequestType.getLsbD 7) p.wValue p.wIndex p.wLength
  else if p.rq &&& 0x007F#16 = 0x0021#16 then
    .classInterfaceUnsupported (p.bmRequestType.getLsbD 7) p.bRequest p.wValue p.wIndex p.wLength
  else .notRouted p

/-- The instruction, when the element has no payload (R90). -/
def noPayload (i : Instr) (payload : List Byte) : Except EncReason Instr :=
  if payload = [] then .ok i else .error .payload

/-- The instruction of an opcode whose header is legal (R88, R90, R98 items 5 and 6). -/
def decodeBody (op : Opcode) (sel : Bool) (imm : Half) (payload : List Byte) : Except EncReason Instr :=
  match op with
  | .rbPush => noPayload (if sel then .rbPushTx (loByte imm) else .rbPushRx (loByte imm)) payload
  | .rbPop => noPayload (if sel then .rbPopTx else .rbPopRx) payload
  | .rbLen => noPayload (if sel then .rbLenTx else .rbLenRx) payload
  | .rbIsFull => noPayload (if sel then .rbIsFullTx else .rbIsFullRx) payload
  | .rbIsEmpty => noPayload (if sel then .rbIsEmptyTx else .rbIsEmptyRx) payload
  | .rbContigSpace => noPayload (if sel then .rbContigSpaceTx else .rbContigSpaceRx) payload
  | .rbContigLen => noPayload (if sel then .rbContigLenTx else .rbContigLenRx) payload
  | .init => noPayload .init payload
  | .connected => noPayload .connected payload
  | .available => noPayload .available payload
  | .recvByte => noPayload .recvByte payload
  | .sendByte => noPayload (.sendByte (loByte imm)) payload
  | .send => if payload.length = imm.toNat then .ok (.send payload) else .error .payload
  | .poll => noPayload .poll payload
  | .setRxCallback => noPayload (.setRxCallback (imm.getLsbD 0)) payload
  | .evReset => noPayload .evReset payload
  | .evSetup =>
    match splitSetup payload with
    | some (p, stage) => if stage.length = p.stageLen then .ok (.evSetup p stage) else .error .payload
    | none => .error .payload
  | .evBulkOut =>
    if imm.toNat > mpsBulk then .error .bulkLen
    else if payload.length = imm.toNat then .ok (.evBulkOut payload) else .error .payload
  | .evSof => noPayload .evSof payload
  | .evDataIn => noPayload (.evDataIn (loByte imm)) payload

/-- A stream element decoded as CMD32; the reason of a rejected one is the first of R98's list that applies
(log 14). -/
def decodeElem (e : StreamElem) : Except EncReason Instr :=
  match opcodeOf (opField e.word) with
  | none => .error .opcode
  | some op =>
    if rsvField e.word ≠ 0#7 then .error .reserved
    else if selField e.word && !op.usesSel then .error .sel
    else if (immField e.word) >>> op.immBits ≠ 0#16 then .error .imm
    else decodeBody op (selField e.word) (immField e.word) e.payload

/-- The 8 bytes of a setup packet decoded as SETUP64. -/
def decodePacket (bytes : List Byte) : Except EncReason Instr :=
  match splitSetup bytes with
  | some (p, []) => .ok (decodeSetup p)
  | _ => .error .payload

/-- The decoder (R96). -/
def decode : Code → Except EncReason Instr
  | .cmd32 e => decodeElem e
  | .setup64 bytes => decodePacket bytes

/-- The 32-bit word of four bytes, least significant first (R86, 20_memory.md R62). -/
def wordOf (b0 b1 b2 b3 : Byte) : Word := b3 ++ b2 ++ b1 ++ b0

/-- A stream element carried as bytes: the word, then the payload (R86, R102); none for fewer than 4 bytes
(DESIGN CHOICE, log 25). -/
def elemOfBytes : List Byte → Option StreamElem
  | b0 :: b1 :: b2 :: b3 :: rest => some { word := wordOf b0 b1 b2 b3, payload := rest }
  | _ => none

/-- The payload length of a command word, told from the word alone or, for `EV_SETUP`, from it and the first 8 bytes
that follow (R90, R102). -/
def payloadLength (w : Word) (following : List Byte) : Nat :=
  match opcodeOf (opField w) with
  | some .send | some .evBulkOut => (immField w).toNat
  | some .evSetup =>
    match splitSetup following with
    | some (p, _) => 8 + p.stageLen
    | none => 8
  | _ => 0

/-- The first element of a port's stream carried as bytes, and the bytes after it (R102). Bytes that end inside
an element's payload give no element, rather than an illegal one with `ENC_PAYLOAD` (DESIGN CHOICE, log 25). -/
def splitElem (bytes : List Byte) : Option (StreamElem × List Byte) :=
  match elemOfBytes bytes with
  | some e =>
    let n := payloadLength e.word e.payload
    if n ≤ e.payload.length then some ({ e with payload := e.payload.take n }, e.payload.drop n) else none
  | none => none

/-- The bytes of a stream element. -/
def StreamElem.bytes (e : StreamElem) : List Byte :=
  [e.word.extractLsb' 0 8, e.word.extractLsb' 8 8, e.word.extractLsb' 16 8, e.word.extractLsb' 24 8] ++ e.payload

/-! The encoder. -/

/-- The `OP` byte of an opcode (R91). -/
def Opcode.code : Opcode → Byte
  | .rbPush => 0x01#8
  | .rbPop => 0x02#8
  | .rbLen => 0x03#8
  | .rbIsFull => 0x04#8
  | .rbIsEmpty => 0x05#8
  | .rbContigSpace => 0x06#8
  | .rbContigLen => 0x07#8
  | .init => 0x10#8
  | .connected => 0x11#8
  | .available => 0x12#8
  | .recvByte => 0x13#8
  | .sendByte => 0x14#8
  | .send => 0x15#8
  | .poll => 0x16#8
  | .setRxCallback => 0x17#8
  | .evReset => 0x20#8
  | .evSetup => 0x21#8
  | .evBulkOut => 0x22#8
  | .evSof => 0x23#8
  | .evDataIn => 0x24#8

/-- The command word of its fields, `RSV` 0 (R86). -/
def headWord (op : Opcode) (sel : Bool) (imm : Half) : Word :=
  op.code ++ BitVec.ofBool sel ++ 0#7 ++ imm

/-- An element with no payload. -/
def plainElem (op : Opcode) (sel : Bool) (imm : Half) : Code :=
  .cmd32 { word := headWord op sel imm, payload := [] }

/-- `zext_16` of a byte. -/
def immOfByte (b : Byte) : Half := b.setWidth 16

/-- The setup packet of a class request to an interface (R93 to R95). -/
def classPacket (dir : Bool) (bRequest : Byte) (wValue wIndex wLength : Half) : SetupPacket :=
  { bmRequestType := BitVec.ofBool dir ++ 0x21#7, bRequest, wValue, wIndex, wLength }

/-- The encoding of an instruction (R86, R88, R91, R92). -/
def encode : Instr → Code
  | .rbPushRx b => plainElem .rbPush false (immOfByte b)
  | .rbPushTx b => plainElem .rbPush true (immOfByte b)
  | .rbPopRx => plainElem .rbPop false 0#16
  | .rbPopTx => plainElem .rbPop true 0#16
  | .rbLenRx => plainElem .rbLen false 0#16
  | .rbLenTx => plainElem .rbLen true 0#16
  | .rbIsFullRx => plainElem .rbIsFull false 0#16
  | .rbIsFullTx => plainElem .rbIsFull true 0#16
  | .rbIsEmptyRx => plainElem .rbIsEmpty false 0#16
  | .rbIsEmptyTx => plainElem .rbIsEmpty true 0#16
  | .rbContigSpaceRx => plainElem .rbContigSpace false 0#16
  | .rbContigSpaceTx => plainElem .rbContigSpace true 0#16
  | .rbContigLenRx => plainElem .rbContigLen false 0#16
  | .rbContigLenTx => plainElem .rbContigLen true 0#16
  | .init => plainElem .init false 0#16
  | .connected => plainElem .connected false 0#16
  | .available => plainElem .available false 0#16
  | .recvByte => plainElem .recvByte false 0#16
  | .sendByte b => plainElem .sendByte false (immOfByte b)
  | .send bytes => .cmd32 { word := headWord .send false (BitVec.ofNat 16 bytes.length), payload := bytes }
  | .poll => plainElem .poll false 0#16
  | .setRxCallback en => plainElem .setRxCallback false ((BitVec.ofBool en).setWidth 16)
  | .evReset => plainElem .evReset false 0#16
  | .evSetup p stage => .cmd32 { word := headWord .evSetup false 0#16, payload := p.bytes ++ stage }
  | .evBulkOut bytes => .cmd32 { word := headWord .evBulkOut false (BitVec.ofNat 16 bytes.length), payload := bytes }
  | .evSof => plainElem .evSof false 0#16
  | .evDataIn ep => plainElem .evDataIn false (immOfByte ep)
  | .setLineCoding dir v i l => .setup64 (classPacket dir 0x20#8 v i l).bytes
  | .getLineCoding dir v i l => .setup64 (classPacket dir 0x21#8 v i l).bytes
  | .setControlLineState dir v i l => .setup64 (classPacket dir 0x22#8 v i l).bytes
  | .classInterfaceUnsupported dir r v i l => .setup64 (classPacket dir r v i l).bytes
  | .notRouted p => .setup64 p.bytes

/-! The opcode table's own numbering of bits, as the host asks for it. -/

/-- The zero payload a command word needs (R90): the operand bytes above the word, all 0. -/
def zeroPayload (word : Word) : List Byte :=
  match opcodeOf (opField word) with
  | some .send | some .evBulkOut => List.replicate (immField word).toNat 0#8
  | some .evSetup => List.replicate 8 0#8
  | _ => []

/-- The 8 bytes of a SETUP64 row's bits: bit 0 is the least significant bit of `setup[0]`. -/
def packetBytes (w : Nat) : List Byte :=
  [0, 8, 16, 24, 32, 40, 48, 56].map fun k => (BitVec.ofNat 64 w).extractLsb' k 8

/-- The format of a table row: 32 bits are a CMD32 row, any other number a SETUP64 row. -/
def tableCode (nbits w : Nat) : Code :=
  if nbits = 32 then
    .cmd32 { word := BitVec.ofNat 32 w, payload := zeroPayload (BitVec.ofNat 32 w) }
  else .setup64 (packetBytes w)

/-- The instruction the decoder reads from a table row's bits; none where it refuses. -/
def decodeTableWord (nbits w : Nat) : Option Instr :=
  (decode (tableCode nbits w)).toOption

/-- The `EV_SETUP` element that carries a setup packet, with a data stage of zeros. -/
def setupElem (bytes : List Byte) : StreamElem :=
  { word := headWord .evSetup false 0#16,
    payload := bytes ++ (match splitSetup bytes with
      | some (p, _) => List.replicate p.stageLen 0#8
      | none => []) }

/-- The stream element that runs a table row's instruction: a SETUP64 row runs inside `EV_SETUP`. -/
def tableElem (nbits w : Nat) : StreamElem :=
  match tableCode nbits w with
  | .cmd32 e => e
  | .setup64 bytes => setupElem bytes

end Sys2Proof
end

