-- ==== Sys2Proof/Machine/State.lean ====
section
/-! DEFINITION. The state of the block: every element of 10_state.md R52 as plain data, the positions of the two
command streams (R30), and the model's own fields: the configuration, the environment's choices, the issuing port. -/

namespace Sys2Proof.Machine

/-- Byte storage: the listed addresses in rising order; every other address reads as `Memory.blank`. -/
abbrev Memory := List Host.Cell

/-- One FIFO (R31) with the two copies of its counters (R38). For RX the consumer is APP, so `putCopy` is
`RX.put_app` (S3) and `getCopy` is `RX.get_usb` (S4); for TX the consumer is USB, so `putCopy` is `TX.put_usb` (S8)
and `getCopy` is `TX.get_app` (S9). -/
structure Fifo where
  /-- `F.data`. -/
  data : Memory
  /-- `F.put`, written by the producer. -/
  put : Nat
  /-- `F.get`, written by the consumer. -/
  get : Nat
  /-- The consumer's copy of `F.put`. -/
  putCopy : Nat
  /-- The producer's copy of `F.get`. -/
  getCopy : Nat
  deriving DecidableEq, Repr

/-- `APP.op` (R48). -/
inductive AppOp where
  | idle
  | send (bytes : List Byte) (i : Nat) (accepted : Nat)
  | poll
  deriving DecidableEq, Repr

/-- `USB.op` (R49). -/
inductive UsbOp where
  | idle
  | rx (len : Nat) (i : Nat) (drop : Bool)
  deriving DecidableEq, Repr

/-- The verdict of a control request (41_control_requests.md R140, R141). -/
inductive Verdict where
  | notSupported
  | handled
  | notRouted
  deriving DecidableEq, Repr

/-- An entry of the output trace (R57). -/
inductive Output where
  /-- `APPRES(v)`. -/
  | appRes (v : Word)
  /-- `USBRES(v)`. -/
  | usbRes (v : Word)
  /-- `IN(ep, s)`. -/
  | packetIn (ep : Byte) (bytes : List Byte)
  /-- `INT(ep, s)`. -/
  | notify (ep : Byte) (bytes : List Byte)
  /-- `CTRL(v, s)`. -/
  | ctrl (v : Verdict) (bytes : List Byte)
  /-- `RXCB(s)`. -/
  | rxCallback (bytes : List Byte)
  deriving DecidableEq, Repr

/-- The reasons of a refusal (60_exceptions.md R223). -/
inductive RefuseReason where
  /-- `RF_ENCODING`, with the decoder's reason. -/
  | encoding (r : EncReason)
  /-- `RF_DOMAIN`. -/
  | domain
  /-- `RF_REINIT`. -/
  | reinit
  /-- `RF_CONFIG`: the model is not built. -/
  | config
  deriving DecidableEq, Repr

/-- What the refusal mark records: the refused agent's port and the reason (R223). -/
structure RefusalMark where
  port : Domain
  reason : RefuseReason
  deriving DecidableEq, Repr

/-- A port's command stream (R30): `taken` is the index of the next command, `pending` the commands from there on. -/
structure PortStream where
  taken : Nat
  pending : List StreamElem
  deriving DecidableEq, Repr

/-- Why the machine stops with a fault. No well-formed command reaches one: they guard the primitives of
00_scope.md R15 outside the range in which they are defined. -/
inductive Fault where
  /-- `MemRead` or `MemWrite` past the end of a FIFO's storage; raised by `memRead` and `memWrite`. Safe. -/
  | storageRange (f : Sel)
  /-- An access past the end of the packet buffer `USB.pkt`; raised by `memRead` and `memWrite`. Safe. -/
  | packetRange
  deriving DecidableEq, Repr

/-- Why a step has no meaning. -/
inductive Refusal where
  /-- An instruction without a meaning yet; raised by no arm of this model. Safe. -/
  | notModelled (mnemonic : String)
  /-- `REFUSED` is 1: "the model has no meaning for the run" (R59); raised by `step`. Safe. -/
  | afterRefusal
  /-- `RF_CONFIG`: an ill-formed configuration, for which "the model is not built" (00_scope.md R9, R10); raised by
  `step`. Safe. -/
  | badConfig
  deriving DecidableEq, Repr

/-- The state. The comment of a field gives its number in the table of R52. -/
structure State where
  /-- The configuration (00_scope.md R8); no step writes it (R51). Model's own. -/
  cfg : Config
  /-- S0 to S4. -/
  rx : Fifo
  /-- S5 to S9. -/
  tx : Fifo
  /-- S10 `CONN`. -/
  conn : Bool
  /-- S11 `CONN_app`. -/
  connApp : Bool
  /-- S12 `PEF`. -/
  pef : Bool
  /-- S13 `INIT_DONE`. -/
  initDone : Bool
  /-- S14 `RXCB_EN`. -/
  rxcbEn : Bool
  /-- S15 `RXCB_usb`. -/
  rxcbUsb : Bool
  /-- S16 `APP.op`. -/
  appOp : AppOp
  /-- S17 `USB.op`. -/
  usbOp : UsbOp
  /-- S18 `USB.pkt`. -/
  pkt : Memory
  /-- S18 `USB.pktlen`. -/
  pktlen : Nat
  /-- S20 `REFUSED`: 0 is `none`. -/
  refusal : Option RefusalMark
  /-- S21 `OUT`, the oldest output first. -/
  out : List Output
  /-- The APP port's stream (R30). -/
  appIn : PortStream
  /-- The USB port's stream (R30). -/
  usbIn : PortStream
  /-- The port whose command or micro-step runs. Model's own (log 5). -/
  issuer : Domain
  /-- The agents that make the next steps, as far as ENV has fixed them. Model's own (log 2). -/
  sched : List Agent
  /-- The answers to the next draws, as far as ENV has fixed them. Model's own (log 3). -/
  draws : List Bool
  /-- The number of free values read so far. Model's own (logs 2 and 3). -/
  free : Nat
  deriving DecidableEq, Repr

/-- An empty FIFO, its counters and copies 0 (R52). -/
def Fifo.empty : Fifo := { data := [], put := 0, get := 0, putCopy := 0, getCopy := 0 }

/-- Power-on reset of a block with the configuration `cfg` (R52, 70_reset_and_hazards.md R250). -/
def State.por (cfg : Config) : State :=
  { cfg, rx := Fifo.empty, tx := Fifo.empty, conn := false, connApp := false, pef := false, initDone := false,
    rxcbEn := false, rxcbUsb := false, appOp := .idle, usbOp := .idle, pkt := [], pktlen := 0, refusal := none,
    out := [], appIn := { taken := 0, pending := [] }, usbIn := { taken := 0, pending := [] }, issuer := .app,
    sched := [], draws := [], free := 0 }

/-- The machine right after reset: power-on reset under the spec's test configuration TC-A (DESIGN CHOICE, log 1). -/
def State.reset : State := State.por tcA

end Sys2Proof.Machine
end

