-- ==== Sys2Proof/Machine/Ops.lean ====
section
/-! DEFINITION. The shared operations: the configuration check, byte storage and its range check, counter
arithmetic, the FIFO accessors, outputs and results, the refusal (the block's one answer to a use without
meaning, in the place of an exception), draws, and the line-state and line-coding registers. -/

namespace Sys2Proof

/-- R9: `N != 0 and (N & (N-1)) == 0`. -/
def isCapacity (n : Nat) : Bool := n != 0 && n &&& (n - 1) == 0

/-- The configuration is well formed (00_scope.md R9, R10). -/
def Config.legal (c : Config) : Bool :=
  isCapacity c.nRx && isCapacity c.nTx && decide (2 * c.nRx ≤ 2 ^ c.ctrW) && decide (2 * c.nTx ≤ 2 ^ c.ctrW)

/-- `N_F`. -/
def Config.cap (c : Config) : Sel → Nat
  | .rx => c.nRx
  | .tx => c.nTx

/-- `wrap(v)` (R13). -/
def Config.wrap (c : Config) (v : Nat) : Nat := v % 2 ^ c.ctrW

/-- `occ(p, g) = wrap(p - g)`, the unsigned difference (R13). -/
def Config.occ (c : Config) (p g : Nat) : Nat := c.wrap (p + (2 ^ c.ctrW - c.wrap g))

/-- `ix_F(v) = v mod N_F` (R13). -/
def Config.ix (c : Config) (f : Sel) (v : Nat) : Nat := v % c.cap f

/-- The 8 bytes of a notification in order. -/
def Notification.bytes (n : Notification) : List Byte := [n.b0, n.b1, n.b2, n.b3, n.b4, n.b5, n.b6, n.b7]

/-- The table's notification for a request value. -/
def SerialTable.at (t : SerialTable) (v : Half) : Notification :=
  match t.rows.find? fun row => row.1 == v with
  | some row => row.2
  | none => t.dflt

/-- `SERIAL_STATE_BYTES(wValue)` (41_control_requests.md R144). -/
def Config.serialStateBytes (c : Config) (v : Half) : List Byte := (c.serialState.at v).bytes

/-- `LC_BYTES`: the line coding serialised, `dwDTERate` least significant byte first (10_state.md R46). -/
def LineCoding.bytes (l : LineCoding) : List Byte :=
  [l.dwDTERate.extractLsb' 0 8, l.dwDTERate.extractLsb' 8 8, l.dwDTERate.extractLsb' 16 8,
   l.dwDTERate.extractLsb' 24 8, l.bCharFormat, l.bParityType, l.bDataBits]

end Sys2Proof

namespace Sys2Proof.Machine

/-- The outcome of an operation that answers a value. -/
abbrev Result (α : Type) := Host.Outcome α Fault Refusal

/-- Go on with the value of an operation, or stop as it stopped. -/
def andThen {α β : Type} (o : Result α) (k : α → Result β) : Result β :=
  match o with
  | .next a => k a
  | .fault r => .fault r
  | .refused r => .refused r

/-! Byte storage. -/

/-- What an address that is not listed reads as (DESIGN CHOICE, log 8; 10_state.md R53 leaves it unspecified). -/
def Memory.blank : Byte := 0#8

/-- The byte at an address. -/
def Memory.read : Memory → Nat → Byte
  | [], _ => Memory.blank
  | (k, v) :: rest, a => if k = a then v else Memory.read rest a

/-- Store a byte, keeping the canonical form. -/
def Memory.write : Memory → Nat → Byte → Memory
  | [], a, b => if b = Memory.blank then [] else [(a, b)]
  | (k, v) :: rest, a, b =>
    if a < k then (if b = Memory.blank then (k, v) :: rest else (a, b) :: (k, v) :: rest)
    else if a = k then (if b = Memory.blank then rest else (a, b) :: rest)
    else (k, v) :: Memory.write rest a b

/-- `n` bytes from an address on. -/
def Memory.readBytes (m : Memory) (a : Nat) : Nat → List Byte
  | 0 => []
  | n + 1 => Memory.read m a :: Memory.readBytes m (a + 1) n

/-- Store bytes from an address on. -/
def Memory.writeBytes (m : Memory) (a : Nat) : List Byte → Memory
  | [] => m
  | b :: rest => Memory.writeBytes (Memory.write m a b) (a + 1) rest

/-- The canonical form: addresses strictly rising, none listed that reads as blank. -/
def Memory.wf : Memory → Bool
  | [] => true
  | [(_, v)] => v != Memory.blank
  | (k, v) :: (k', v') :: rest => v != Memory.blank && decide (k < k') && Memory.wf ((k', v') :: rest)

/-- `MemRead(F, i, n)` of a space of `size` bytes, defined only when `i + n <= size` (00_scope.md R15). -/
def memRead (outside : Fault) (size : Nat) (m : Memory) (i n : Nat) : Result (List Byte) :=
  if i + n ≤ size then .next (Memory.readBytes m i n) else .fault outside

/-- `MemWrite(F, i, n, s)` (R15). -/
def memWrite (outside : Fault) (size : Nat) (m : Memory) (i : Nat) (bytes : List Byte) : Result Memory :=
  if i + bytes.length ≤ size then .next (Memory.writeBytes m i bytes) else .fault outside

/-! State accessors. -/

/-- The FIFO that `SEL` names (30_encoding.md R87). -/
def State.fifo (s : State) : Sel → Fifo
  | .rx => s.rx
  | .tx => s.tx

def State.setFifo (s : State) (f : Sel) (x : Fifo) : State :=
  match f with
  | .rx => { s with rx := x }
  | .tx => { s with tx := x }

/-- S20 `REFUSED`, the 1-bit mark (10_state.md R59). -/
def State.refusedBit (s : State) : Bool := s.refusal.isSome

/-- `emit` (00_scope.md R16). -/
def State.emit (s : State) (o : Output) : State := { s with out := s.out ++ [o] }

/-- A result word as an output of a port (30_encoding.md R97). -/
def resultOutput (d : Domain) (v : Word) : Output :=
  match d with
  | .app => .appRes v
  | .usb => .usbRes v

/-- `result <- v`: the result word on the port that issued the command (00_scope.md R16). -/
def State.result (s : State) (v : Word) : State := s.emit (resultOutput s.issuer v)

/-- `refuse Reason` (60_exceptions.md R223): the mark is set; no other state is written and nothing is emitted. -/
def State.refuse (s : State) (r : RefuseReason) : State :=
  { s with refusal := some { port := s.issuer, reason := r } }

/-- The code of a refusal's reason (R223). -/
def RefuseReason.code : RefuseReason → Nat
  | .encoding _ => 1
  | .domain => 2
  | .reinit => 3
  | .config => 4

/-- `draw ok ∈ {true, false}`: the environment's next answer (00_scope.md R16; a free value once its list is used
up). -/
def State.drawn (s : State) : Bool :=
  match s.draws with
  | ok :: _ => ok
  | [] => Config.freeDraw s.free

/-- The state after a draw. -/
def State.afterDraw (s : State) : State :=
  match s.draws with
  | _ :: rest => { s with draws := rest }
  | [] => { s with free := s.free + 1 }

/-- The port legality test of 30_encoding.md R101: go on, or refuse with `RF_DOMAIN`. -/
def onPort (allowed : Bool) (s : State) (k : Result State) : Result State :=
  if allowed then k else .next (s.refuse .domain)

/-- Build the model, or refuse the configuration with `RF_CONFIG` (00_scope.md R9, R10; R223). -/
def State.build (cfg : Config) : Except RefuseReason State :=
  if cfg.legal then .ok (State.por cfg) else .error .config

/-! The control registers. -/

/-- A write of the line-state register `LS`: bit 0 is stored as `CONN`, bits 15:1 are ignored (10_state.md R43). -/
def State.writeLS (s : State) (v : Half) : State := { s with conn := v.getLsbD 0 }

/-- The line-state register as its stored bit shows it (R43). -/
def State.readLS (s : State) : Half := (BitVec.ofBool s.conn).setWidth 16

/-- The hardwired line-coding register file `LC` (R46). -/
def State.readLC (_ : State) : LineCoding := LineCoding.fixed

/-- `LC` is write-ignored (R47). -/
def State.writeLC (s : State) (_ : List Byte) : State := s

end Sys2Proof.Machine
end

