-- ==== Sys2Proof/Machine/Operands.lean ====
section
/-! DEFINITION. Operands and results: who produces and consumes a FIFO, a domain's view of it (10_state.md R33, R39),
the port legality table (30_encoding.md R101), and the result words (R97). -/

namespace Sys2Proof.Machine

/-- The domain that pushes into a FIFO (R33). -/
def producer : Sel → Domain
  | .rx => .usb
  | .tx => .app

/-- The domain that pops from a FIFO (R33). -/
def consumer : Sel → Domain
  | .rx => .app
  | .tx => .usb

/-- The `put` of `view_d(F)` (R39). -/
def State.viewPut (s : State) (d : Domain) (f : Sel) : Nat :=
  if d = producer f then (s.fifo f).put else (s.fifo f).putCopy

/-- The `get` of `view_d(F)` (R39). -/
def State.viewGet (s : State) (d : Domain) (f : Sel) : Nat :=
  if d = consumer f then (s.fifo f).get else (s.fifo f).getCopy

/-- Which port may issue a command (R101). A control request is part of the event `EV_SETUP`, so it has that event's
port. -/
def portAllows (i : Instr) (d : Domain) : Bool :=
  match i with
  | .rbPushRx _ => d == .usb
  | .rbPushTx _ => d == .app
  | .rbPopRx => d == .app
  | .rbPopTx => d == .usb
  | .rbLenRx | .rbLenTx | .rbIsFullRx | .rbIsFullTx | .rbIsEmptyRx | .rbIsEmptyTx
  | .rbContigSpaceRx | .rbContigSpaceTx | .rbContigLenRx | .rbContigLenTx => true
  | .init | .connected | .available | .recvByte | .sendByte _ | .send _ | .poll | .setRxCallback _ => d == .app
  | .evReset | .evSetup _ _ | .evBulkOut _ | .evSof | .evDataIn _ => d == .usb
  | .setLineCoding _ _ _ _ | .getLineCoding _ _ _ _ | .setControlLineState _ _ _ _
  | .classInterfaceUnsupported _ _ _ _ _ | .notRouted _ => d == .usb

/-- The USB events 0x20 to 0x24, whose delivery is gated (42_endpoint_events.md R160). -/
def isEvent (i : Instr) : Bool :=
  match i with
  | .evReset | .evSetup _ _ | .evBulkOut _ | .evSof | .evDataIn _ => true
  | .setLineCoding _ _ _ _ | .getLineCoding _ _ _ _ | .setControlLineState _ _ _ _
  | .classInterfaceUnsupported _ _ _ _ _ | .notRouted _ => true
  | .rbPushRx _ | .rbPushTx _ | .rbPopRx | .rbPopTx | .rbLenRx | .rbLenTx | .rbIsFullRx | .rbIsFullTx
  | .rbIsEmptyRx | .rbIsEmptyTx | .rbContigSpaceRx | .rbContigSpaceTx | .rbContigLenRx | .rbContigLenTx
  | .init | .connected | .available | .recvByte | .sendByte _ | .send _ | .poll | .setRxCallback _ => false

/-- `zext_32` of a bit. -/
def bitWord (b : Bool) : Word := (BitVec.ofBool b).setWidth 32

/-- `zext_32` of a count; a free value for a count that does not fit in 32 bits (DESIGN CHOICE, log 17). -/
def countWord (n : Nat) : Word := if n < 2 ^ 32 then BitVec.ofNat 32 n else Config.freeCountWord n

/-- The result of a pop: `0x100 | b`, or 0 for the document's `None`. -/
def popWord : Option Byte → Word
  | some b => 0x100#32 ||| b.setWidth 32
  | none => 0#32

/-- The verdict codes of R97. -/
def verdictWord : Verdict → Word
  | .notSupported => 0#32
  | .handled => 1#32
  | .notRouted => 2#32

end Sys2Proof.Machine
end

