-- ==== Sys2Proof/Machine/Control.lean ====
section
/-! DEFINITION. The CDC control-request responder (41_control_requests.md R140 to R150) and the event `EV_SETUP` that
carries its requests (42_endpoint_events.md R175). Each request is one step of the USB port: its effect, then
`CTRL`, then the result word. -/

namespace Sys2Proof.Machine

/-- The verdict and data stage as outputs: `CTRL`, then the verdict code as the result (R175). -/
def answer (v : Verdict) (data : List Byte) (s : State) : State :=
  (s.emit (.ctrl v data)).result (verdictWord v)

/-- The optional serial-state notification (R143, R144): dropped when interrupt-IN does not take it. -/
def notification (wValue : Half) (s : State) : State :=
  if s.cfg.serialStateNotify then
    { s.afterDraw with out := s.out ++ if s.drawn then [.notify epIntIn (s.cfg.serialStateBytes wValue)] else [] }
  else s

/-- `SET_CONTROL_LINE_STATE` (R143). -/
def lineStateRequest (wValue : Half) (s : State) : State :=
  answer .handled [] (notification wValue (s.writeLS wValue))

/-- `SET_LINE_CODING` (R145): accepted when `wLength` is at least the structure's size, and never applied. -/
def setCodingRequest (wLength : Half) (data : List Byte) (s : State) : State :=
  if lcSize ≤ wLength.toNat then answer .handled [] (s.writeLC data) else answer .notSupported [] s

/-- `GET_LINE_CODING` (R146). -/
def getCodingRequest (s : State) : State := answer .handled s.readLC.bytes s

/-- Any other class request to an interface (R147). -/
def unsupportedRequest (s : State) : State := answer .notSupported [] s

/-- A packet the responder does not see (R141). -/
def unroutedRequest (s : State) : State := answer .notRouted [] s

/-- Events are legal on the USB port only (30_encoding.md R101). -/
def onUsb (s : State) (k : Result State) : Result State := onPort (s.issuer == .usb) s k

/-- `EV_SETUP` (R175): routing by R141, dispatch on `bRequest` alone by R142. -/
def execEvSetup (p : SetupPacket) (stage : List Byte) (s : State) : Result State :=
  onUsb s (.next
    (if p.bmRequestType &&& 0x7F#8 ≠ 0x21#8 then unroutedRequest s
     else if p.bRequest = 0x22#8 then lineStateRequest p.wValue s
     else if p.bRequest = 0x20#8 then setCodingRequest p.wLength stage s
     else if p.bRequest = 0x21#8 then getCodingRequest s
     else unsupportedRequest s))

def execSetControlLineState (_ : Bool) (wValue _ _ : Half) (s : State) : Result State :=
  onUsb s (.next (lineStateRequest wValue s))

def execSetLineCoding (_ : Bool) (_ _ wLength : Half) (s : State) : Result State :=
  onUsb s (.next (setCodingRequest wLength [] s))

def execGetLineCoding (_ : Bool) (_ _ _ : Half) (s : State) : Result State :=
  onUsb s (.next (getCodingRequest s))

def execClassInterfaceUnsupported (_ : Bool) (_ : Byte) (_ _ _ : Half) (s : State) : Result State :=
  onUsb s (.next (unsupportedRequest s))

def execNotRouted (_ : SetupPacket) (s : State) : Result State := onUsb s (.next (unroutedRequest s))

end Sys2Proof.Machine
end

