-- ==== Sys2Proof/Machine/Flags.lean ====
section
/-! DEFINITION. The derived flags and counts of a domain's view of a FIFO (40_ring_buffer.md R111). None is stored:
fullness and emptiness are differences of counters (10_state.md R34). -/

namespace Sys2Proof.Machine

/-- `occ_d(F)`. -/
def State.occOf (s : State) (d : Domain) (f : Sel) : Nat := s.cfg.occ (s.viewPut d f) (s.viewGet d f)

/-- `full_d(F)`. -/
def State.full (s : State) (d : Domain) (f : Sel) : Bool := decide (s.occOf d f = s.cfg.cap f)

/-- `empty_d(F)`. -/
def State.isEmpty (s : State) (d : Domain) (f : Sel) : Bool := decide (s.occOf d f = 0)

/-- `cspace_d(F)`: free bytes before the physical wrap. -/
def State.cspace (s : State) (d : Domain) (f : Sel) : Nat :=
  min (s.cfg.cap f - s.occOf d f) (s.cfg.cap f - s.cfg.ix f (s.viewPut d f))

/-- `clen_d(F)`: valid bytes before the physical wrap. -/
def State.clen (s : State) (d : Domain) (f : Sel) : Nat :=
  min (s.occOf d f) (s.cfg.cap f - s.cfg.ix f (s.viewGet d f))

/-- Both FIFO-independent enables of an event (42_endpoint_events.md R160), `USB.op == idle` apart: initialisation
has happened, and the delivery mode lets an event in now. -/
def State.eventsOpen (s : State) : Bool :=
  s.initDone && (s.cfg.deliveryMode == .irq || s.appOp == .poll)

end Sys2Proof.Machine
end

