-- ==== Sys2Proof/Machine/Transfer.lean ====
section
/-! DEFINITION. The two ways a single byte crosses a FIFO (40_ring_buffer.md R112, R113), shared by the ring-buffer
commands, the byte-stream commands and the `SEND` micro-step, and the move of a block of bytes into and out of one
(42_endpoint_events.md R164, R172). -/

namespace Sys2Proof.Machine

/-- Write bytes at the producer's `put` and advance it, in one step (R112, R164). -/
def append (f : Sel) (bytes : List Byte) (s : State) : Result State :=
  andThen (memWrite (.storageRange f) (s.cfg.cap f) (s.fifo f).data
      (s.cfg.ix f (s.viewPut (producer f) f)) bytes) fun data =>
    .next (s.setFifo f { s.fifo f with
      data := data, put := s.cfg.wrap (s.viewPut (producer f) f + bytes.length) })

/-- Read `n` bytes at the consumer's `get`. -/
def peek (f : Sel) (n : Nat) (s : State) : Result (List Byte) :=
  memRead (.storageRange f) (s.cfg.cap f) (s.fifo f).data (s.cfg.ix f (s.viewGet (consumer f) f)) n

/-- Advance the consumer's `get` by `n`. -/
def advance (f : Sel) (n : Nat) (s : State) : State :=
  s.setFifo f { s.fifo f with get := s.cfg.wrap (s.viewGet (consumer f) f + n) }

/-- `push`: refused when the producer's view is full; else the byte is stored. Answers whether it was accepted. -/
def pushByte (f : Sel) (b : Byte) (s : State) : Result (Bool × State) :=
  if s.occOf (producer f) f = s.cfg.cap f then .next (false, s)
  else andThen (append f [b] s) fun t => .next (true, t)

/-- `pop`: none when the consumer's view is empty; else the oldest byte. -/
def popByte (f : Sel) (s : State) : Result (Option Byte × State) :=
  if s.occOf (consumer f) f = 0 then .next (none, s)
  else andThen (peek f 1 s) fun bytes => .next (bytes.head?, advance f 1 s)

/-- The bytes `USB.pkt[i..i+n)`. -/
def packet (i n : Nat) (s : State) : Result (List Byte) := memRead .packetRange mpsBulk s.pkt i n

end Sys2Proof.Machine
end

