-- ==== Sys2Proof/Machine/Endpoint.lean ====
section
/-! DEFINITION. The endpoint events (42_endpoint_events.md R162 to R174) and the USB agent's internal steps: the
slow-path bulk-OUT micro-step and its completion. -/

namespace Sys2Proof.Machine

/-- `EV_RESET` (R162): the USB bus reset clears `CONN` and nothing else. -/
def execEvReset (s : State) : Result State := onUsb s (.next ({ s with conn := false }.result 0#32))

/-- `EV_DATA_IN` (R174): no effect. -/
def execEvDataIn (_ : Byte) (s : State) : Result State := onUsb s (.next (s.result 0#32))

/-- One call of the registered callback with the packet, if one is registered (R168). -/
def callback (bytes : List Byte) (s : State) : State := if s.rxcbUsb then s.emit (.rxCallback bytes) else s

/-- The packet is read into the temporary buffer (R163, 10_state.md R50). -/
def loadPacket (bytes : List Byte) (s : State) : Result State :=
  andThen (memWrite .packetRange mpsBulk s.pkt 0 bytes) fun pkt =>
    .next { s with pkt := pkt, pktlen := bytes.length }

/-- The fast path (R164): the whole packet enters RX in this step. -/
def fastPath (s : State) : Result State :=
  andThen (packet 0 s.pktlen s) fun bytes =>
    andThen (append .rx bytes s) fun t => .next ((callback bytes t).result 0#32)

/-- `EV_BULK_OUT` (R163): the callback instead of RX, the fast path, or the start of the slow path (R165). -/
def execEvBulkOut (bytes : List Byte) (s : State) : Result State :=
  onUsb s (andThen (loadPacket bytes s) fun t =>
    if t.rxcbUsb && t.cfg.rxCbBypass then
      andThen (packet 0 t.pktlen t) fun b => .next ((callback b t).result 0#32)
    else if mpsBulk ≤ t.cspace .usb .rx then fastPath t
    else .next { t with usbOp := .rx t.pktlen 0 false })

/-- The slow path with `USB.op = rx(len, i, drop)`: one byte (R166), or the completion (R167). -/
def rxStep (len i : Nat) (drop : Bool) (s : State) : Result State :=
  if i < len then
    if drop = false ∧ s.occOf .usb .rx < s.cfg.cap .rx then
      andThen (packet i 1 s) fun b =>
        andThen (append .rx b s) fun t => .next { t with usbOp := .rx len (i + 1) false }
    else .next { s with usbOp := .rx len (i + 1) true }
  else
    andThen (packet 0 len s) fun bytes => .next ({ callback bytes s with usbOp := .idle }.result 0#32)

/-- `send(c)` of `EV_SOF` (R172): when bulk-IN takes the packet, its bytes leave TX and `PEF` says whether it was a
full one; when it does not, nothing changes. -/
def sendPacket (c : Nat) (s : State) : Result State :=
  andThen (peek .tx c s) fun bytes =>
    .next ((if s.drawn then
        { (advance .tx c s.afterDraw).emit (.packetIn epBulkIn bytes) with pef := decide (c = mpsBulk) }
      else s.afterDraw).result 0#32)

/-- `EV_SOF` (R170): the transmit flush. -/
def execEvSof (s : State) : Result State :=
  onUsb s
    (if s.conn = false then .next (s.result 0#32)
     else if min (s.clen .usb .tx) mpsBulk = 0 ∧ s.pef = false then .next (s.result 0#32)
     else sendPacket (min (s.clen .usb .tx) mpsBulk) s)

end Sys2Proof.Machine
end

