-- ==== Sys2Proof/Machine/Facade.lean ====
section
/-! DEFINITION. The byte-stream commands of the APP port (43_facade.md R191 to R202) and the APP agent's internal
steps: the `SEND` micro-step and the `POLL` end step. -/

namespace Sys2Proof.Machine

/-- The façade commands are legal on the APP port only (30_encoding.md R101). -/
def onApp (s : State) (k : Result State) : Result State := onPort (s.issuer == .app) s k

/-- `INIT` (R191, R192): the draw says whether peripheral registration succeeds. -/
def execInit (s : State) : Result State :=
  onApp s (if s.initDone then .next (s.refuse .reinit)
    else .next ({ s.afterDraw with initDone := s.drawn }.result (bitWord (!s.drawn))))

/-- `CONNECTED` (R193). -/
def execConnected (s : State) : Result State := onApp s (.next (s.result (bitWord s.connApp)))

/-- `AVAILABLE` (R194). -/
def execAvailable (s : State) : Result State := onApp s (.next (s.result (countWord (s.occOf .app .rx))))

/-- `RECV_BYTE` (R195): `RB_POP` of RX. -/
def execRecvByte (s : State) : Result State :=
  onApp s (andThen (popByte .rx s) fun (b, t) => .next (t.result (popWord b)))

/-- `SEND_BYTE` (R196): `RB_PUSH` of TX. -/
def execSendByte (b : Byte) (s : State) : Result State :=
  onApp s (andThen (pushByte .tx b s) fun (acc, t) => .next (t.result (bitWord acc)))

/-- `SEND`, first step (R197). -/
def execSend (bytes : List Byte) (s : State) : Result State :=
  onApp s (if bytes = [] then .next (s.result 0#32) else .next { s with appOp := .send bytes 0 0 })

/-- `POLL`, first step (R200). -/
def execPoll (s : State) : Result State := onApp s (.next { s with appOp := .poll })

/-- `SET_RX_CALLBACK` (R202). -/
def execSetRxCallback (en : Bool) (s : State) : Result State :=
  onApp s (.next ({ s with rxcbEn := en }.result 0#32))

/-- `SEND`, one micro-step with `APP.op = send(bytes, i, a)` (R198); it completes at the last byte (R199). -/
def sendStep (bytes : List Byte) (i a : Nat) (s : State) : Result State :=
  match bytes[i]? with
  | none => .next ({ s with appOp := .idle }.result (countWord a))
  | some b =>
    andThen (pushByte .tx b s) fun (acc, t) =>
      if i + 1 = bytes.length then .next ({ t with appOp := .idle }.result (countWord (a + acc.toNat)))
      else .next { t with appOp := .send bytes (i + 1) (a + acc.toNat) }

/-- `POLL` end step (R201): enabled when the USB agent is idle, else the APP agent holds. -/
def pollEnd (s : State) : Result State :=
  if s.usbOp = .idle then .next ({ s with appOp := .idle }.result 0#32) else .next s

end Sys2Proof.Machine
end

