-- ==== Sys2Proof/Machine/RingBuffer.lean ====
section
/-! DEFINITION. The ring-buffer commands (40_ring_buffer.md R112 to R118), one meaning for each FIFO, over shared
operations. The domain `d` of a query is the port that issued it (R110). -/

namespace Sys2Proof.Machine

/-- `RB_PUSH` (R112), legal from the producer. -/
def rbPush (f : Sel) (b : Byte) (s : State) : Result State :=
  onPort (s.issuer == producer f) s (andThen (pushByte f b s) fun (acc, t) => .next (t.result (bitWord acc)))

/-- `RB_POP` (R113), legal from the consumer. -/
def rbPop (f : Sel) (s : State) : Result State :=
  onPort (s.issuer == consumer f) s (andThen (popByte f s) fun (b, t) => .next (t.result (popWord b)))

def execRbPushRx (b : Byte) (s : State) : Result State := rbPush .rx b s

def execRbPushTx (b : Byte) (s : State) : Result State := rbPush .tx b s

def execRbPopRx (s : State) : Result State := rbPop .rx s

def execRbPopTx (s : State) : Result State := rbPop .tx s

/-- `RB_LEN` (R114). -/
def execRbLenRx (s : State) : Result State := .next (s.result (countWord (s.occOf s.issuer .rx)))

def execRbLenTx (s : State) : Result State := .next (s.result (countWord (s.occOf s.issuer .tx)))

/-- `RB_IS_FULL` (R115). -/
def execRbIsFullRx (s : State) : Result State := .next (s.result (bitWord (s.full s.issuer .rx)))

def execRbIsFullTx (s : State) : Result State := .next (s.result (bitWord (s.full s.issuer .tx)))

/-- `RB_IS_EMPTY` (R116). -/
def execRbIsEmptyRx (s : State) : Result State := .next (s.result (bitWord (s.isEmpty s.issuer .rx)))

def execRbIsEmptyTx (s : State) : Result State := .next (s.result (bitWord (s.isEmpty s.issuer .tx)))

/-- `RB_CONTIG_SPACE` (R117). -/
def execRbContigSpaceRx (s : State) : Result State := .next (s.result (countWord (s.cspace s.issuer .rx)))

def execRbContigSpaceTx (s : State) : Result State := .next (s.result (countWord (s.cspace s.issuer .tx)))

/-- `RB_CONTIG_LEN` (R118). -/
def execRbContigLenRx (s : State) : Result State := .next (s.result (countWord (s.clen s.issuer .rx)))

def execRbContigLenTx (s : State) : Result State := .next (s.result (countWord (s.clen s.issuer .tx)))

end Sys2Proof.Machine
end

