-- ==== Sys2Proof/Machine/Dispatch.lean ====
section
/-! DEFINITION. One arm per instruction, each one call of its meaning. -/

namespace Sys2Proof.Machine

def exec (i : Instr) (s : State) : Host.Outcome State Fault Refusal :=
  match i with
  | .rbPushRx b => Sys2Proof.Machine.execRbPushRx b s
  | .rbPushTx b => Sys2Proof.Machine.execRbPushTx b s
  | .rbPopRx => Sys2Proof.Machine.execRbPopRx s
  | .rbPopTx => Sys2Proof.Machine.execRbPopTx s
  | .rbLenRx => Sys2Proof.Machine.execRbLenRx s
  | .rbLenTx => Sys2Proof.Machine.execRbLenTx s
  | .rbIsFullRx => Sys2Proof.Machine.execRbIsFullRx s
  | .rbIsFullTx => Sys2Proof.Machine.execRbIsFullTx s
  | .rbIsEmptyRx => Sys2Proof.Machine.execRbIsEmptyRx s
  | .rbIsEmptyTx => Sys2Proof.Machine.execRbIsEmptyTx s
  | .rbContigSpaceRx => Sys2Proof.Machine.execRbContigSpaceRx s
  | .rbContigSpaceTx => Sys2Proof.Machine.execRbContigSpaceTx s
  | .rbContigLenRx => Sys2Proof.Machine.execRbContigLenRx s
  | .rbContigLenTx => Sys2Proof.Machine.execRbContigLenTx s
  | .init => Sys2Proof.Machine.execInit s
  | .connected => Sys2Proof.Machine.execConnected s
  | .available => Sys2Proof.Machine.execAvailable s
  | .recvByte => Sys2Proof.Machine.execRecvByte s
  | .sendByte b => Sys2Proof.Machine.execSendByte b s
  | .send bytes => Sys2Proof.Machine.execSend bytes s
  | .poll => Sys2Proof.Machine.execPoll s
  | .setRxCallback en => Sys2Proof.Machine.execSetRxCallback en s
  | .evReset => Sys2Proof.Machine.execEvReset s
  | .evSetup packet stage => Sys2Proof.Machine.execEvSetup packet stage s
  | .evBulkOut bytes => Sys2Proof.Machine.execEvBulkOut bytes s
  | .evSof => Sys2Proof.Machine.execEvSof s
  | .evDataIn ep => Sys2Proof.Machine.execEvDataIn ep s
  | .setLineCoding dir wValue wIndex wLength => Sys2Proof.Machine.execSetLineCoding dir wValue wIndex wLength s
  | .getLineCoding dir wValue wIndex wLength => Sys2Proof.Machine.execGetLineCoding dir wValue wIndex wLength s
  | .setControlLineState dir wValue wIndex wLength => Sys2Proof.Machine.execSetControlLineState dir wValue wIndex wLength s
  | .classInterfaceUnsupported dir bRequest wValue wIndex wLength => Sys2Proof.Machine.execClassInterfaceUnsupported dir bRequest wValue wIndex wLength s
  | .notRouted packet => Sys2Proof.Machine.execNotRouted packet s

end Sys2Proof.Machine
end

