-- ==== Sys2Proof/Machine/Agents.lean ====
section
/-! DEFINITION. The steps of the agents (10_state.md R54 to R56, 40_ring_buffer.md R122 to R128): how a port's agent
takes a stream element or goes on with what is in flight, and what a synchroniser copies. -/

namespace Sys2Proof.Machine

/-- The agent that makes the next step: ENV's list first, then a free value (log 2). -/
def State.nextAgent (s : State) : Agent :=
  match s.sched with
  | a :: _ => a
  | [] => Config.freeAgent s.free

/-- The state once the next agent is chosen. -/
def State.afterSched (s : State) : State :=
  match s.sched with
  | _ :: rest => { s with sched := rest }
  | [] => { s with free := s.free + 1 }

/-- Run a stream element on the issuing port: an illegal one is refused with `RF_ENCODING` (30_encoding.md R98,
60_exceptions.md R228), a legal one is executed. -/
def runElem (e : StreamElem) (s : State) : Result State :=
  match decode (.cmd32 e) with
  | .error r => .next (s.refuse (.encoding r))
  | .ok i => exec i s

/-- The element is a USB event that the gating of 42_endpoint_events.md R160 holds back. -/
def gated (e : StreamElem) (s : State) : Bool :=
  match decode (.cmd32 e) with
  | .error _ => false
  | .ok i => isEvent i && !s.eventsOpen

/-- A step of the APP agent, which has set `issuer`. -/
def appStep (s : State) : Result State :=
  match s.appOp with
  | .send bytes i a => sendStep bytes i a s
  | .poll => pollEnd s
  | .idle =>
    match s.appIn.pending with
    | [] => .next s
    | e :: rest => runElem e { s with appIn := { taken := s.appIn.taken + 1, pending := rest } }

/-- A step of the USB agent, which has set `issuer`. -/
def usbStep (s : State) : Result State :=
  match s.usbOp with
  | .rx len i drop => rxStep len i drop s
  | .idle =>
    match s.usbIn.pending with
    | [] => .next s
    | e :: rest =>
      if gated e s then .next s
      else runElem e { s with usbIn := { taken := s.usbIn.taken + 1, pending := rest } }

/-- A SYNC step: `copy <- source` (R122 to R128). -/
def syncStep (c : Copy) (s : State) : State :=
  match c with
  | .rxPut => { s with rx := { s.rx with putCopy := s.rx.put } }
  | .rxGet => { s with rx := { s.rx with getCopy := s.rx.get } }
  | .txPut => { s with tx := { s.tx with putCopy := s.tx.put } }
  | .txGet => { s with tx := { s.tx with getCopy := s.tx.get } }
  | .conn => { s with connApp := s.conn }
  | .rxcb => { s with rxcbUsb := s.rxcbEn }

/-- One step of an agent (R55). -/
def agentStep (a : Agent) (s : State) : Result State :=
  match a with
  | .app => appStep { s with issuer := .app }
  | .usb => usbStep { s with issuer := .usb }
  | .sync c => .next (syncStep c s)

/-- A step of the machine: none for an ill-formed configuration (00_scope.md R9, R10) or after a refusal (10_state.md
R59); else a step of the agent that is next. -/
def machineStep (s : State) : Result State :=
  if s.cfg.legal = false then .refused .badConfig
  else if s.refusedBit then .refused .afterRefusal
  else agentStep s.nextAgent s.afterSched

/-- The port a table row's element is placed on: the APP port if it may issue it, else the USB port. -/
def homePort (e : StreamElem) : Domain :=
  match decode (.cmd32 e) with
  | .error _ => .app
  | .ok i => if portAllows i .app then .app else .usb

/-- The element is an event, so its delivery needs the gates of 42_endpoint_events.md R160. -/
def needsGate (e : StreamElem) : Bool :=
  match decode (.cmd32 e) with
  | .error _ => false
  | .ok i => isEvent i

/-- The state in which the next step takes `e`: it is the first pending element of its port, that port's agent is
scheduled and idle, no refusal stands, and an event's gates are open. -/
def placed (e : StreamElem) (s : State) : State :=
  match homePort e with
  | .app =>
    { s with refusal := none, sched := .app :: s.sched, appOp := .idle,
             appIn := { s.appIn with pending := e :: s.appIn.pending } }
  | .usb =>
    { s with refusal := none, sched := .usb :: s.sched, usbOp := .idle,
             usbIn := { s.usbIn with pending := e :: s.usbIn.pending },
             initDone := s.initDone || needsGate e,
             appOp := if needsGate e && s.cfg.deliveryMode == .polled then .poll else s.appOp }

end Sys2Proof.Machine
end

