-- ==== Sys2Proof/Machine/Step.lean ====
section
/-! DEFINITION. The step function, and the placing of one instruction so that the next step runs it. -/

namespace Sys2Proof.Machine

/-- One step of the block: one atomic step of one agent (10_state.md R54, R55). -/
def step (s : State) : Host.Outcome State Fault Refusal := machineStep s

/-- The state with the element of an opcode-table row placed on a port, so that the next step takes it (log 4). -/
def State.withFetchWord (s : State) (nbits w : Nat) : State := placed (tableElem nbits w) s

end Sys2Proof.Machine
end

