-- ==== Sys2Proof/Safety.lean ====
section
/-! DEFINITION. The terms in which claims are made: the bytes a FIFO holds, the invariant of the block, agreement of
two states up to storage that is not valid, the steps of one chosen agent, the end of a run, and fair schedules. -/

namespace Sys2Proof.Safety

open Sys2Proof.Machine

/-- The valid bytes of a FIFO, oldest first (10_state.md R37). -/
def contents (c : Config) (f : Sel) (x : Fifo) : List Byte :=
  (List.range (c.occ x.put x.get)).map fun k => Memory.read x.data (c.ix f (x.get + k))

/-- What holds of a FIFO at every state a run reaches: counters of `CTR_W` bits, an occupancy of at most `N_F` (R32),
each copy trailing its source (20_memory.md R72), and storage in canonical form inside the index space. -/
structure FifoInv (c : Config) (f : Sel) (x : Fifo) : Prop where
  put_lt : x.put < 2 ^ c.ctrW
  get_lt : x.get < 2 ^ c.ctrW
  putCopy_lt : x.putCopy < 2 ^ c.ctrW
  getCopy_lt : x.getCopy < 2 ^ c.ctrW
  bounded : c.occ x.put x.getCopy ≤ c.cap f
  get_trails : c.occ x.put x.getCopy = c.occ x.put x.get + c.occ x.get x.getCopy
  put_trails : c.occ x.put x.get = c.occ x.putCopy x.get + c.occ x.put x.putCopy
  canonical : Memory.wf x.data = true
  inside : ∀ cell ∈ x.data, cell.1 < c.cap f

/-- The in-flight state of the APP agent is one that R48 and R197 to R198 define. -/
def appOpOk : AppOp → Prop
  | .idle => True
  | .poll => True
  | .send bytes i a => i < bytes.length ∧ a ≤ i ∧ bytes.length < 65536

/-- The in-flight state of the USB agent is one that R49 and R165 to R167 define. -/
def usbOpOk (pktlen : Nat) : UsbOp → Prop
  | .idle => True
  | .rx len i _ => len = pktlen ∧ i ≤ len

/-- The packets of the trace fit their endpoints (42_endpoint_events.md R177). -/
def outputOk : Output → Prop
  | .appRes _ => True
  | .usbRes _ => True
  | .packetIn ep bytes => ep = epBulkIn ∧ bytes.length ≤ mpsBulk
  | .notify ep bytes => ep = epIntIn ∧ bytes.length = ssLen
  | .ctrl _ _ => True
  | .rxCallback bytes => bytes.length ≤ mpsBulk

/-- The invariant of the block. -/
structure BlockInv (s : State) : Prop where
  legal : s.cfg.legal = true
  rx : FifoInv s.cfg .rx s.rx
  tx : FifoInv s.cfg .tx s.tx
  pkt_canonical : Memory.wf s.pkt = true
  pkt_inside : ∀ cell ∈ s.pkt, cell.1 < mpsBulk
  pktlen_le : s.pktlen ≤ mpsBulk
  appOp : appOpOk s.appOp
  usbOp : usbOpOk s.pktlen s.usbOp
  outputs : ∀ o ∈ s.out, outputOk o

/-- Two states that differ at most in stale storage: bytes of RX and TX that are not valid (R37) and bytes of the
packet buffer past the packet (R53). -/
structure SameButStale (s t : State) : Prop where
  rest : t = { s with rx := { s.rx with data := t.rx.data }, tx := { s.tx with data := t.tx.data }, pkt := t.pkt }
  rx : contents s.cfg .rx t.rx = contents s.cfg .rx s.rx
  tx : contents s.cfg .tx t.tx = contents s.cfg .tx s.tx
  pkt : ∀ i, i < s.pktlen → Memory.read t.pkt i = Memory.read s.pkt i

/-- What an instruction may write (10_state.md R35, R38, R40 to R45, R52): every state element outside the listed ones
is the same in `t`. Every instruction may also emit outputs and, when refused, set the mark. -/
def writesOnly (i : Instr) (s t : State) : Prop :=
  match i with
  | .rbPushRx _ =>
    t = { s with rx := { s.rx with data := t.rx.data, put := t.rx.put }, out := t.out, refusal := t.refusal }
  | .rbPushTx _ | .sendByte _ =>
    t = { s with tx := { s.tx with data := t.tx.data, put := t.tx.put }, out := t.out, refusal := t.refusal }
  | .rbPopRx | .recvByte => t = { s with rx := { s.rx with get := t.rx.get }, out := t.out, refusal := t.refusal }
  | .rbPopTx => t = { s with tx := { s.tx with get := t.tx.get }, out := t.out, refusal := t.refusal }
  | .rbLenRx | .rbLenTx | .rbIsFullRx | .rbIsFullTx | .rbIsEmptyRx | .rbIsEmptyTx
  | .rbContigSpaceRx | .rbContigSpaceTx | .rbContigLenRx | .rbContigLenTx
  | .connected | .available | .evDataIn _ | .setLineCoding _ _ _ _ | .getLineCoding _ _ _ _
  | .classInterfaceUnsupported _ _ _ _ _ | .notRouted _ => t = { s with out := t.out, refusal := t.refusal }
  | .init =>
    t = { s with initDone := t.initDone, out := t.out, refusal := t.refusal, draws := t.draws, free := t.free }
  | .send _ | .poll => t = { s with appOp := t.appOp, out := t.out, refusal := t.refusal }
  | .setRxCallback _ => t = { s with rxcbEn := t.rxcbEn, out := t.out, refusal := t.refusal }
  | .evReset => t = { s with conn := t.conn, out := t.out, refusal := t.refusal }
  | .evSetup _ _ | .setControlLineState _ _ _ _ =>
    t = { s with conn := t.conn, out := t.out, refusal := t.refusal, draws := t.draws, free := t.free }
  | .evBulkOut _ =>
    t = { s with rx := { s.rx with data := t.rx.data, put := t.rx.put }, pkt := t.pkt, pktlen := t.pktlen,
                 usbOp := t.usbOp, out := t.out, refusal := t.refusal }
  | .evSof =>
    t = { s with tx := { s.tx with get := t.tx.get }, pef := t.pef, out := t.out, refusal := t.refusal,
                 draws := t.draws, free := t.free }

/-- What a query answers: one output, a result word with the property `v` on the port that asked, and nothing else
changes. -/
def answers (i : Instr) (s : State) (v : Word → Prop) : Prop :=
  ∃ w, v w ∧ exec i s = .next { s with
    out := s.out ++ [match s.issuer with | .app => Output.appRes w | .usb => Output.usbRes w] }

/-- The step in which ENV lets agent `a` go next. -/
def turn (a : Agent) (s : State) : Result State := step { s with sched := [a] }

/-- `n` steps of agent `a` in a row, none of another agent between. -/
def turns (a : Agent) : Nat → State → Result State
  | 0, s => .next s
  | n + 1, s => andThen (turn a s) (turns a n)

/-- The steps of a list of agents, in that order. -/
def runs : List Agent → State → Result State
  | [], s => .next s
  | a :: agents, s => andThen (turn a s) (runs agents)

/-- The value a SYNC step reads (10_state.md R38); a flag is 0 or 1. -/
def sourceOf (c : Copy) (s : State) : Nat :=
  match c with
  | .rxPut => s.rx.put
  | .rxGet => s.rx.get
  | .txPut => s.tx.put
  | .txGet => s.tx.get
  | .conn => s.conn.toNat
  | .rxcb => s.rxcbEn.toNat

/-- The copy a SYNC step writes (R38). -/
def copyOf (c : Copy) (s : State) : Nat :=
  match c with
  | .rxPut => s.rx.putCopy
  | .rxGet => s.rx.getCopy
  | .txPut => s.tx.putCopy
  | .txGet => s.tx.getCopy
  | .conn => s.connApp.toNat
  | .rxcb => s.rxcbUsb.toNat

/-- Every copy equals its source. -/
def Synced (s : State) : Prop := ∀ c, copyOf c s = sourceOf c s

/-- The six SYNC steps of the eager-sync schedule (40_ring_buffer.md R129). -/
def syncAll (s : State) : State :=
  syncStep .rxcb (syncStep .conn (syncStep .txGet (syncStep .txPut (syncStep .rxGet (syncStep .rxPut s)))))

/-- A run has ended (10_state.md R58). -/
def runEnded (s : State) : Prop :=
  s.appIn.pending = [] ∧ s.appOp = .idle ∧ s.usbIn.pending = [] ∧ s.usbOp = .idle ∧ Synced s

/-- A run has ended well: the refusal mark is 0 (R58). -/
def endedWell (s : State) : Prop := runEnded s ∧ s.refusedBit = false

/-- A schedule that is weakly fair to every SYNC agent (20_memory.md R82). -/
def FairSchedule (schedule : Nat → Agent) : Prop := ∀ c n, ∃ m, n ≤ m ∧ schedule m = .sync c

/-- An infinite run under a schedule. -/
def RunsUnder (schedule : Nat → Agent) (run : Nat → State) : Prop :=
  ∀ n, turn (schedule n) (run n) = .next (run (n + 1))

end Sys2Proof.Safety
end

