-- ==== Sys2Proof/Certificates/Slice0/Obligations.lean ====
section
/-! DEFINITION. The statements for the provers. Each docstring names the rules of spec/ it formalises; a clause that
rests on the model's own choice names its log entry. -/

open Sys2Proof
open Sys2Proof.Machine
open Sys2Proof.Safety

/-! Encoding. -/

/-- 30_encoding.md R86, R88, R90 to R92, R94, R95: no bit of an encoding is dropped. -/
def Obligations.DecodeOfEncodeGivesTheInstruction : Prop :=
  ∀ i : Instr, i.wf = true → decode (encode i) = .ok i

/-- 30_encoding.md R89, R90, R98: the decoder accepts only what the encoder writes, so no reserved bit is ignored and
no payload length is tolerated; what it accepts is well formed. -/
def Obligations.AcceptedElementIsItsEncoding : Prop :=
  ∀ (e : StreamElem) (i : Instr), decode (.cmd32 e) = .ok i → i.wf = true ∧ encode i = .cmd32 e

/-- 30_encoding.md R98 item 1 and R99. That the reason is `ENC_OPCODE` for an element that meets other items of R98's
list as well is the model's choice (log 14). -/
def Obligations.ReservedOpcodesAreIllegal : Prop :=
  ∀ e : StreamElem,
    (e.word.toNat / 2 ^ 24 = 0 ∨ (0x08 ≤ e.word.toNat / 2 ^ 24 ∧ e.word.toNat / 2 ^ 24 ≤ 0x0F) ∨
      (0x18 ≤ e.word.toNat / 2 ^ 24 ∧ e.word.toNat / 2 ^ 24 ≤ 0x1F) ∨ 0x25 ≤ e.word.toNat / 2 ^ 24) →
    decode (.cmd32 e) = .error .opcode

/-- 30_encoding.md R98, items 2 to 6, for every known opcode, the payload rule of R90 for each of its four lines; that an
element with several reasons gets the first of R98's list is the model's choice (log 14). -/
def Obligations.IllegalElementGivesTheFirstReason : Prop :=
  ∀ (e : StreamElem) (op : Opcode), opcodeOf (opField e.word) = some op →
    (e.word.toNat / 2 ^ 16 % 2 ^ 7 ≠ 0 → decode (.cmd32 e) = .error .reserved) ∧
    (e.word.toNat / 2 ^ 16 % 2 ^ 7 = 0 → e.word.getLsbD 23 = true → 0x08 ≤ e.word.toNat / 2 ^ 24 →
      decode (.cmd32 e) = .error .sel) ∧
    (e.word.toNat / 2 ^ 16 % 2 ^ 7 = 0 → (e.word.getLsbD 23 = true → e.word.toNat / 2 ^ 24 < 0x08) →
      2 ^ op.immBits ≤ e.word.toNat % 2 ^ 16 → decode (.cmd32 e) = .error .imm) ∧
    (e.word.toNat / 2 ^ 16 = 0x2200 → 64 < e.word.toNat % 2 ^ 16 → decode (.cmd32 e) = .error .bulkLen) ∧
    (e.word.toNat / 2 ^ 16 = 0x2200 → e.word.toNat % 2 ^ 16 ≤ 64 → e.payload.length ≠ e.word.toNat % 2 ^ 16 →
      decode (.cmd32 e) = .error .payload) ∧
    (e.word.toNat / 2 ^ 16 = 0x1500 → e.payload.length ≠ e.word.toNat % 2 ^ 16 →
      decode (.cmd32 e) = .error .payload) ∧
    (e.word = 0x21000000#32 → (∀ p stage, splitSetup e.payload = some (p, stage) → stage.length ≠ p.stageLen) →
      decode (.cmd32 e) = .error .payload) ∧
    (e.word.toNat / 2 ^ 16 % 2 ^ 7 = 0 → (e.word.getLsbD 23 = true → e.word.toNat / 2 ^ 24 < 0x08) →
      e.word.toNat % 2 ^ 16 < 2 ^ op.immBits → op ∉ [Opcode.send, .evBulkOut, .evSetup] → e.payload ≠ [] →
      decode (.cmd32 e) = .error .payload)

/-- Words of the spec's vectors V-DEC1 to V-DEC8 and of R91 (95_test_vectors.md 2.1), one of each family. -/
def Obligations.WordsOfTheSpecDecode : Prop :=
  decode (.cmd32 { word := 0x01000041#32, payload := [] }) = .ok (.rbPushRx 0x41#8) ∧
  decode (.cmd32 { word := 0x01800041#32, payload := [] }) = .ok (.rbPushTx 0x41#8) ∧
  decode (.cmd32 { word := 0x07800000#32, payload := [] }) = .ok .rbContigLenTx ∧
  decode (.cmd32 { word := 0x15000002#32, payload := [0x68#8, 0x69#8] }) = .ok (.send [0x68#8, 0x69#8]) ∧
  decode (.cmd32 { word := 0x17000001#32, payload := [] }) = .ok (.setRxCallback true) ∧
  decode (.cmd32 { word := 0x24000083#32, payload := [] }) = .ok (.evDataIn 0x83#8) ∧
  decode (.setup64 [0x21#8, 0x22#8, 0x03#8, 0x00#8, 0x00#8, 0x00#8, 0x00#8, 0x00#8]) =
    .ok (.setControlLineState false 0x0003#16 0x0000#16 0x0000#16)

/-- 30_encoding.md R94, R95, R100: every setup packet is one control request. -/
def Obligations.EverySetupPacketIsOneRequest : Prop :=
  ∀ p : SetupPacket,
    (p.bmRequestType &&& 0x7F#8 ≠ 0x21#8 → decodeSetup p = .notRouted p) ∧
    (p.bmRequestType &&& 0x7F#8 = 0x21#8 →
      decodeSetup p =
        if p.bRequest = 0x20#8 then
          .setLineCoding (p.bmRequestType.getLsbD 7) p.wValue p.wIndex p.wLength
        else if p.bRequest = 0x21#8 then
          .getLineCoding (p.bmRequestType.getLsbD 7) p.wValue p.wIndex p.wLength
        else if p.bRequest = 0x22#8 then
          .setControlLineState (p.bmRequestType.getLsbD 7) p.wValue p.wIndex p.wLength
        else .classInterfaceUnsupported (p.bmRequestType.getLsbD 7) p.bRequest p.wValue p.wIndex p.wLength)

/-! Configuration and reset. -/

/-- 00_scope.md R9, R10: the configuration check, in terms of powers of two. That a step of a state with an illegal
configuration answers the refusal `badConfig` is the model's choice (log 7). -/
def Obligations.ConfigurationIsRefusedUnlessLegal : Prop :=
  ∀ c : Config,
    (((∃ k, c.nRx = 2 ^ k) ∧ (∃ k, c.nTx = 2 ^ k) ∧ 2 * c.nRx ≤ 2 ^ c.ctrW ∧ 2 * c.nTx ≤ 2 ^ c.ctrW) →
      State.build c = .ok (State.por c)) ∧
    (¬((∃ k, c.nRx = 2 ^ k) ∧ (∃ k, c.nTx = 2 ^ k) ∧ 2 * c.nRx ≤ 2 ^ c.ctrW ∧ 2 * c.nTx ≤ 2 ^ c.ctrW) →
      State.build c = .error .config ∧ ∀ s : State, s.cfg = c → step s = .refused .badConfig)

/-- 70_reset_and_hazards.md R250, for every configuration. Storage contents are unspecified, so nothing is said of
them. -/
def Obligations.PowerOnResetValues : Prop :=
  ∀ c : Config,
    let s := State.por c
    (s.rx.put = 0 ∧ s.rx.get = 0 ∧ s.rx.putCopy = 0 ∧ s.rx.getCopy = 0) ∧
    (s.tx.put = 0 ∧ s.tx.get = 0 ∧ s.tx.putCopy = 0 ∧ s.tx.getCopy = 0) ∧
    contents c .rx s.rx = [] ∧ contents c .tx s.tx = [] ∧
    s.conn = false ∧ s.connApp = false ∧ s.pef = false ∧ s.initDone = false ∧ s.rxcbEn = false ∧ s.rxcbUsb = false ∧
    s.appOp = .idle ∧ s.usbOp = .idle ∧ s.pktlen = 0 ∧ s.refusedBit = false ∧ s.out = [] ∧
    s.readLC.bytes = [0x00#8, 0xC2#8, 0x01#8, 0x00#8, 0x00#8, 0x00#8, 0x08#8]

/-- The invariant holds at power-on reset of every legal configuration, `State.reset` among them. -/
def Obligations.ResetMeetsTheInvariant : Prop :=
  (∀ c : Config, c.legal = true → BlockInv (State.por c)) ∧ BlockInv State.reset

/-! The step. -/

/-- The APP port runs the command its next element decodes to (10_state.md R48, R54; 30_encoding.md R96). -/
def Obligations.AppPortRunsTheDecodedCommand : Prop :=
  ∀ (s : State) (agents : List Agent) (e : StreamElem) (rest : List StreamElem) (i : Instr),
    s.cfg.legal = true → s.refusedBit = false → s.sched = .app :: agents → s.appOp = .idle →
    s.appIn.pending = e :: rest → decode (.cmd32 e) = .ok i →
    step s = exec i { s with
      sched := agents, issuer := .app, appIn := { taken := s.appIn.taken + 1, pending := rest } }

/-- 42_endpoint_events.md R160: the USB port runs the element it decodes when the USB agent is idle and, for an event,
initialisation has happened and the delivery mode lets it in. -/
def Obligations.UsbPortRunsTheDecodedElement : Prop :=
  ∀ (s : State) (agents : List Agent) (e : StreamElem) (rest : List StreamElem) (i : Instr),
    s.cfg.legal = true → s.refusedBit = false → s.sched = .usb :: agents → s.usbOp = .idle →
    s.usbIn.pending = e :: rest → decode (.cmd32 e) = .ok i →
    (isEvent i = true →
      s.initDone = true ∧ (s.cfg.deliveryMode = .irq ∨ (s.cfg.deliveryMode = .polled ∧ s.appOp = .poll))) →
    step s = exec i { s with
      sched := agents, issuer := .usb, usbIn := { taken := s.usbIn.taken + 1, pending := rest } }

/-- 42_endpoint_events.md R160: the USB agent takes a new event only when initialisation has happened and the delivery
mode lets it in; else it holds, the event still pending. The schedule entry is used up (log 16). -/
def Obligations.ClosedGateHoldsTheEvent : Prop :=
  ∀ (s : State) (agents : List Agent) (e : StreamElem) (rest : List StreamElem) (i : Instr),
    s.cfg.legal = true → s.refusedBit = false → s.sched = .usb :: agents → s.usbOp = .idle →
    s.usbIn.pending = e :: rest → decode (.cmd32 e) = .ok i →
    i ∈ [Instr.evReset, .evSof] ∨ (∃ p stage, i = .evSetup p stage) ∨ (∃ b, i = .evBulkOut b) ∨ (∃ ep, i = .evDataIn ep) →
    (s.initDone = false ∨ (s.cfg.deliveryMode = .polled ∧ s.appOp ≠ .poll)) →
    step s = .next { s with sched := agents, issuer := .usb }

/-- 10_state.md R56: the cases in which an agent has no step are holds, and a SYNC step of a copy that equals its
source changes nothing. The schedule entry is used up (log 16). -/
def Obligations.AgentsWithoutAStepHold : Prop :=
  ∀ (s : State) (agents : List Agent), s.cfg.legal = true → s.refusedBit = false →
    (s.sched = .app :: agents → s.appIn.pending = [] → s.appOp = .idle →
      step s = .next { s with sched := agents, issuer := .app }) ∧
    (s.sched = .usb :: agents → s.usbIn.pending = [] → s.usbOp = .idle →
      step s = .next { s with sched := agents, issuer := .usb }) ∧
    (∀ c, s.sched = .sync c :: agents → copyOf c s = sourceOf c s → step s = .next { s with sched := agents })

/-- 30_encoding.md R98 and 60_exceptions.md R223: an illegal element sets the refusal mark and nothing else of the
block; the port's stream has moved past it (log 6). The USB port's clause has no gate premise: that an illegal element is
refused whether or not the gates for events are open is the model's reading (log 15). -/
def Obligations.IllegalElementIsRefused : Prop :=
  ∀ (s : State) (agents : List Agent) (e : StreamElem) (rest : List StreamElem) (r : EncReason),
    s.cfg.legal = true → s.refusedBit = false → decode (.cmd32 e) = .error r →
    (s.sched = .app :: agents → s.appOp = .idle → s.appIn.pending = e :: rest →
      step s = .next { s with
        sched := agents, issuer := .app, appIn := { taken := s.appIn.taken + 1, pending := rest },
        refusal := some { port := .app, reason := .encoding r } }) ∧
    (s.sched = .usb :: agents → s.usbOp = .idle → s.usbIn.pending = e :: rest →
      step s = .next { s with
        sched := agents, issuer := .usb, usbIn := { taken := s.usbIn.taken + 1, pending := rest },
        refusal := some { port := .usb, reason := .encoding r } })

/-- 30_encoding.md R101, the whole table, with 60_exceptions.md R223: a command on a port it forbids is refused with
`RF_DOMAIN` and has no other effect; one on a port it allows is refused only if it is `INIT` after a success. A
control request is part of `EV_SETUP` (log 13). -/
def Obligations.PortLegalityTable : Prop :=
  ∀ (i : Instr) (s : State),
    let allowed : Bool := match i with
      | .rbPushRx _ | .rbPopTx => s.issuer == .usb
      | .rbPushTx _ | .rbPopRx => s.issuer == .app
      | .rbLenRx | .rbLenTx | .rbIsFullRx | .rbIsFullTx | .rbIsEmptyRx | .rbIsEmptyTx
      | .rbContigSpaceRx | .rbContigSpaceTx | .rbContigLenRx | .rbContigLenTx => true
      | .init | .connected | .available | .recvByte | .sendByte _ | .send _ | .poll | .setRxCallback _ =>
        s.issuer == .app
      | .evReset | .evSetup _ _ | .evBulkOut _ | .evSof | .evDataIn _ => s.issuer == .usb
      | .setLineCoding _ _ _ _ | .getLineCoding _ _ _ _ | .setControlLineState _ _ _ _
      | .classInterfaceUnsupported _ _ _ _ _ | .notRouted _ => s.issuer == .usb
    (allowed = false → exec i s = .next { s with refusal := some { port := s.issuer, reason := .domain } }) ∧
    (allowed = true → ∀ t, exec i s = .next t → t.refusal = s.refusal ∨ (i = .init ∧ s.initDone = true))

/-- 10_state.md R59: once the refusal mark is 1 the run has no meaning. That the step then answers a refusal of its
own name, for every agent, is the model's reading (log 6). -/
def Obligations.NoStepAfterARefusal : Prop :=
  ∀ s : State, s.cfg.legal = true → s.refusal ≠ none → step s = .refused .afterRefusal

/-- 40_ring_buffer.md R123 to R128. -/
def Obligations.SynchroniserStepsCopy : Prop :=
  ∀ s : State, s.cfg.legal = true → s.refusedBit = false →
    turn (.sync .rxPut) s = .next { s with sched := [], rx := { s.rx with putCopy := s.rx.put } } ∧
    turn (.sync .rxGet) s = .next { s with sched := [], rx := { s.rx with getCopy := s.rx.get } } ∧
    turn (.sync .txPut) s = .next { s with sched := [], tx := { s.tx with putCopy := s.tx.put } } ∧
    turn (.sync .txGet) s = .next { s with sched := [], tx := { s.tx with getCopy := s.tx.get } } ∧
    turn (.sync .conn) s = .next { s with sched := [], connApp := s.conn } ∧
    turn (.sync .rxcb) s = .next { s with sched := [], rxcbUsb := s.rxcbEn }

/-- 40_ring_buffer.md R129: after the six SYNC steps of the eager schedule every copy equals its source and every view
is the true pair of counters, and no source has changed. -/
def Obligations.EagerSyncMakesEveryViewTrue : Prop :=
  ∀ s : State, s.cfg.legal = true → s.refusedBit = false → ∃ t,
    andThen (turn (.sync .rxPut) s) (fun s1 => andThen (turn (.sync .rxGet) s1) fun s2 =>
      andThen (turn (.sync .txPut) s2) fun s3 => andThen (turn (.sync .txGet) s3) fun s4 =>
      andThen (turn (.sync .conn) s4) fun s5 => turn (.sync .rxcb) s5) = .next t ∧
    Synced t ∧ (∀ c, sourceOf c t = sourceOf c s) ∧
    (∀ d f, t.viewPut d f = (t.fifo f).put ∧ t.viewGet d f = (t.fifo f).get) ∧ t.out = s.out

/-! Rules about every step. -/

/-- 10_state.md R32, 20_memory.md R72, 42_endpoint_events.md R177: the invariant is kept by every step. -/
def Obligations.StepKeepsTheInvariant : Prop :=
  ∀ s t : State, BlockInv s → step s = .next t → BlockInv t

/-- 60_exceptions.md R220, 20_memory.md R65: no step from a state of the invariant faults, so no access leaves the
storage; and every step gives a next state unless a refusal stands. An illegal or forbidden command gives one too: the
state with the refusal mark set (the model's reading of a refusal, log 6). -/
def Obligations.InvariantStatesNeverFault : Prop :=
  ∀ s : State, BlockInv s → s.refusedBit = false → ∃ t, step s = .next t

/-- 10_state.md R51, R57: no step writes the configuration or takes back an output. No step clears the refusal mark
(R59), because after it no agent has a step at all: that stronger clause is the model's choice (log 6). -/
def Obligations.StepKeepsConfigurationAndTrace : Prop :=
  ∀ s t : State, step s = .next t → t.cfg = s.cfg ∧ s.out <+: t.out ∧ s.refusedBit = false

/-- 10_state.md R35. -/
def Obligations.ProducerAndConsumerWriteTheirOwnSide : Prop :=
  ∀ s t : State, step s = .next t →
    (s.nextAgent ≠ .usb → t.rx.put = s.rx.put ∧ t.rx.data = s.rx.data ∧ t.tx.get = s.tx.get) ∧
    (s.nextAgent ≠ .app → t.tx.put = s.tx.put ∧ t.tx.data = s.tx.data ∧ t.rx.get = s.rx.get)

/-- 10_state.md R38: only the SYNC step of a copy writes it, and it writes the source's value. -/
def Obligations.CopiesAreWrittenBySyncOnly : Prop :=
  ∀ (s t : State) (c : Copy), step s = .next t →
    (s.nextAgent = .sync c → copyOf c t = sourceOf c s) ∧ (s.nextAgent ≠ .sync c → copyOf c t = copyOf c s)

/-- 10_state.md R52, the "written by" column for the flags, the in-flight state and the packet buffer. -/
def Obligations.FlagsAreWrittenByTheirDomain : Prop :=
  ∀ s t : State, step s = .next t →
    (s.nextAgent ≠ .usb →
      t.conn = s.conn ∧ t.pef = s.pef ∧ t.usbOp = s.usbOp ∧ t.pkt = s.pkt ∧ t.pktlen = s.pktlen ∧ t.usbIn = s.usbIn) ∧
    (s.nextAgent ≠ .app →
      t.initDone = s.initDone ∧ t.rxcbEn = s.rxcbEn ∧ t.appOp = s.appOp ∧ t.appIn = s.appIn)

/-- 10_state.md R40, 41_control_requests.md R148: `CONN` changes only when the USB port takes `EV_RESET`, which clears
it, or a routed `SET_CONTROL_LINE_STATE`, which sets it from bit 0 of the request value. -/
def Obligations.ConnHasTwoWriters : Prop :=
  ∀ s t : State, step s = .next t → t.conn ≠ s.conn →
    s.nextAgent = .usb ∧ s.usbOp = .idle ∧ ∃ e rest i,
      s.usbIn.pending = e :: rest ∧ decode (.cmd32 e) = .ok i ∧
      ((i = .evReset ∧ t.conn = false) ∨
        ∃ p stage, i = .evSetup p stage ∧ p.bmRequestType &&& 0x7F#8 = 0x21#8 ∧ p.bRequest = 0x22#8 ∧
          t.conn = p.wValue.getLsbD 0)

/-- 10_state.md R42, 42_endpoint_events.md R172: `PEF` changes only when the USB port takes `EV_SOF` while connected
and bulk-IN takes the packet; it then says whether the packet was a full one. -/
def Obligations.PefIsWrittenByASentPacketOnly : Prop :=
  ∀ s t : State, step s = .next t → t.pef ≠ s.pef →
    s.nextAgent = .usb ∧ s.usbOp = .idle ∧ s.conn = true ∧ (∃ e rest,
      s.usbIn.pending = e :: rest ∧ decode (.cmd32 e) = .ok .evSof) ∧
      ∃ bytes, t.out = s.out ++ [.packetIn 0x82#8 bytes, .usbRes 0#32] ∧ t.pef = decide (bytes.length = 64)

/-- 10_state.md R44: `INIT_DONE` is set by a successful `INIT` of the APP port and cleared by nothing. -/
def Obligations.InitDoneIsSetByInitAndKept : Prop :=
  ∀ s t : State, step s = .next t →
    (s.initDone = true → t.initDone = true) ∧
    (s.initDone = false → t.initDone = true →
      s.nextAgent = .app ∧ s.appOp = .idle ∧ (∃ e rest,
        s.appIn.pending = e :: rest ∧ decode (.cmd32 e) = .ok .init) ∧ t.out = s.out ++ [.appRes 0#32])

/-- 10_state.md R45: `RXCB_EN` changes only when the APP port takes `SET_RX_CALLBACK`. -/
def Obligations.CallbackFlagIsWrittenByItsCommand : Prop :=
  ∀ s t : State, step s = .next t → t.rxcbEn ≠ s.rxcbEn →
    s.nextAgent = .app ∧ s.appOp = .idle ∧ ∃ e rest,
      s.appIn.pending = e :: rest ∧ decode (.cmd32 e) = .ok (.setRxCallback t.rxcbEn)

/-- 20_memory.md R60, 10_state.md R37, 40_ring_buffer.md R121: a FIFO is a queue. In every step the valid bytes after
are the valid bytes before with bytes added behind, as many as `put` advanced, and bytes removed in front, as many
as `get` advanced; only the producer's step adds and only the consumer's removes. -/
def Obligations.FifoStepsAreQueueSteps : Prop :=
  ∀ s t : State, BlockInv s → step s = .next t → ∀ f, ∃ added : List Byte,
    added.length = s.cfg.occ (t.fifo f).put (s.fifo f).put ∧
    s.cfg.occ (t.fifo f).get (s.fifo f).get ≤ (contents s.cfg f (s.fifo f)).length ∧
    contents t.cfg f (t.fifo f) =
      (contents s.cfg f (s.fifo f) ++ added).drop (s.cfg.occ (t.fifo f).get (s.fifo f).get) ∧
    (added ≠ [] → s.nextAgent = (match producer f with | .app => Agent.app | .usb => Agent.usb)) ∧
    (s.cfg.occ (t.fifo f).get (s.fifo f).get ≠ 0 →
      s.nextAgent = (match consumer f with | .app => Agent.app | .usb => Agent.usb))

/-- 10_state.md R37, R53: storage that is not valid is never seen. Two states of the invariant that differ only there
take steps to states that differ only there; their outputs are the same. So no claim about outputs rests on what
unwritten storage reads as (log 8). -/
def Obligations.StaleStorageIsNeverSeen : Prop :=
  ∀ s t s' : State, BlockInv s → BlockInv t → SameButStale s t → step s = .next s' →
    ∃ t', step t = .next t' ∧ SameButStale s' t'

/-- 20_memory.md R72, R76: a view never shows more valid bytes or more free space than there is, and a copy trails its
source by at most `N_F`. -/
def Obligations.ViewsNeverShowTooMuch : Prop :=
  ∀ s : State, BlockInv s → ∀ f,
    let x := s.fifo f
    s.cfg.occ x.putCopy x.get ≤ s.cfg.occ x.put x.get ∧
    s.cfg.cap f - s.cfg.occ x.put x.getCopy ≤ s.cfg.cap f - s.cfg.occ x.put x.get ∧
    s.cfg.occ x.put x.get ≤ s.cfg.cap f ∧
    s.cfg.occ x.put x.putCopy ≤ s.cfg.cap f ∧ s.cfg.occ x.get x.getCopy ≤ s.cfg.cap f

/-- 00_scope.md R13: occupancy is the unsigned difference of two counters. -/
def Obligations.OccupancyIsTheUnsignedDifference : Prop :=
  ∀ (c : Config) (p g : Nat), p < 2 ^ c.ctrW → g < 2 ^ c.ctrW →
    c.occ p g < 2 ^ c.ctrW ∧ (g + c.occ p g) % 2 ^ c.ctrW = p ∧ (c.occ p g = 0 ↔ p = g)

/-- 40_ring_buffer.md R120: the contiguity bounds, and what they give: every block of at most `cspace` bytes at `put`
and of at most `clen` bytes at `get` stays inside the storage. -/
def Obligations.ContiguousBlocksStayInside : Prop :=
  ∀ (s : State) (d : Domain) (f : Sel), s.cfg.legal = true →
    let p := s.viewPut d f
    let g := s.viewGet d f
    s.cspace d f ≤ s.cfg.cap f - p % s.cfg.cap f ∧ s.cspace d f ≤ s.cfg.cap f - s.cfg.occ p g ∧
    s.clen d f ≤ s.cfg.cap f - g % s.cfg.cap f ∧ s.clen d f ≤ s.cfg.occ p g ∧
    (∀ m i bytes, i = p % s.cfg.cap f → bytes.length ≤ s.cspace d f →
      memWrite (.storageRange f) (s.cfg.cap f) m i bytes = .next (Memory.writeBytes m i bytes)) ∧
    (∀ m i n, i = g % s.cfg.cap f → n ≤ s.clen d f →
      memRead (.storageRange f) (s.cfg.cap f) m i n = .next (Memory.readBytes m i n))

/-- 00_scope.md R15: the storage primitives are defined only inside their space; outside, they stop with the fault
their caller names (log 18). The one instruction a caller could bring there is an `EV_BULK_OUT` of more than 64
bytes, which no element encodes. -/
def Obligations.AccessesOutsideAreFaults : Prop :=
  (∀ (outside : Fault) (size : Nat) (m : Memory) (i n : Nat), size < i + n →
    memRead outside size m i n = .fault outside ∧
    ∀ bytes : List Byte, bytes.length = n → memWrite outside size m i bytes = .fault outside) ∧
  ∀ (s : State) (bytes : List Byte), s.issuer = .usb → 64 < bytes.length →
    exec (.evBulkOut bytes) s = .fault .packetRange

/-- The frame of every instruction (10_state.md R52): what it may write, everything else unchanged. -/
def Obligations.InstructionsWriteOnlyTheirState : Prop :=
  ∀ (i : Instr) (s t : State), exec i s = .next t → writesOnly i s t ∧ s.out <+: t.out

/-- The bytes an instruction stores: those at `ix(put)` of its FIFO, and for `EV_BULK_OUT` the packet buffer's first
`L`; every other byte of the storage reads as before. -/
def Obligations.StoresReachOnlyTheirBytes : Prop :=
  ∀ (s t : State), Memory.wf s.rx.data = true → Memory.wf s.tx.data = true → Memory.wf s.pkt = true →
    (∀ b, exec (.rbPushRx b) s = .next t →
      ∀ a, a ≠ s.cfg.ix .rx (s.viewPut .usb .rx) → Memory.read t.rx.data a = Memory.read s.rx.data a) ∧
    (∀ b, exec (.rbPushTx b) s = .next t ∨ exec (.sendByte b) s = .next t →
      ∀ a, a ≠ s.cfg.ix .tx (s.viewPut .app .tx) → Memory.read t.tx.data a = Memory.read s.tx.data a) ∧
    (∀ bytes, exec (.evBulkOut bytes) s = .next t →
      (∀ a, (a < s.cfg.ix .rx (s.viewPut .usb .rx) ∨ s.cfg.ix .rx (s.viewPut .usb .rx) + bytes.length ≤ a) →
        Memory.read t.rx.data a = Memory.read s.rx.data a) ∧
      (∀ a, bytes.length ≤ a → Memory.read t.pkt a = Memory.read s.pkt a)) ∧
    (∀ i, exec i s = .next t →
      (∀ b, i ≠ .rbPushRx b) → (∀ bytes, i ≠ .evBulkOut bytes) → (∀ b, i ≠ .rbPushTx b) → (∀ b, i ≠ .sendByte b) →
      ∀ a, Memory.read t.rx.data a = Memory.read s.rx.data a ∧ Memory.read t.tx.data a = Memory.read s.tx.data a ∧
        Memory.read t.pkt a = Memory.read s.pkt a)

/-! Ring-buffer commands, and the byte-stream commands that are the same. -/

/-- 40_ring_buffer.md R112, 43_facade.md R196: `RB_PUSH` from the producer and `SEND_BYTE`: full by the producer's view
answers 0 and changes nothing; else the byte is stored at the physical index of `put`, which advances, and the answer
is 1. -/
def Obligations.PushStoresOrRefuses : Prop :=
  ∀ (s : State) (b : Byte), s.cfg.legal = true →
    (s.issuer = .usb → exec (.rbPushRx b) s = .next
      (if s.cfg.occ s.rx.put s.rx.getCopy = s.cfg.nRx then { s with out := s.out ++ [.usbRes 0#32] }
       else { s with
        rx := { s.rx with data := Memory.write s.rx.data (s.rx.put % s.cfg.nRx) b,
                          put := (s.rx.put + 1) % 2 ^ s.cfg.ctrW },
        out := s.out ++ [.usbRes 1#32] })) ∧
    (s.issuer = .app → ∀ i, i = .rbPushTx b ∨ i = .sendByte b → exec i s = .next
      (if s.cfg.occ s.tx.put s.tx.getCopy = s.cfg.nTx then { s with out := s.out ++ [.appRes 0#32] }
       else { s with
        tx := { s.tx with data := Memory.write s.tx.data (s.tx.put % s.cfg.nTx) b,
                          put := (s.tx.put + 1) % 2 ^ s.cfg.ctrW },
        out := s.out ++ [.appRes 1#32] }))

/-- 40_ring_buffer.md R113, 43_facade.md R195: `RB_POP` from the consumer and `RECV_BYTE`: empty by the consumer's view
answers `None` and changes nothing; else the answer is `0x100 | b` with the byte at the physical index of `get`,
which advances. -/
def Obligations.PopAnswersTheOldestByte : Prop :=
  ∀ s : State, s.cfg.legal = true →
    (s.issuer = .app → ∀ i, i = .rbPopRx ∨ i = .recvByte → exec i s = .next
      (if s.cfg.occ s.rx.putCopy s.rx.get = 0 then { s with out := s.out ++ [.appRes 0x000#32] }
       else { s with
        rx := { s.rx with get := (s.rx.get + 1) % 2 ^ s.cfg.ctrW },
        out := s.out ++ [.appRes (0x100#32 ||| (Memory.read s.rx.data (s.rx.get % s.cfg.nRx)).setWidth 32)] })) ∧
    (s.issuer = .usb → exec .rbPopTx s = .next
      (if s.cfg.occ s.tx.putCopy s.tx.get = 0 then { s with out := s.out ++ [.usbRes 0x000#32] }
       else { s with
        tx := { s.tx with get := (s.tx.get + 1) % 2 ^ s.cfg.ctrW },
        out := s.out ++ [.usbRes (0x100#32 ||| (Memory.read s.tx.data (s.tx.get % s.cfg.nTx)).setWidth 32)] }))

/-- 40_ring_buffer.md R111, R114 to R118, 10_state.md R39, 43_facade.md R194: the queries, from either port, computed on
the issuing port's view. A count of 2^32 or more has no stated word (log 17). -/
def Obligations.QueriesAnswerTheView : Prop :=
  ∀ (s : State) (pRx gRx pTx gTx : Nat),
    (pRx, gRx, pTx, gTx) = (match s.issuer with
      | .app => (s.rx.putCopy, s.rx.get, s.tx.put, s.tx.getCopy)
      | .usb => (s.rx.put, s.rx.getCopy, s.tx.putCopy, s.tx.get)) →
    let isCount := fun (n : Nat) (w : Word) => n < 2 ^ 32 → w = BitVec.ofNat 32 n
    let isBit := fun (b : Bool) (w : Word) => w = if b then 1#32 else 0#32
    let occRx := s.cfg.occ pRx gRx
    let occTx := s.cfg.occ pTx gTx
    answers .rbLenRx s (isCount occRx) ∧ answers .rbLenTx s (isCount occTx) ∧
    answers .rbIsFullRx s (isBit (decide (occRx = s.cfg.nRx))) ∧
    answers .rbIsFullTx s (isBit (decide (occTx = s.cfg.nTx))) ∧
    answers .rbIsEmptyRx s (isBit (decide (occRx = 0))) ∧
    answers .rbIsEmptyTx s (isBit (decide (occTx = 0))) ∧
    answers .rbContigSpaceRx s (isCount (min (s.cfg.nRx - occRx) (s.cfg.nRx - pRx % s.cfg.nRx))) ∧
    answers .rbContigSpaceTx s (isCount (min (s.cfg.nTx - occTx) (s.cfg.nTx - pTx % s.cfg.nTx))) ∧
    answers .rbContigLenRx s (isCount (min occRx (s.cfg.nRx - gRx % s.cfg.nRx))) ∧
    answers .rbContigLenTx s (isCount (min occTx (s.cfg.nTx - gTx % s.cfg.nTx))) ∧
    (s.issuer = .app → answers .available s (isCount occRx)) ∧
    (s.issuer = .app → answers .connected s (isBit s.connApp))

/-- 40_ring_buffer.md R119, for each of the three pushes. -/
def Obligations.RefusedPushChangesNothing : Prop :=
  ∀ (s t : State) (b : Byte) (i : Instr), i = .rbPushRx b ∨ i = .rbPushTx b ∨ i = .sendByte b →
    exec i s = .next t → s.out.length < t.out.length → t.out.getLast? = some (resultOutput s.issuer 0#32) →
    t = { s with out := s.out ++ [resultOutput s.issuer 0#32] }

/-- 20_memory.md R68: a query twice in a row, with no other step between, gives the same result. -/
def Obligations.QueriesAreIdempotent : Prop :=
  ∀ (s t u : State) (i : Instr),
    i ∈ [Instr.rbLenRx, .rbLenTx, .rbIsFullRx, .rbIsFullTx, .rbIsEmptyRx, .rbIsEmptyTx, .rbContigSpaceRx,
      .rbContigSpaceTx, .rbContigLenRx, .rbContigLenTx, .available, .connected] →
    portAllows i s.issuer = true → exec i s = .next t → exec i t = .next u →
    ∃ o, t.out = s.out ++ [o] ∧ u.out = s.out ++ [o, o]

/-! Byte-stream commands. -/

/-- 43_facade.md R191, R192: `INIT` answers 0 and sets `INIT_DONE` when the draw says registration succeeded, answers 1
and leaves it 0 when not, and is refused after a success. -/
def Obligations.InitSetsTheFlagOnSuccess : Prop :=
  ∀ s : State, s.issuer = .app →
    (s.initDone = false → exec .init s = .next { s.afterDraw with
      initDone := s.drawn, out := s.out ++ [.appRes (if s.drawn then 0#32 else 1#32)] }) ∧
    (s.initDone = true → exec .init s = .next { s with refusal := some { port := .app, reason := .reinit } })

/-- 00_scope.md R16: a draw takes the environment's next answer; with none fixed it is a free value, and the next draw
another one (log 3). -/
def Obligations.DrawTakesTheNextAnswer : Prop :=
  ∀ s : State,
    (∀ ok rest, s.draws = ok :: rest → s.drawn = ok ∧ s.afterDraw = { s with draws := rest }) ∧
    (s.draws = [] → s.drawn = Config.freeDraw s.free ∧ s.afterDraw = { s with free := s.free + 1 })

/-- 43_facade.md R197, R200, R202: the first steps of `SEND` and `POLL`, and `SET_RX_CALLBACK`. -/
def Obligations.SimpleAppCommands : Prop :=
  ∀ s : State, s.issuer = .app →
    exec (.send []) s = .next { s with out := s.out ++ [.appRes 0#32] } ∧
    (∀ b rest, exec (.send (b :: rest)) s = .next { s with appOp := .send (b :: rest) 0 0 }) ∧
    exec .poll s = .next { s with appOp := .poll } ∧
    (∀ en, exec (.setRxCallback en) s = .next { s with rxcbEn := en, out := s.out ++ [.appRes 0#32] })

/-- 43_facade.md R198: one micro-step of `SEND` pushes one byte by the view of that moment, counts it if accepted, and
completes at the last byte. -/
def Obligations.SendMicroStepPushesOneByte : Prop :=
  ∀ (s : State) (bytes : List Byte) (i a : Nat) (h : i < bytes.length), s.cfg.legal = true →
    s.refusedBit = false → s.appOp = .send bytes i a → a + 1 < 2 ^ 32 →
    let full := s.cfg.occ s.tx.put s.tx.getCopy = s.cfg.nTx
    let a' := if full then a else a + 1
    let tx' := if full then s.tx else
      { s.tx with data := Memory.write s.tx.data (s.tx.put % s.cfg.nTx) bytes[i],
                  put := (s.tx.put + 1) % 2 ^ s.cfg.ctrW }
    turn .app s = .next
      (if i + 1 = bytes.length then
        { s with sched := [], issuer := .app, tx := tx', appOp := .idle,
                 out := s.out ++ [.appRes (BitVec.ofNat 32 a')] }
       else { s with sched := [], issuer := .app, tx := tx', appOp := .send bytes (i + 1) a' })

/-- 43_facade.md R199: with no USB step between, any synchroniser steps between (the eager-sync schedule of
40_ring_buffer.md R129 among them) and the view current, the bytes accepted are the prefix of length `min(n, free)`, in
order behind the bytes TX held, and the result is their number. Only the copies the synchronisers write may change
beside. -/
def Obligations.UninterruptedSendAcceptsAPrefix : Prop :=
  ∀ (s : State) (bytes : List Byte) (agents : List Agent), BlockInv s → s.refusedBit = false →
    s.appOp = .send bytes 0 0 → s.tx.getCopy = s.tx.get →
    Agent.usb ∉ agents → agents.count .app = bytes.length →
    let n := min bytes.length (s.cfg.nTx - s.cfg.occ s.tx.put s.tx.get)
    ∃ t, runs agents s = .next t ∧ t.appOp = .idle ∧
      contents t.cfg .tx t.tx = contents s.cfg .tx s.tx ++ bytes.take n ∧
      t.out = s.out ++ [.appRes (BitVec.ofNat 32 n)] ∧
      t = { s with
        sched := [], issuer := .app, appOp := .idle, out := t.out,
        rx := { s.rx with putCopy := t.rx.putCopy, getCopy := t.rx.getCopy },
        tx := { s.tx with data := t.tx.data, put := t.tx.put, putCopy := t.tx.putCopy },
        connApp := t.connApp, rxcbUsb := t.rxcbUsb }

/-- 43_facade.md R201: the `POLL` end step is enabled when the USB agent is idle; else the APP agent has no step. -/
def Obligations.PollEndsWhenTheUsbAgentIsIdle : Prop :=
  ∀ s : State, s.cfg.legal = true → s.refusedBit = false → s.appOp = .poll →
    (s.usbOp = .idle → turn .app s = .next { s with
      sched := [], issuer := .app, appOp := .idle, out := s.out ++ [.appRes 0#32] }) ∧
    (s.usbOp ≠ .idle → turn .app s = .next { s with sched := [], issuer := .app })

/-! Events. -/

/-- 42_endpoint_events.md R162, R174: `EV_RESET` clears `CONN` and nothing else; `EV_DATA_IN` changes nothing. -/
def Obligations.ResetClearsConnOnly : Prop :=
  ∀ s : State, s.issuer = .usb →
    exec .evReset s = .next { s with conn := false, out := s.out ++ [.usbRes 0#32] } ∧
    ∀ ep, exec (.evDataIn ep) s = .next { s with out := s.out ++ [.usbRes 0#32] }

/-- 42_endpoint_events.md R163, R164, R165, R168: a bulk-OUT packet of at most 64 bytes goes to the callback instead of
RX in bypass mode, into RX in one step when 64 contiguous bytes are free by the USB view, and else starts the slow
path; a registered callback is called once with the whole packet, at the packet's last step. -/
def Obligations.BulkOutTakesItsPath : Prop :=
  ∀ (s : State) (bytes : List Byte), s.cfg.legal = true → s.issuer = .usb → bytes.length ≤ 64 →
    Memory.wf s.pkt = true →
    let p := s.rx.put
    let cspace := min (s.cfg.nRx - s.cfg.occ p s.rx.getCopy) (s.cfg.nRx - p % s.cfg.nRx)
    let s1 := { s with pkt := Memory.writeBytes s.pkt 0 bytes, pktlen := bytes.length }
    exec (.evBulkOut bytes) s = .next
      (if s.rxcbUsb = true ∧ s.cfg.rxCbBypass = true then
        { s1 with out := s.out ++ [.rxCallback bytes, .usbRes 0#32] }
       else if 64 ≤ cspace then
        { s1 with
          rx := { s.rx with data := Memory.writeBytes s.rx.data (p % s.cfg.nRx) bytes,
                            put := (p + bytes.length) % 2 ^ s.cfg.ctrW },
          out := s.out ++ (if s.rxcbUsb then [.rxCallback bytes] else []) ++ [.usbRes 0#32] }
       else { s1 with usbOp := .rx bytes.length 0 false })

/-- 42_endpoint_events.md R166, R167, R168: a micro-step of the slow path stores the next byte while no full FIFO was
met, and drops it and every later one otherwise; the completion calls a registered callback and answers 0. -/
def Obligations.SlowPathStoresDropsOrCompletes : Prop :=
  ∀ (s : State) (len i : Nat) (drop : Bool), s.cfg.legal = true → s.refusedBit = false →
    s.usbOp = .rx len i drop → i ≤ len → len ≤ 64 →
    turn .usb s = .next
      (if i = len then
        { s with sched := [], issuer := .usb, usbOp := .idle,
                 out := s.out ++ (if s.rxcbUsb then [.rxCallback (Memory.readBytes s.pkt 0 len)] else []) ++
                   [.usbRes 0#32] }
       else if drop = false ∧ s.cfg.occ s.rx.put s.rx.getCopy < s.cfg.nRx then
        { s with sched := [], issuer := .usb, usbOp := .rx len (i + 1) false,
                 rx := { s.rx with
                  data := Memory.write s.rx.data (s.rx.put % s.cfg.nRx) (Memory.read s.pkt i),
                  put := (s.rx.put + 1) % 2 ^ s.cfg.ctrW } }
       else { s with sched := [], issuer := .usb, usbOp := .rx len (i + 1) true })

/-- 42_endpoint_events.md R170, R171, R172: `EV_SOF` does nothing while disconnected, or with nothing to send and no
flush pending; else it hands bulk-IN the up to 64 oldest contiguous bytes, none for a pending flush, and only if
bulk-IN takes them do they leave TX and does `PEF` say whether the packet was a full one. -/
def Obligations.SofSendsTheOldestContiguousBytes : Prop :=
  ∀ s : State, s.cfg.legal = true → s.issuer = .usb →
    let g := s.tx.get
    let c := min (min (s.cfg.occ s.tx.putCopy g) (s.cfg.nTx - g % s.cfg.nTx)) 64
    exec .evSof s = .next
      (if s.conn = false ∨ (c = 0 ∧ s.pef = false) then { s with out := s.out ++ [.usbRes 0#32] }
       else if s.drawn then
        { s.afterDraw with
          tx := { s.tx with get := (g + c) % 2 ^ s.cfg.ctrW }, pef := decide (c = 64),
          out := s.out ++ [.packetIn 0x82#8 (Memory.readBytes s.tx.data (g % s.cfg.nTx) c), .usbRes 0#32] }
       else { s.afterDraw with out := s.out ++ [.usbRes 0#32] })

/-- 42_endpoint_events.md R169, with R167 and R168: a packet longer than the `k` bytes free by the USB view, with no
`SYNC_RX_GET` during it and not in bypass mode: exactly its first `k` bytes are kept, behind the bytes RX held, RX is
full by that view, and the packet completes. -/
def Obligations.OverflowingPacketKeepsItsPrefix : Prop :=
  ∀ (s : State) (e : StreamElem) (rest : List StreamElem) (bytes : List Byte),
    BlockInv s → s.refusedBit = false → s.usbOp = .idle → s.usbIn.pending = e :: rest →
    decode (.cmd32 e) = .ok (.evBulkOut bytes) → s.eventsOpen = true → (s.rxcbUsb && s.cfg.rxCbBypass) = false →
    s.cfg.nRx - s.cfg.occ s.rx.put s.rx.getCopy < bytes.length →
    let k := s.cfg.nRx - s.cfg.occ s.rx.put s.rx.getCopy
    ∃ t, turns .usb (bytes.length + 2) s = .next t ∧ t.usbOp = .idle ∧
      contents t.cfg .rx t.rx = contents s.cfg .rx s.rx ++ bytes.take k ∧
      t.cfg.occ t.rx.put t.rx.getCopy = t.cfg.nRx ∧
      t.out = s.out ++ (if s.rxcbUsb then [.rxCallback bytes] else []) ++ [.usbRes 0#32]

/-- 42_endpoint_events.md R169, for every interleaving (10_state.md R55): a packet longer than the `k` bytes free by the
USB view, not in bypass mode, with any steps of the other agents between its own but no `SYNC_RX_GET`. When its
`L + 2` steps are done, exactly its first `k` bytes have been appended to RX, behind the bytes RX held and less the bytes
the APP domain popped meanwhile, and RX is full by the USB view. -/
def Obligations.RxDropLawInEveryInterleaving : Prop :=
  ∀ (s t : State) (e : StreamElem) (rest : List StreamElem) (bytes : List Byte) (agents : List Agent),
    BlockInv s → s.usbOp = .idle → s.usbIn.pending = e :: rest → decode (.cmd32 e) = .ok (.evBulkOut bytes) →
    s.eventsOpen = true → (s.rxcbUsb && s.cfg.rxCbBypass) = false →
    s.cfg.nRx - s.cfg.occ s.rx.put s.rx.getCopy < bytes.length →
    agents.count .usb = bytes.length + 1 → Agent.sync .rxGet ∉ agents → runs (.usb :: agents) s = .next t →
    let k := s.cfg.nRx - s.cfg.occ s.rx.put s.rx.getCopy
    let popped := s.cfg.occ t.rx.get s.rx.get
    t.usbOp = .idle ∧ popped ≤ (contents s.cfg .rx s.rx).length + k ∧
      contents t.cfg .rx t.rx = (contents s.cfg .rx s.rx ++ bytes.take k).drop popped ∧
      t.cfg.occ t.rx.put t.rx.getCopy = t.cfg.nRx

/-- 42_endpoint_events.md R173: with TX from physical index 0 holding 130 bytes, every `EV_SOF` taken, the view current
and any synchroniser steps between (the eager-sync schedule of 40_ring_buffer.md R129 among them), the packets are 64,
64 and 2 bytes, then nothing; with 128 bytes, 64, 64 and a zero-length packet, then nothing. `PEF` is 0 at the end. -/
def Obligations.TransmitFlushPacketizes : Prop :=
  ∀ (s : State) (oks : List Bool) (rest : List StreamElem), BlockInv s → s.refusedBit = false → s.usbOp = .idle →
    s.eventsOpen = true → s.conn = true → s.pef = false → 256 ≤ s.cfg.nTx → s.tx.putCopy = s.tx.put →
    s.tx.get % s.cfg.nTx = 0 → s.draws = true :: true :: true :: oks →
    (∃ e : StreamElem, e.word = 0x23000000#32 ∧ e.payload = [] ∧ s.usbIn.pending = e :: e :: e :: e :: rest) →
    let held := contents s.cfg .tx s.tx
    let sent := fun (bytes : List Byte) => [Output.packetIn 0x82#8 bytes, Output.usbRes 0#32]
    let ends := fun (outs : List Output) =>
      ∀ agents : List Agent, Agent.app ∉ agents → agents.count .usb = 4 →
        ∃ t, runs agents s = .next t ∧ t.pef = false ∧ contents t.cfg .tx t.tx = [] ∧ t.out = s.out ++ outs
    (held.length = 130 → ends (sent (held.take 64) ++ sent ((held.drop 64).take 64) ++ sent (held.drop 128) ++
      [Output.usbRes 0#32])) ∧
    (held.length = 128 → ends (sent (held.take 64) ++ sent (held.drop 64) ++ sent [] ++ [Output.usbRes 0#32]))

/-! Control requests. -/

/-- 42_endpoint_events.md R175, 41_control_requests.md R142: `EV_SETUP` has exactly the effect of the control request
its packet is, whatever the data stage; on the USB port it completes with `CTRL` and the verdict code. -/
def Obligations.SetupEventRunsItsRequest : Prop :=
  ∀ (p : SetupPacket) (stage : List Byte) (s : State),
    exec (.evSetup p stage) s = exec (decodeSetup p) s ∧
    (s.issuer = .usb → ∃ t v data, exec (.evSetup p stage) s = .next t ∧
      t = { s with conn := t.conn, out := t.out, draws := t.draws, free := t.free } ∧
      (∃ sent, t.out = s.out ++ sent ++ [.ctrl v data, .usbRes (match v with
        | .notSupported => 0#32 | .handled => 1#32 | .notRouted => 2#32)]))

/-- 41_control_requests.md R143, R144: `SET_CONTROL_LINE_STATE` writes `CONN` from bit 0 of the request value; with
`SERIAL_STATE_NOTIFY` a draw says whether interrupt-IN takes the 8 bytes, which are dropped if not; the verdict is
`HANDLED` with no data stage. -/
def Obligations.LineStateRequestWritesConn : Prop :=
  ∀ (s : State) (dir : Bool) (wValue wIndex wLength : Half), s.issuer = .usb →
    (s.cfg.serialStateNotify = false → exec (.setControlLineState dir wValue wIndex wLength) s = .next { s with
      conn := wValue.getLsbD 0, out := s.out ++ [.ctrl .handled [], .usbRes 1#32] }) ∧
    (s.cfg.serialStateNotify = true → exec (.setControlLineState dir wValue wIndex wLength) s = .next { s.afterDraw with
      conn := wValue.getLsbD 0,
      out := s.out ++ (if s.drawn then [.notify 0x83#8 (s.cfg.serialStateBytes wValue)] else []) ++
        [.ctrl .handled [], .usbRes 1#32] }) ∧
    (s.cfg.serialStateBytes wValue).length = 8

/-- 41_control_requests.md R141, R145, R146, R147: the other requests change no state. `SET_LINE_CODING` is handled when
`wLength` is at least 7 and not supported when it is less; `GET_LINE_CODING` gives `LC_BYTES` whatever its `wLength`;
any other class request is not supported; a packet that is not one is not routed. -/
def Obligations.OtherRequestsAnswerOnly : Prop :=
  ∀ (s : State) (dir : Bool) (r : Byte) (wValue wIndex wLength : Half) (p : SetupPacket), s.issuer = .usb →
    exec (.setLineCoding dir wValue wIndex wLength) s = .next { s with out := s.out ++
      (if 7 ≤ wLength.toNat then [.ctrl .handled [], .usbRes 1#32] else [.ctrl .notSupported [], .usbRes 0#32]) } ∧
    exec (.getLineCoding dir wValue wIndex wLength) s = .next { s with out := s.out ++
      [.ctrl .handled [0x00#8, 0xC2#8, 0x01#8, 0x00#8, 0x00#8, 0x00#8, 0x08#8], .usbRes 1#32] } ∧
    exec (.classInterfaceUnsupported dir r wValue wIndex wLength) s = .next { s with out := s.out ++
      [.ctrl .notSupported [], .usbRes 0#32] } ∧
    exec (.notRouted p) s = .next { s with out := s.out ++ [.ctrl .notRouted [], .usbRes 2#32] }

/-- 41_control_requests.md R149: in every state, so whatever requests and steps led to it, `GET_LINE_CODING` gives the
bytes of the fixed structure. -/
def Obligations.LineCodingRoundTrip : Prop :=
  ∀ (s : State) (p : SetupPacket) (stage : List Byte),
    s.issuer = .usb → p.bmRequestType &&& 0x7F#8 = 0x21#8 → p.bRequest = 0x21#8 →
    exec (.evSetup p stage) s = .next { s with out := s.out ++
      [.ctrl .handled [0x00#8, 0xC2#8, 0x01#8, 0x00#8, 0x00#8, 0x00#8, 0x08#8], .usbRes 1#32] }

/-! Ends and fairness. -/

/-- 10_state.md R56, R58: when a run has ended, no agent's step changes anything of the block again. -/
def Obligations.EndedRunOnlyHolds : Prop :=
  ∀ s t : State, runEnded s → step s = .next t →
    t = { s with sched := t.sched, free := t.free, issuer := t.issuer } ∧ runEnded t

/-- 20_memory.md R82: in a run under a schedule that is fair to the SYNC agents, every copy is brought up to its source
again and again; and a source that holds its value from some step on is seen by the other domain for good from some
step on. -/
def Obligations.FairSynchronisersDeliver : Prop :=
  ∀ (schedule : Nat → Agent) (run : Nat → State), FairSchedule schedule → RunsUnder schedule run → ∀ c n,
    (∃ m, n ≤ m ∧ copyOf c (run (m + 1)) = sourceOf c (run (m + 1))) ∧
    ∀ v, (∀ k, n ≤ k → sourceOf c (run k) = v) → ∃ m, n ≤ m ∧ ∀ k, m ≤ k → copyOf c (run k) = v
end

