-- ==== Sys2Proof/Laws/Counter.lean ====
section
/-! SUPPORT. Counter arithmetic: what a legal configuration gives, occupancy as an unsigned difference, how it moves
when a counter advances, and physical indexes. -/

namespace Sys2Proof

/-- A capacity is a power of two (00_scope.md R9). -/
theorem isCapacity_pow (n : Nat) (h : isCapacity n = true) : ∃ k, n = 2 ^ k := by
  induction n using Nat.strongRecOn with
  | ind n ih =>
    simp only [isCapacity, Bool.and_eq_true, bne_iff_ne, ne_eq, beq_iff_eq] at h
    obtain ⟨h0, h1⟩ := h
    rcases Nat.even_or_odd' n with ⟨m, rfl | rfl⟩
    · have hm : m ≠ 0 := by omega
      have : isCapacity m = true := by
        simp only [isCapacity, Bool.and_eq_true, bne_iff_ne, ne_eq, beq_iff_eq]
        refine ⟨hm, ?_⟩
        apply Nat.eq_of_testBit_eq
        intro i
        have h2 := congrArg (fun x => Nat.testBit x (i + 1)) h1
        simp only [Nat.testBit_and, Nat.zero_testBit] at h2 ⊢
        rw [Nat.testBit_succ, Nat.testBit_succ] at h2
        have e1 : 2 * m / 2 = m := by omega
        have e2 : (2 * m - 1) / 2 = m - 1 := by omega
        rwa [e1, e2] at h2
      obtain ⟨k, hk⟩ := ih m (by omega) this
      exact ⟨k + 1, by rw [hk, Nat.pow_succ]; omega⟩
    · have e : 2 * m + 1 - 1 = 2 * m := by omega
      rw [e] at h1
      have hm : m = 0 := by
        by_contra hm
        apply hm
        apply Nat.eq_of_testBit_eq
        intro i
        have h2 := congrArg (fun x => Nat.testBit x (i + 1)) h1
        simp only [Nat.testBit_and, Nat.zero_testBit] at h2 ⊢
        rw [Nat.testBit_succ, Nat.testBit_succ] at h2
        have e1 : (2 * m + 1) / 2 = m := by omega
        have e2 : 2 * m / 2 = m := by omega
        rw [e1, e2] at h2
        simpa using h2
      exact ⟨0, by rw [hm]; rfl⟩

theorem Config.legal_cap_pow {c : Config} (h : c.legal = true) (f : Sel) : ∃ k, c.cap f = 2 ^ k := by
  simp only [Config.legal, Bool.and_eq_true] at h
  cases f
  · exact isCapacity_pow _ h.1.1.1
  · exact isCapacity_pow _ h.1.1.2

theorem Config.legal_cap_pos {c : Config} (h : c.legal = true) (f : Sel) : 0 < c.cap f := by
  obtain ⟨k, hk⟩ := Config.legal_cap_pow h f
  rw [hk]; exact Nat.two_pow_pos k

theorem Config.legal_cap_double {c : Config} (h : c.legal = true) (f : Sel) : 2 * c.cap f ≤ 2 ^ c.ctrW := by
  simp only [Config.legal, Bool.and_eq_true, decide_eq_true_eq] at h
  cases f
  · exact h.1.2
  · exact h.2

theorem Config.legal_cap_dvd {c : Config} (h : c.legal = true) (f : Sel) : c.cap f ∣ 2 ^ c.ctrW := by
  obtain ⟨k, hk⟩ := Config.legal_cap_pow h f
  have := Config.legal_cap_double h f
  rw [hk] at this ⊢
  apply Nat.pow_dvd_pow
  have h2 : 2 ^ k < 2 ^ c.ctrW := by have := Nat.two_pow_pos k; omega
  exact Nat.le_of_lt ((Nat.pow_lt_pow_iff_right (by omega)).1 h2)

theorem Config.wrap_lt (c : Config) (v : Nat) : c.wrap v < 2 ^ c.ctrW := Nat.mod_lt _ (Nat.two_pow_pos _)

theorem Config.wrap_of_lt {c : Config} {v : Nat} (h : v < 2 ^ c.ctrW) : c.wrap v = v := Nat.mod_eq_of_lt h

/-- A counter advanced by at most one turn. -/
theorem Config.wrap_add {c : Config} {v n : Nat} (hv : v < 2 ^ c.ctrW) (hn : n ≤ 2 ^ c.ctrW) :
    c.wrap (v + n) = if v + n < 2 ^ c.ctrW then v + n else v + n - 2 ^ c.ctrW := by
  unfold Config.wrap
  split
  · next h => exact Nat.mod_eq_of_lt h
  · next h => rw [Nat.mod_eq_sub_mod (by omega), Nat.mod_eq_of_lt (by omega)]

/-- Occupancy is the unsigned difference (00_scope.md R13). -/
theorem Config.occ_eq {c : Config} {p g : Nat} (hp : p < 2 ^ c.ctrW) (hg : g < 2 ^ c.ctrW) :
    c.occ p g = if g ≤ p then p - g else p + 2 ^ c.ctrW - g := by
  unfold Config.occ
  rw [Config.wrap_of_lt hg, Config.wrap_add hp (by omega)]
  split <;> split <;> omega

theorem Config.occ_lt (c : Config) (p g : Nat) : c.occ p g < 2 ^ c.ctrW := Config.wrap_lt c _

@[simp] theorem Config.occ_self (c : Config) (p : Nat) : c.occ p p = 0 := by
  unfold Config.occ Config.wrap
  have h1 := Nat.mod_lt p (Nat.two_pow_pos c.ctrW)
  have h2 := Nat.div_add_mod p (2 ^ c.ctrW)
  have : p + (2 ^ c.ctrW - p % 2 ^ c.ctrW) = 2 ^ c.ctrW * (p / 2 ^ c.ctrW + 1) := by
    rw [Nat.mul_add]; omega
  rw [this]; exact Nat.mul_mod_right _ _

/-- Advancing `put` by `n` adds `n` to the occupancy, while it stays below a full turn. -/
theorem Config.occ_put_add {c : Config} {p g n : Nat} (hp : p < 2 ^ c.ctrW) (hg : g < 2 ^ c.ctrW)
    (h : c.occ p g + n < 2 ^ c.ctrW) : c.occ (c.wrap (p + n)) g = c.occ p g + n := by
  have hw := Config.wrap_lt c (p + n)
  rw [Config.occ_eq hp hg] at h ⊢
  rw [Config.occ_eq hw hg, Config.wrap_add hp (by omega)]
  split at h <;> split <;> split <;> omega

/-- Advancing `get` by `n` takes `n` from the occupancy, while there are that many. -/
theorem Config.occ_get_add {c : Config} {p g n : Nat} (hp : p < 2 ^ c.ctrW) (hg : g < 2 ^ c.ctrW)
    (h : n ≤ c.occ p g) : c.occ p (c.wrap (g + n)) = c.occ p g - n := by
  have hw := Config.wrap_lt c (g + n)
  rw [Config.occ_eq hp hg] at h ⊢
  rw [Config.occ_eq hp hw, Config.wrap_add hg (by split at h <;> omega)]
  split at h <;> split <;> split <;> omega

/-- `put` is `get` advanced by the occupancy. -/
theorem Config.wrap_get_occ {c : Config} {p g : Nat} (hp : p < 2 ^ c.ctrW) (hg : g < 2 ^ c.ctrW) :
    c.wrap (g + c.occ p g) = p := by
  rw [Config.wrap_add hg (Nat.le_of_lt (Config.occ_lt c p g)), Config.occ_eq hp hg]
  split <;> split <;> omega

/-- A physical index is inside the storage. -/
theorem Config.ix_lt {c : Config} (h : c.legal = true) (f : Sel) (v : Nat) : c.ix f v < c.cap f :=
  Nat.mod_lt _ (Config.legal_cap_pos h f)

/-- There is room for one byte before the physical end. -/
theorem Config.one_le_room {c : Config} (h : c.legal = true) (f : Sel) (v : Nat) : 1 ≤ c.cap f - c.ix f v := by
  have := Config.ix_lt h f v
  omega

/-- Wrapping a counter does not change its index. -/
@[simp] theorem Config.ix_wrap {c : Config} (h : c.legal = true) (f : Sel) (v : Nat) :
    c.ix f (c.wrap v) = c.ix f v := Nat.mod_mod_of_dvd v (Config.legal_cap_dvd h f)

/-- Before the physical end, indexes follow each other. -/
theorem Config.ix_add {c : Config} {f : Sel} {v n : Nat} (h : c.ix f v + n < c.cap f) :
    c.ix f (v + n) = c.ix f v + n := by
  unfold Config.ix at *
  rw [Nat.add_mod, Nat.mod_eq_of_lt (by omega : n < c.cap f), Nat.mod_eq_of_lt h]

/-- Two counter values less than one lap apart have different indexes. -/
theorem Config.ix_ne {c : Config} {f : Sel} {a b : Nat} (h1 : a < b) (h2 : b < a + c.cap f) :
    c.ix f a ≠ c.ix f b := by
  unfold Config.ix
  intro h
  have h3 : (b - a) % c.cap f = 0 := Nat.sub_mod_eq_zero_of_mod_eq h.symm
  rw [Nat.mod_eq_of_lt (by omega)] at h3
  omega

end Sys2Proof
end

