-- ==== Sys2Proof/Laws/Decode.lean ====
section
/-! SUPPORT. The fields of a command word taken apart and put together, the opcode map in both directions, and the
setup packet's bytes: what the round trips between decoder and encoder rest on. -/

namespace Sys2Proof

/-- A command word is its four fields. -/
theorem word_fields (w : Word) : w = opField w ++ BitVec.ofBool (selField w) ++ rsvField w ++ immField w := by
  apply BitVec.eq_of_getLsbD_eq
  intro i hi
  simp only [opField, selField, rsvField, immField, BitVec.getLsbD_append, BitVec.getLsbD_extractLsb',
    BitVec.getLsbD_ofBool]
  by_cases h1 : i < 16
  · simp [h1]
  · by_cases h2 : i - 16 < 7
    · simp [h1, h2, show 16 + (i - 16) = i by omega]
    · by_cases h3 : i - 16 - 7 < 1
      · have : i = 23 := by omega
        subst this; simp
      · simp [h1, h2, h3, show i - 16 - 7 - 1 < 8 by omega, show 24 + (i - 16 - 7 - 1) = i by omega]

@[simp] theorem opField_headWord (op : Opcode) (sel : Bool) (imm : Half) : opField (headWord op sel imm) = op.code := by
  apply BitVec.eq_of_getLsbD_eq
  intro i hi
  simp only [opField, headWord, BitVec.getLsbD_append, BitVec.getLsbD_extractLsb']
  simp [hi, show ¬24 + i < 16 by omega, show ¬24 + i - 16 < 7 by omega, show ¬24 + i - 16 - 7 < 1 by omega,
    show 24 + i - 16 - 7 - 1 = i by omega]

@[simp] theorem selField_headWord (op : Opcode) (sel : Bool) (imm : Half) : selField (headWord op sel imm) = sel := by
  simp only [selField, headWord, BitVec.getLsbD_append]
  simp

@[simp] theorem rsvField_headWord (op : Opcode) (sel : Bool) (imm : Half) : rsvField (headWord op sel imm) = 0#7 := by
  apply BitVec.eq_of_getLsbD_eq
  intro i hi
  simp only [rsvField, headWord, BitVec.getLsbD_append, BitVec.getLsbD_extractLsb']
  simp [hi]

@[simp] theorem immField_headWord (op : Opcode) (sel : Bool) (imm : Half) : immField (headWord op sel imm) = imm := by
  apply BitVec.eq_of_getLsbD_eq
  intro i hi
  simp only [immField, headWord, BitVec.getLsbD_append, BitVec.getLsbD_extractLsb']
  simp [hi]

@[simp] theorem opcodeOf_code (op : Opcode) : opcodeOf op.code = some op := by cases op <;> rfl

/-- An opcode has one `OP` byte (30_encoding.md R91). -/
theorem code_of_opcodeOf {b : Byte} {op : Opcode} (h : opcodeOf b = some op) : b = op.code := by
  simp only [opcodeOf, Option.map_eq_some_iff] at h
  obtain ⟨row, hrow, rfl⟩ := h
  have hm := List.mem_of_find?_eq_some hrow
  have hb : row.1 = b := by simpa using List.find?_some hrow
  rw [← hb]
  have : ∀ r ∈ opcodeRows, r.1 = r.2.code := by decide
  exact this row hm

/-- A word with a known opcode and `RSV` 0 is the encoder's word of its fields. -/
theorem eq_headWord {w : Word} {op : Opcode} (hop : opcodeOf (opField w) = some op) (hr : rsvField w = 0#7) :
    w = headWord op (selField w) (immField w) := by
  conv => lhs; rw [word_fields w, code_of_opcodeOf hop, hr]
  rfl

@[simp] theorem loByte_immOfByte (b : Byte) : loByte (immOfByte b) = b := by
  apply BitVec.eq_of_getLsbD_eq
  intro i hi
  simp [loByte, immOfByte, hi]
  omega

/-- A 16-bit operand of at most 8 bits is its low byte. -/
theorem immOfByte_loByte {h : Half} (hz : h >>> 8 = 0#16) : immOfByte (loByte h) = h := by
  apply BitVec.eq_of_getLsbD_eq
  intro i hi
  simp only [loByte, immOfByte, BitVec.getLsbD_setWidth, BitVec.getLsbD_extractLsb']
  by_cases h8 : i < 8
  · simp [h8, hi]
  · have := congrArg (fun x => x.getLsbD (i - 8)) hz
    simp only [BitVec.getLsbD_ushiftRight, show 8 + (i - 8) = i by omega, BitVec.getLsbD_zero] at this
    simp [h8, this]

@[simp] theorem halfOf_bytes (h : Half) : halfOf (loByte h) (hiByte h) = h := by
  apply BitVec.eq_of_getLsbD_eq
  intro i hi
  simp only [halfOf, loByte, hiByte, BitVec.getLsbD_append, BitVec.getLsbD_extractLsb']
  by_cases h8 : i < 8
  · simp [h8]
  · simp [h8, show i - 8 < 8 by omega, show 8 + (i - 8) = i by omega]

@[simp] theorem loByte_halfOf (lo hi : Byte) : loByte (halfOf lo hi) = lo := by
  apply BitVec.eq_of_getLsbD_eq
  intro i h
  simp only [loByte, halfOf, BitVec.getLsbD_append, BitVec.getLsbD_extractLsb']
  simp [h]

@[simp] theorem hiByte_halfOf (lo hi : Byte) : hiByte (halfOf lo hi) = hi := by
  apply BitVec.eq_of_getLsbD_eq
  intro i h
  simp only [hiByte, halfOf, BitVec.getLsbD_append, BitVec.getLsbD_extractLsb']
  simp [h]

@[simp] theorem length_setupBytes (p : SetupPacket) : p.bytes.length = 8 := rfl

/-- A packet's bytes are split off again. -/
@[simp] theorem splitSetup_bytes (p : SetupPacket) (rest : List Byte) :
    splitSetup (p.bytes ++ rest) = some (p, rest) := by
  simp [SetupPacket.bytes, splitSetup]

@[simp] theorem splitSetup_bytes_nil (p : SetupPacket) : splitSetup p.bytes = some (p, []) := by
  simpa using splitSetup_bytes p []

/-- What is split off is the packet's bytes. -/
theorem eq_of_splitSetup {payload rest : List Byte} {p : SetupPacket} (h : splitSetup payload = some (p, rest)) :
    payload = p.bytes ++ rest := by
  unfold splitSetup at h
  split at h
  · simp only [Option.some.injEq, Prod.mk.injEq] at h
    obtain ⟨rfl, rfl⟩ := h
    simp [SetupPacket.bytes]
  · cases h

/-- What the header checks leave of a legal element (30_encoding.md R98, items 1 to 4). -/
theorem decodeElem_eq_ok {e : StreamElem} {i : Instr} (h : decodeElem e = .ok i) :
    ∃ op sel imm, e.word = headWord op sel imm ∧ (sel = true → op.usesSel = true) ∧ imm >>> op.immBits = 0#16 ∧
      decodeBody op sel imm e.payload = .ok i := by
  unfold decodeElem at h
  split at h
  · cases h
  · next op hop =>
    split at h; · cases h
    split at h; · cases h
    split at h; · cases h
    next h1 h2 h3 =>
    refine ⟨op, selField e.word, immField e.word, eq_headWord hop (by simpa using h1), ?_, by simpa using h3, h⟩
    intro hs
    simpa [hs] using h2

/-- A legal header leaves the body to decode. -/
theorem decodeElem_headWord {op : Opcode} {sel : Bool} {imm : Half} {payload : List Byte}
    (hs : sel = true → op.usesSel = true) (hi : imm >>> op.immBits = 0#16) :
    decodeElem { word := headWord op sel imm, payload } = decodeBody op sel imm payload := by
  unfold decodeElem
  simp only [opField_headWord, opcodeOf_code, rsvField_headWord, selField_headWord, immField_headWord]
  rw [if_neg (by simp), if_neg, if_neg (by simpa using hi)]
  simp only [Bool.and_eq_true, Bool.not_eq_true', not_and, Bool.not_eq_false]
  exact hs

/-- An element without payload (30_encoding.md R90). -/
theorem noPayload_eq_ok {i j : Instr} {payload : List Byte} (h : noPayload i payload = .ok j) :
    payload = [] ∧ i = j := by
  unfold noPayload at h
  split at h <;> cases h
  exact ⟨‹_›, rfl⟩

/-- The class bits of a packet that is a class request to an interface. -/
theorem bmRequestType_eq {b : Byte} (h : b &&& 0x7F#8 = 0x21#8) : b = BitVec.ofBool (b.getLsbD 7) ++ 0x21#7 := by
  revert h; revert b; decide

end Sys2Proof
end

