-- ==== Sys2Proof/Laws/Memory.lean ====
section
/-! SUPPORT. Byte storage: a read after a write, the frame of a write, and the canonical form kept. -/

namespace Sys2Proof.Machine

theorem Memory.read_write (m : Memory) (a : Nat) (b : Byte) (h : Memory.wf m = true) (x : Nat) :
    Memory.read (Memory.write m a b) x = if x = a then b else Memory.read m x := by
  induction m with
  | nil =>
    simp only [Memory.write]
    split
    · next hb => simp [Memory.read, hb]
    · simp only [Memory.read]; grind
  | cons cell rest ih =>
    obtain ⟨k, v⟩ := cell
    have hrest : Memory.wf rest = true := by
      cases rest with
      | nil => rfl
      | cons c r => simp only [Memory.wf, Bool.and_eq_true] at h; exact h.2
    have hlow : ∀ y, y ≤ k → Memory.read rest y = Memory.blank := by
      clear ih
      induction rest generalizing k v with
      | nil => intro y _; rfl
      | cons c r ihr =>
        obtain ⟨k', v'⟩ := c
        intro y hy
        simp only [Memory.wf, Bool.and_eq_true, decide_eq_true_eq] at h
        have hr : Memory.wf r = true := by
          cases r with
          | nil => rfl
          | cons c r => simp only [Memory.wf, Bool.and_eq_true] at hrest; exact hrest.2
        simp only [Memory.read]
        rw [if_neg (by omega)]
        exact ihr k' v' h.2 hr y (by omega)
    have ih := ih hrest
    have hl := hlow
    simp only [Memory.write]
    split
    · split
      · next h1 h2 =>
        by_cases hx : x = a
        · subst hx
          simp only [Memory.read, if_true]
          rw [if_neg (by omega), hlow x (by omega), h2]
        · simp [hx]
      · simp only [Memory.read]; grind
    · split
      · next h1 h2 =>
        subst h2
        split
        · next hb =>
          by_cases hx : x = a
          · subst hx; simp [hlow x (Nat.le_refl x), hb]
          · simp only [Memory.read]; rw [if_neg (Ne.symm hx), if_neg hx]
        · simp only [Memory.read]; grind
      · next h1 h2 =>
        simp only [Memory.read, ih]
        by_cases hk : k = x
        · subst hk; rw [if_pos rfl, if_pos rfl, if_neg (Ne.symm h2)]
        · rw [if_neg hk, if_neg hk]

/-- The least listed address, when there is one, is above `k`. -/
def Memory.above (k : Nat) : Memory → Prop
  | [] => True
  | (k', _) :: _ => k < k'

theorem Memory.wf_cons (k : Nat) (v : Byte) (rest : Memory) :
    Memory.wf ((k, v) :: rest) = true ↔ v ≠ Memory.blank ∧ Memory.above k rest ∧ Memory.wf rest = true := by
  cases rest with
  | nil => simp [Memory.wf, Memory.above]
  | cons c r => obtain ⟨k', v'⟩ := c; simp [Memory.wf, Memory.above, and_assoc]

theorem Memory.above_trans {k k' : Nat} {m : Memory} (h : k < k') (hm : Memory.above k' m) : Memory.above k m := by
  cases m with
  | nil => trivial
  | cons c r => obtain ⟨a, b⟩ := c; simp only [Memory.above] at *; omega

theorem Memory.above_write {k a : Nat} {b : Byte} {m : Memory} (hm : Memory.above k m) (ha : k < a)
    (hwf : Memory.wf m = true) : Memory.above k (Memory.write m a b) := by
  cases m with
  | nil => simp only [Memory.write]; split <;> simp [Memory.above, ha]
  | cons c r =>
    obtain ⟨k', v'⟩ := c
    rw [Memory.wf_cons] at hwf
    simp only [Memory.above] at hm
    simp only [Memory.write]
    split
    · split <;> simp [Memory.above, ha, hm]
    · split
      · split
        · exact Memory.above_trans hm hwf.2.1
        · simp [Memory.above, ha]
      · simp [Memory.above, hm]

/-- A write keeps the canonical form. -/
theorem Memory.wf_write {m : Memory} (h : Memory.wf m = true) (a : Nat) (b : Byte) :
    Memory.wf (Memory.write m a b) = true := by
  induction m with
  | nil => simp only [Memory.write]; split <;> simp_all [Memory.wf]
  | cons c r ih =>
    obtain ⟨k, v⟩ := c
    have h' := h
    rw [Memory.wf_cons] at h'
    obtain ⟨hv, hab, hr⟩ := h'
    simp only [Memory.write]
    split
    · split
      · exact h
      · next h1 h2 => exact (Memory.wf_cons ..).2 ⟨h2, h1, h⟩
    · split
      · next h1 h2 =>
        split
        · exact hr
        · next h3 => exact (Memory.wf_cons ..).2 ⟨h3, h2 ▸ hab, hr⟩
      · next h1 h2 => exact (Memory.wf_cons ..).2 ⟨hv, Memory.above_write hab (by omega) hr, ih hr⟩

theorem Memory.mem_write {m : Memory} {a : Nat} {b : Byte} {cell : Host.Cell} (h : cell ∈ Memory.write m a b) :
    cell ∈ m ∨ cell.1 = a := by
  induction m with
  | nil => simp only [Memory.write] at h; split at h <;> simp_all
  | cons c r ih =>
    obtain ⟨k, v⟩ := c
    simp only [Memory.write] at h
    split at h
    · split at h <;> simp_all; grind
    · split at h
      · split at h <;> simp_all; grind
      · rcases List.mem_cons.1 h with rfl | h
        · simp
        · rcases ih h with h | h <;> simp [h]

theorem Memory.wf_writeBytes {m : Memory} (h : Memory.wf m = true) (a : Nat) (bytes : List Byte) :
    Memory.wf (Memory.writeBytes m a bytes) = true := by
  induction bytes generalizing m a with
  | nil => exact h
  | cons b rest ih => exact ih (Memory.wf_write h a b) (a + 1)

theorem Memory.mem_writeBytes {m : Memory} {a : Nat} {bytes : List Byte} {cell : Host.Cell}
    (h : cell ∈ Memory.writeBytes m a bytes) : cell ∈ m ∨ a ≤ cell.1 ∧ cell.1 < a + bytes.length := by
  induction bytes generalizing m a with
  | nil => exact .inl h
  | cons b rest ih =>
    simp only [List.length_cons]
    rcases ih h with h | h
    · rcases Memory.mem_write h with h | h
      · exact .inl h
      · exact .inr (by omega)
    · exact .inr (by omega)

/-- A byte after a write of several: the written one inside the block, the old one outside it. -/
theorem Memory.read_writeBytes {m : Memory} (h : Memory.wf m = true) (a : Nat) (bytes : List Byte) (x : Nat) :
    Memory.read (Memory.writeBytes m a bytes) x =
      if a ≤ x ∧ x < a + bytes.length then bytes.getD (x - a) 0#8 else Memory.read m x := by
  induction bytes generalizing m a with
  | nil => simp only [Memory.writeBytes, List.length_nil, Nat.add_zero]; rw [if_neg (by omega)]
  | cons b rest ih =>
    simp only [Memory.writeBytes]
    rw [ih (Memory.wf_write h a b), Memory.read_write m a b h]
    simp only [List.length_cons]
    by_cases h1 : x = a
    · subst h1
      rw [if_neg (by omega), if_pos rfl, if_pos (by omega)]
      simp
    · rw [if_neg h1]
      by_cases h2 : a ≤ x ∧ x < a + (rest.length + 1)
      · rw [if_pos h2, if_pos (by omega)]
        have : x - a = (x - (a + 1)) + 1 := by omega
        rw [this, List.getD_cons_succ]
      · rw [if_neg h2, if_neg (by omega)]

/-- Every byte outside a stored block reads as before. -/
theorem Memory.read_writeBytes_outside {m : Memory} (h : Memory.wf m = true) {a : Nat} {bytes : List Byte} {x : Nat}
    (hx : ¬(a ≤ x ∧ x < a + bytes.length)) : Memory.read (Memory.writeBytes m a bytes) x = Memory.read m x := by
  rw [Memory.read_writeBytes h, if_neg hx]

@[simp] theorem Memory.length_readBytes (m : Memory) (a n : Nat) : (Memory.readBytes m a n).length = n := by
  induction n generalizing a with
  | zero => rfl
  | succ n ih => simp [Memory.readBytes, ih]

theorem Memory.getElem_readBytes (m : Memory) (a n k : Nat) (h : k < (Memory.readBytes m a n).length) :
    (Memory.readBytes m a n)[k] = Memory.read m (a + k) := by
  induction n generalizing a k with
  | zero => simp at h
  | succ n ih =>
    cases k with
    | zero => rfl
    | succ k =>
      simp only [Memory.readBytes, List.getElem_cons_succ]
      rw [ih]
      congr 1
      omega

/-- The bytes just stored are the bytes read. -/
theorem Memory.readBytes_writeBytes {m : Memory} (h : Memory.wf m = true) (a : Nat) (bytes : List Byte) :
    Memory.readBytes (Memory.writeBytes m a bytes) a bytes.length = bytes := by
  apply List.ext_getElem
  · simp
  · intro k h1 h2
    rw [Memory.getElem_readBytes, Memory.read_writeBytes h, if_pos (by omega)]
    simp [h2]

theorem Memory.readBytes_congr {m m' : Memory} {a n : Nat}
    (h : ∀ k, k < n → Memory.read m (a + k) = Memory.read m' (a + k)) :
    Memory.readBytes m a n = Memory.readBytes m' a n := by
  apply List.ext_getElem
  · simp
  · intro k h1 h2
    rw [Memory.getElem_readBytes, Memory.getElem_readBytes]
    exact h k (by simpa using h1)

end Sys2Proof.Machine
end

