-- ==== Sys2Proof/Laws/Fifo.lean ====
section
/-! SUPPORT. One FIFO: appending and taking bytes as operations on the list of valid bytes, and the FIFO invariant
kept by each way a FIFO changes: bytes appended, bytes taken, a copy brought up to date. -/

namespace Sys2Proof.Safety

open Sys2Proof.Machine

theorem length_contents (c : Config) (f : Sel) (x : Fifo) : (contents c f x).length = c.occ x.put x.get := by
  simp [contents]

theorem getElem_contents (c : Config) (f : Sel) (x : Fifo) (k : Nat) (h : k < (contents c f x).length) :
    (contents c f x)[k] = Memory.read x.data (c.ix f (x.get + k)) := by
  simp [contents]

/-- The true occupancy is within the capacity (10_state.md R32). -/
theorem FifoInv.occ_le {c : Config} {f : Sel} {x : Fifo} (h : FifoInv c f x) : c.occ x.put x.get ≤ c.cap f := by
  have := h.bounded; have := h.get_trails; omega

/-- The block `put .. put + n` at the physical end's near side starts right after the valid bytes. -/
theorem FifoInv.ix_put {c : Config} {f : Sel} {x : Fifo} (hc : c.legal = true) (h : FifoInv c f x) :
    c.ix f x.put = c.ix f (x.get + c.occ x.put x.get) := by
  conv => lhs; rw [← Config.wrap_get_occ h.put_lt h.get_lt]
  exact Config.ix_wrap hc f _

/-- `n` more bytes at the producer's end, contiguous and within its view of the free space. -/
def appended (c : Config) (f : Sel) (x : Fifo) (bytes : List Byte) : Fifo :=
  { x with data := Memory.writeBytes x.data (c.ix f x.put) bytes, put := c.wrap (x.put + bytes.length) }

/-- `n` bytes fewer at the consumer's end. -/
def taken (c : Config) (x : Fifo) (n : Nat) : Fifo := { x with get := c.wrap (x.get + n) }

theorem contents_appended {c : Config} {f : Sel} {x : Fifo} {bytes : List Byte} (hc : c.legal = true)
    (h : FifoInv c f x) (hfree : bytes.length ≤ c.cap f - c.occ x.put x.getCopy)
    (hend : bytes.length ≤ c.cap f - c.ix f x.put) :
    contents c f (appended c f x bytes) = contents c f x ++ bytes := by
  have hle := h.bounded
  have htr := h.get_trails
  have hdbl := Config.legal_cap_double hc f
  have hpos := Config.legal_cap_pos hc f
  have hocc : c.occ (c.wrap (x.put + bytes.length)) x.get = c.occ x.put x.get + bytes.length :=
    Config.occ_put_add h.put_lt h.get_lt (by omega)
  have hix := h.ix_put hc
  have hixlt := Config.ix_lt hc f x.put
  apply List.ext_getElem
  · rw [length_contents, List.length_append, length_contents]; exact hocc
  · intro k h1 h2
    rw [getElem_contents]
    rw [length_contents] at h1
    simp only [appended] at h1 ⊢
    rw [hocc] at h1
    rw [Memory.read_writeBytes h.canonical]
    by_cases hk : k < c.occ x.put x.get
    · rw [List.getElem_append_left (by rw [length_contents]; exact hk), getElem_contents, if_neg]
      intro hin
      have e : c.ix f (x.get + c.occ x.put x.get + (c.ix f (x.get + k) - c.ix f x.put)) = c.ix f (x.get + k) := by
        rw [Config.ix_add (by rw [← hix]; have := Config.ix_lt hc f (x.get + k); omega), ← hix]; omega
      exact Config.ix_ne (f := f) (by omega) (by omega) e.symm
    · have e : c.ix f (x.get + k) = c.ix f x.put + (k - c.occ x.put x.get) := by
        have e' : x.get + k = x.get + c.occ x.put x.get + (k - c.occ x.put x.get) := by omega
        rw [e', Config.ix_add (by rw [← hix]; omega), ← hix]
      rw [List.getElem_append_right (by rw [length_contents]; omega), e, if_pos (by omega)]
      simp only [length_contents]
      rw [Nat.add_sub_cancel_left, List.getD_eq_getElem?_getD, List.getElem?_eq_getElem (by omega)]
      rfl

theorem contents_taken {c : Config} {f : Sel} {x : Fifo} {n : Nat} (hc : c.legal = true) (h : FifoInv c f x)
    (hn : n ≤ c.occ x.put x.get) : contents c f (taken c x n) = (contents c f x).drop n := by
  have hocc := Config.occ_get_add h.put_lt h.get_lt hn
  apply List.ext_getElem
  · rw [length_contents, List.length_drop, length_contents]; exact hocc
  · intro k h1 h2
    rw [getElem_contents, List.getElem_drop, getElem_contents]
    simp only [taken]
    congr 1
    have : c.ix f (c.wrap (x.get + n) + k) = c.ix f (x.get + n + k) := by
      have := Config.ix_wrap hc f (x.get + n)
      unfold Config.ix at this ⊢
      rw [Nat.add_mod, this, ← Nat.add_mod]
    rw [this, Nat.add_assoc]

/-- The contiguous bytes at the consumer's end are the oldest valid ones. -/
theorem readBytes_get {c : Config} {f : Sel} {x : Fifo} {n : Nat} (hn : n ≤ c.occ x.put x.get)
    (hend : n ≤ c.cap f - c.ix f x.get) :
    Memory.readBytes x.data (c.ix f x.get) n = (contents c f x).take n := by
  apply List.ext_getElem
  · simp [length_contents, hn]
  · intro k h1 h2
    rw [Memory.getElem_readBytes, List.getElem_take, getElem_contents]
    rw [Memory.length_readBytes] at h1
    rw [Config.ix_add (by omega)]

theorem FifoInv.appended {c : Config} {f : Sel} {x : Fifo} {bytes : List Byte} (hc : c.legal = true)
    (h : FifoInv c f x) (hfree : bytes.length ≤ c.cap f - c.occ x.put x.getCopy)
    (hend : bytes.length ≤ c.cap f - c.ix f x.put) : FifoInv c f (appended c f x bytes) := by
  have hdbl := Config.legal_cap_double hc f
  have hpos := Config.legal_cap_pos hc f
  have hb := h.bounded
  have hg := h.get_trails
  have hp := h.put_trails
  have hixlt := Config.ix_lt hc f x.put
  have o1 := Config.occ_put_add (n := bytes.length) h.put_lt h.getCopy_lt (by omega)
  have o2 := Config.occ_put_add (n := bytes.length) h.put_lt h.get_lt (by omega)
  have o3 := Config.occ_put_add (n := bytes.length) h.put_lt h.putCopy_lt (by omega)
  refine ⟨Config.wrap_lt .., h.get_lt, h.putCopy_lt, h.getCopy_lt, ?_, ?_, ?_, Memory.wf_writeBytes h.canonical _ _, ?_⟩
  · simp only [Safety.appended]; omega
  · simp only [Safety.appended]; omega
  · simp only [Safety.appended]; omega
  · intro cell hcell
    rcases Memory.mem_writeBytes hcell with hm | hm
    · exact h.inside cell hm
    · omega

theorem FifoInv.taken {c : Config} {f : Sel} {x : Fifo} {n : Nat} (h : FifoInv c f x)
    (hn : n ≤ c.occ x.putCopy x.get) (hc : c.legal = true) : FifoInv c f (taken c x n) := by
  have hdbl := Config.legal_cap_double hc f
  have hpos := Config.legal_cap_pos hc f
  have hb := h.bounded
  have hg := h.get_trails
  have hp := h.put_trails
  have o1 := Config.occ_get_add (n := n) h.put_lt h.get_lt (by omega)
  have o2 := Config.occ_get_add (n := n) h.putCopy_lt h.get_lt (by omega)
  have o3 := Config.occ_put_add (n := n) h.get_lt h.getCopy_lt (by omega)
  refine ⟨h.put_lt, Config.wrap_lt .., h.putCopy_lt, h.getCopy_lt, h.bounded, ?_, ?_, h.canonical, h.inside⟩
  · simp only [Safety.taken]; omega
  · simp only [Safety.taken]; omega

theorem FifoInv.syncPut {c : Config} {f : Sel} {x : Fifo} (h : FifoInv c f x) :
    FifoInv c f { x with putCopy := x.put } := by
  refine ⟨h.put_lt, h.get_lt, h.put_lt, h.getCopy_lt, h.bounded, h.get_trails, ?_, h.canonical, h.inside⟩
  simp

theorem FifoInv.syncGet {c : Config} {f : Sel} {x : Fifo} (h : FifoInv c f x) :
    FifoInv c f { x with getCopy := x.get } := by
  have := h.occ_le
  refine ⟨h.put_lt, h.get_lt, h.putCopy_lt, h.get_lt, ?_, ?_, h.put_trails, h.canonical, h.inside⟩
  · simpa using this
  · simp

theorem FifoInv.empty (c : Config) (f : Sel) : FifoInv c f Fifo.empty := by
  have := Nat.two_pow_pos c.ctrW
  refine ⟨this, this, this, this, ?_, ?_, ?_, rfl, ?_⟩ <;> simp [Fifo.empty]

end Sys2Proof.Safety
end

