-- ==== Sys2Proof/Laws/State.lean ====
section
/-! SUPPORT. What each update of the state leaves in each field, one lemma per field and update. -/

namespace Sys2Proof.Machine

variable (s : State)

/-! An output. -/

@[simp] theorem State.emit_cfg (o : Output) : (s.emit o).cfg = s.cfg := rfl
@[simp] theorem State.emit_rx (o : Output) : (s.emit o).rx = s.rx := rfl
@[simp] theorem State.emit_tx (o : Output) : (s.emit o).tx = s.tx := rfl
@[simp] theorem State.emit_conn (o : Output) : (s.emit o).conn = s.conn := rfl
@[simp] theorem State.emit_connApp (o : Output) : (s.emit o).connApp = s.connApp := rfl
@[simp] theorem State.emit_pef (o : Output) : (s.emit o).pef = s.pef := rfl
@[simp] theorem State.emit_initDone (o : Output) : (s.emit o).initDone = s.initDone := rfl
@[simp] theorem State.emit_rxcbEn (o : Output) : (s.emit o).rxcbEn = s.rxcbEn := rfl
@[simp] theorem State.emit_rxcbUsb (o : Output) : (s.emit o).rxcbUsb = s.rxcbUsb := rfl
@[simp] theorem State.emit_appOp (o : Output) : (s.emit o).appOp = s.appOp := rfl
@[simp] theorem State.emit_usbOp (o : Output) : (s.emit o).usbOp = s.usbOp := rfl
@[simp] theorem State.emit_pkt (o : Output) : (s.emit o).pkt = s.pkt := rfl
@[simp] theorem State.emit_pktlen (o : Output) : (s.emit o).pktlen = s.pktlen := rfl
@[simp] theorem State.emit_refusal (o : Output) : (s.emit o).refusal = s.refusal := rfl
@[simp] theorem State.emit_out (o : Output) : (s.emit o).out = s.out ++ [o] := rfl
@[simp] theorem State.emit_appIn (o : Output) : (s.emit o).appIn = s.appIn := rfl
@[simp] theorem State.emit_usbIn (o : Output) : (s.emit o).usbIn = s.usbIn := rfl
@[simp] theorem State.emit_issuer (o : Output) : (s.emit o).issuer = s.issuer := rfl
@[simp] theorem State.emit_sched (o : Output) : (s.emit o).sched = s.sched := rfl
@[simp] theorem State.emit_draws (o : Output) : (s.emit o).draws = s.draws := rfl
@[simp] theorem State.emit_free (o : Output) : (s.emit o).free = s.free := rfl

/-! A result word. -/

@[simp] theorem State.result_cfg (v : Word) : (s.result v).cfg = s.cfg := rfl
@[simp] theorem State.result_rx (v : Word) : (s.result v).rx = s.rx := rfl
@[simp] theorem State.result_tx (v : Word) : (s.result v).tx = s.tx := rfl
@[simp] theorem State.result_conn (v : Word) : (s.result v).conn = s.conn := rfl
@[simp] theorem State.result_connApp (v : Word) : (s.result v).connApp = s.connApp := rfl
@[simp] theorem State.result_pef (v : Word) : (s.result v).pef = s.pef := rfl
@[simp] theorem State.result_initDone (v : Word) : (s.result v).initDone = s.initDone := rfl
@[simp] theorem State.result_rxcbEn (v : Word) : (s.result v).rxcbEn = s.rxcbEn := rfl
@[simp] theorem State.result_rxcbUsb (v : Word) : (s.result v).rxcbUsb = s.rxcbUsb := rfl
@[simp] theorem State.result_appOp (v : Word) : (s.result v).appOp = s.appOp := rfl
@[simp] theorem State.result_usbOp (v : Word) : (s.result v).usbOp = s.usbOp := rfl
@[simp] theorem State.result_pkt (v : Word) : (s.result v).pkt = s.pkt := rfl
@[simp] theorem State.result_pktlen (v : Word) : (s.result v).pktlen = s.pktlen := rfl
@[simp] theorem State.result_refusal (v : Word) : (s.result v).refusal = s.refusal := rfl
@[simp] theorem State.result_out (v : Word) : (s.result v).out = s.out ++ [resultOutput s.issuer v] := rfl
@[simp] theorem State.result_appIn (v : Word) : (s.result v).appIn = s.appIn := rfl
@[simp] theorem State.result_usbIn (v : Word) : (s.result v).usbIn = s.usbIn := rfl
@[simp] theorem State.result_issuer (v : Word) : (s.result v).issuer = s.issuer := rfl
@[simp] theorem State.result_sched (v : Word) : (s.result v).sched = s.sched := rfl
@[simp] theorem State.result_draws (v : Word) : (s.result v).draws = s.draws := rfl
@[simp] theorem State.result_free (v : Word) : (s.result v).free = s.free := rfl

/-! A refusal. -/

@[simp] theorem State.refuse_cfg (r : RefuseReason) : (s.refuse r).cfg = s.cfg := rfl
@[simp] theorem State.refuse_rx (r : RefuseReason) : (s.refuse r).rx = s.rx := rfl
@[simp] theorem State.refuse_tx (r : RefuseReason) : (s.refuse r).tx = s.tx := rfl
@[simp] theorem State.refuse_conn (r : RefuseReason) : (s.refuse r).conn = s.conn := rfl
@[simp] theorem State.refuse_connApp (r : RefuseReason) : (s.refuse r).connApp = s.connApp := rfl
@[simp] theorem State.refuse_pef (r : RefuseReason) : (s.refuse r).pef = s.pef := rfl
@[simp] theorem State.refuse_initDone (r : RefuseReason) : (s.refuse r).initDone = s.initDone := rfl
@[simp] theorem State.refuse_rxcbEn (r : RefuseReason) : (s.refuse r).rxcbEn = s.rxcbEn := rfl
@[simp] theorem State.refuse_rxcbUsb (r : RefuseReason) : (s.refuse r).rxcbUsb = s.rxcbUsb := rfl
@[simp] theorem State.refuse_appOp (r : RefuseReason) : (s.refuse r).appOp = s.appOp := rfl
@[simp] theorem State.refuse_usbOp (r : RefuseReason) : (s.refuse r).usbOp = s.usbOp := rfl
@[simp] theorem State.refuse_pkt (r : RefuseReason) : (s.refuse r).pkt = s.pkt := rfl
@[simp] theorem State.refuse_pktlen (r : RefuseReason) : (s.refuse r).pktlen = s.pktlen := rfl
@[simp] theorem State.refuse_refusal (r : RefuseReason) : (s.refuse r).refusal = some { port := s.issuer, reason := r } := rfl
@[simp] theorem State.refuse_out (r : RefuseReason) : (s.refuse r).out = s.out := rfl
@[simp] theorem State.refuse_appIn (r : RefuseReason) : (s.refuse r).appIn = s.appIn := rfl
@[simp] theorem State.refuse_usbIn (r : RefuseReason) : (s.refuse r).usbIn = s.usbIn := rfl
@[simp] theorem State.refuse_issuer (r : RefuseReason) : (s.refuse r).issuer = s.issuer := rfl
@[simp] theorem State.refuse_sched (r : RefuseReason) : (s.refuse r).sched = s.sched := rfl
@[simp] theorem State.refuse_draws (r : RefuseReason) : (s.refuse r).draws = s.draws := rfl
@[simp] theorem State.refuse_free (r : RefuseReason) : (s.refuse r).free = s.free := rfl

/-! A write of the line state. -/

@[simp] theorem State.writeLS_cfg (v : Half) : (s.writeLS v).cfg = s.cfg := rfl
@[simp] theorem State.writeLS_rx (v : Half) : (s.writeLS v).rx = s.rx := rfl
@[simp] theorem State.writeLS_tx (v : Half) : (s.writeLS v).tx = s.tx := rfl
@[simp] theorem State.writeLS_conn (v : Half) : (s.writeLS v).conn = v.getLsbD 0 := rfl
@[simp] theorem State.writeLS_connApp (v : Half) : (s.writeLS v).connApp = s.connApp := rfl
@[simp] theorem State.writeLS_pef (v : Half) : (s.writeLS v).pef = s.pef := rfl
@[simp] theorem State.writeLS_initDone (v : Half) : (s.writeLS v).initDone = s.initDone := rfl
@[simp] theorem State.writeLS_rxcbEn (v : Half) : (s.writeLS v).rxcbEn = s.rxcbEn := rfl
@[simp] theorem State.writeLS_rxcbUsb (v : Half) : (s.writeLS v).rxcbUsb = s.rxcbUsb := rfl
@[simp] theorem State.writeLS_appOp (v : Half) : (s.writeLS v).appOp = s.appOp := rfl
@[simp] theorem State.writeLS_usbOp (v : Half) : (s.writeLS v).usbOp = s.usbOp := rfl
@[simp] theorem State.writeLS_pkt (v : Half) : (s.writeLS v).pkt = s.pkt := rfl
@[simp] theorem State.writeLS_pktlen (v : Half) : (s.writeLS v).pktlen = s.pktlen := rfl
@[simp] theorem State.writeLS_refusal (v : Half) : (s.writeLS v).refusal = s.refusal := rfl
@[simp] theorem State.writeLS_out (v : Half) : (s.writeLS v).out = s.out := rfl
@[simp] theorem State.writeLS_appIn (v : Half) : (s.writeLS v).appIn = s.appIn := rfl
@[simp] theorem State.writeLS_usbIn (v : Half) : (s.writeLS v).usbIn = s.usbIn := rfl
@[simp] theorem State.writeLS_issuer (v : Half) : (s.writeLS v).issuer = s.issuer := rfl
@[simp] theorem State.writeLS_sched (v : Half) : (s.writeLS v).sched = s.sched := rfl
@[simp] theorem State.writeLS_draws (v : Half) : (s.writeLS v).draws = s.draws := rfl
@[simp] theorem State.writeLS_free (v : Half) : (s.writeLS v).free = s.free := rfl

/-! A draw. -/

@[simp] theorem State.afterDraw_cfg : (s.afterDraw).cfg = s.cfg := by unfold State.afterDraw; split <;> rfl
@[simp] theorem State.afterDraw_rx : (s.afterDraw).rx = s.rx := by unfold State.afterDraw; split <;> rfl
@[simp] theorem State.afterDraw_tx : (s.afterDraw).tx = s.tx := by unfold State.afterDraw; split <;> rfl
@[simp] theorem State.afterDraw_conn : (s.afterDraw).conn = s.conn := by unfold State.afterDraw; split <;> rfl
@[simp] theorem State.afterDraw_connApp : (s.afterDraw).connApp = s.connApp := by unfold State.afterDraw; split <;> rfl
@[simp] theorem State.afterDraw_pef : (s.afterDraw).pef = s.pef := by unfold State.afterDraw; split <;> rfl
@[simp] theorem State.afterDraw_initDone : (s.afterDraw).initDone = s.initDone := by unfold State.afterDraw; split <;> rfl
@[simp] theorem State.afterDraw_rxcbEn : (s.afterDraw).rxcbEn = s.rxcbEn := by unfold State.afterDraw; split <;> rfl
@[simp] theorem State.afterDraw_rxcbUsb : (s.afterDraw).rxcbUsb = s.rxcbUsb := by unfold State.afterDraw; split <;> rfl
@[simp] theorem State.afterDraw_appOp : (s.afterDraw).appOp = s.appOp := by unfold State.afterDraw; split <;> rfl
@[simp] theorem State.afterDraw_usbOp : (s.afterDraw).usbOp = s.usbOp := by unfold State.afterDraw; split <;> rfl
@[simp] theorem State.afterDraw_pkt : (s.afterDraw).pkt = s.pkt := by unfold State.afterDraw; split <;> rfl
@[simp] theorem State.afterDraw_pktlen : (s.afterDraw).pktlen = s.pktlen := by unfold State.afterDraw; split <;> rfl
@[simp] theorem State.afterDraw_refusal : (s.afterDraw).refusal = s.refusal := by unfold State.afterDraw; split <;> rfl
@[simp] theorem State.afterDraw_out : (s.afterDraw).out = s.out := by unfold State.afterDraw; split <;> rfl
@[simp] theorem State.afterDraw_appIn : (s.afterDraw).appIn = s.appIn := by unfold State.afterDraw; split <;> rfl
@[simp] theorem State.afterDraw_usbIn : (s.afterDraw).usbIn = s.usbIn := by unfold State.afterDraw; split <;> rfl
@[simp] theorem State.afterDraw_issuer : (s.afterDraw).issuer = s.issuer := by unfold State.afterDraw; split <;> rfl
@[simp] theorem State.afterDraw_sched : (s.afterDraw).sched = s.sched := by unfold State.afterDraw; split <;> rfl

/-! The choice of an agent. -/

@[simp] theorem State.afterSched_cfg : (s.afterSched).cfg = s.cfg := by unfold State.afterSched; split <;> rfl
@[simp] theorem State.afterSched_rx : (s.afterSched).rx = s.rx := by unfold State.afterSched; split <;> rfl
@[simp] theorem State.afterSched_tx : (s.afterSched).tx = s.tx := by unfold State.afterSched; split <;> rfl
@[simp] theorem State.afterSched_conn : (s.afterSched).conn = s.conn := by unfold State.afterSched; split <;> rfl
@[simp] theorem State.afterSched_connApp : (s.afterSched).connApp = s.connApp := by unfold State.afterSched; split <;> rfl
@[simp] theorem State.afterSched_pef : (s.afterSched).pef = s.pef := by unfold State.afterSched; split <;> rfl
@[simp] theorem State.afterSched_initDone : (s.afterSched).initDone = s.initDone := by unfold State.afterSched; split <;> rfl
@[simp] theorem State.afterSched_rxcbEn : (s.afterSched).rxcbEn = s.rxcbEn := by unfold State.afterSched; split <;> rfl
@[simp] theorem State.afterSched_rxcbUsb : (s.afterSched).rxcbUsb = s.rxcbUsb := by unfold State.afterSched; split <;> rfl
@[simp] theorem State.afterSched_appOp : (s.afterSched).appOp = s.appOp := by unfold State.afterSched; split <;> rfl
@[simp] theorem State.afterSched_usbOp : (s.afterSched).usbOp = s.usbOp := by unfold State.afterSched; split <;> rfl
@[simp] theorem State.afterSched_pkt : (s.afterSched).pkt = s.pkt := by unfold State.afterSched; split <;> rfl
@[simp] theorem State.afterSched_pktlen : (s.afterSched).pktlen = s.pktlen := by unfold State.afterSched; split <;> rfl
@[simp] theorem State.afterSched_refusal : (s.afterSched).refusal = s.refusal := by unfold State.afterSched; split <;> rfl
@[simp] theorem State.afterSched_out : (s.afterSched).out = s.out := by unfold State.afterSched; split <;> rfl
@[simp] theorem State.afterSched_appIn : (s.afterSched).appIn = s.appIn := by unfold State.afterSched; split <;> rfl
@[simp] theorem State.afterSched_usbIn : (s.afterSched).usbIn = s.usbIn := by unfold State.afterSched; split <;> rfl
@[simp] theorem State.afterSched_issuer : (s.afterSched).issuer = s.issuer := by unfold State.afterSched; split <;> rfl
@[simp] theorem State.afterSched_draws : (s.afterSched).draws = s.draws := by unfold State.afterSched; split <;> rfl

/-! A FIFO replaced. -/

@[simp] theorem State.setFifo_cfg (f : Sel) (x : Fifo) : (s.setFifo f x).cfg = s.cfg := by cases f <;> rfl
@[simp] theorem State.setFifo_conn (f : Sel) (x : Fifo) : (s.setFifo f x).conn = s.conn := by cases f <;> rfl
@[simp] theorem State.setFifo_connApp (f : Sel) (x : Fifo) : (s.setFifo f x).connApp = s.connApp := by cases f <;> rfl
@[simp] theorem State.setFifo_pef (f : Sel) (x : Fifo) : (s.setFifo f x).pef = s.pef := by cases f <;> rfl
@[simp] theorem State.setFifo_initDone (f : Sel) (x : Fifo) : (s.setFifo f x).initDone = s.initDone := by cases f <;> rfl
@[simp] theorem State.setFifo_rxcbEn (f : Sel) (x : Fifo) : (s.setFifo f x).rxcbEn = s.rxcbEn := by cases f <;> rfl
@[simp] theorem State.setFifo_rxcbUsb (f : Sel) (x : Fifo) : (s.setFifo f x).rxcbUsb = s.rxcbUsb := by cases f <;> rfl
@[simp] theorem State.setFifo_appOp (f : Sel) (x : Fifo) : (s.setFifo f x).appOp = s.appOp := by cases f <;> rfl
@[simp] theorem State.setFifo_usbOp (f : Sel) (x : Fifo) : (s.setFifo f x).usbOp = s.usbOp := by cases f <;> rfl
@[simp] theorem State.setFifo_pkt (f : Sel) (x : Fifo) : (s.setFifo f x).pkt = s.pkt := by cases f <;> rfl
@[simp] theorem State.setFifo_pktlen (f : Sel) (x : Fifo) : (s.setFifo f x).pktlen = s.pktlen := by cases f <;> rfl
@[simp] theorem State.setFifo_refusal (f : Sel) (x : Fifo) : (s.setFifo f x).refusal = s.refusal := by cases f <;> rfl
@[simp] theorem State.setFifo_out (f : Sel) (x : Fifo) : (s.setFifo f x).out = s.out := by cases f <;> rfl
@[simp] theorem State.setFifo_appIn (f : Sel) (x : Fifo) : (s.setFifo f x).appIn = s.appIn := by cases f <;> rfl
@[simp] theorem State.setFifo_usbIn (f : Sel) (x : Fifo) : (s.setFifo f x).usbIn = s.usbIn := by cases f <;> rfl
@[simp] theorem State.setFifo_issuer (f : Sel) (x : Fifo) : (s.setFifo f x).issuer = s.issuer := by cases f <;> rfl
@[simp] theorem State.setFifo_sched (f : Sel) (x : Fifo) : (s.setFifo f x).sched = s.sched := by cases f <;> rfl
@[simp] theorem State.setFifo_draws (f : Sel) (x : Fifo) : (s.setFifo f x).draws = s.draws := by cases f <;> rfl
@[simp] theorem State.setFifo_free (f : Sel) (x : Fifo) : (s.setFifo f x).free = s.free := by cases f <;> rfl

@[simp] theorem State.setFifo_fifo (f : Sel) (x : Fifo) : (s.setFifo f x).fifo f = x := by cases f <;> rfl
@[simp] theorem State.setFifo_rx_rx (x : Fifo) : (s.setFifo .rx x).rx = x := rfl
@[simp] theorem State.setFifo_rx_tx (x : Fifo) : (s.setFifo .rx x).tx = s.tx := rfl
@[simp] theorem State.setFifo_tx_rx (x : Fifo) : (s.setFifo .tx x).rx = s.rx := rfl
@[simp] theorem State.setFifo_tx_tx (x : Fifo) : (s.setFifo .tx x).tx = x := rfl
@[simp] theorem State.fifo_rx : s.fifo .rx = s.rx := rfl
@[simp] theorem State.fifo_tx : s.fifo .tx = s.tx := rfl
@[simp] theorem State.writeLC_eq (data : List Byte) : s.writeLC data = s := rfl
@[simp] theorem State.readLC_eq : s.readLC = LineCoding.fixed := rfl

/-! The views (10_state.md R39), one line each. -/

@[simp] theorem State.viewPut_producer (f : Sel) : s.viewPut (producer f) f = (s.fifo f).put := by
  cases f <;> rfl
@[simp] theorem State.viewGet_consumer (f : Sel) : s.viewGet (consumer f) f = (s.fifo f).get := by
  cases f <;> rfl
@[simp] theorem State.viewGet_producer (f : Sel) : s.viewGet (producer f) f = (s.fifo f).getCopy := by
  cases f <;> rfl
@[simp] theorem State.viewPut_consumer (f : Sel) : s.viewPut (consumer f) f = (s.fifo f).putCopy := by
  cases f <;> rfl
@[simp] theorem State.viewPut_app_rx : s.viewPut .app .rx = s.rx.putCopy := rfl
@[simp] theorem State.viewGet_app_rx : s.viewGet .app .rx = s.rx.get := rfl
@[simp] theorem State.viewPut_usb_rx : s.viewPut .usb .rx = s.rx.put := rfl
@[simp] theorem State.viewGet_usb_rx : s.viewGet .usb .rx = s.rx.getCopy := rfl
@[simp] theorem State.viewPut_app_tx : s.viewPut .app .tx = s.tx.put := rfl
@[simp] theorem State.viewGet_app_tx : s.viewGet .app .tx = s.tx.getCopy := rfl
@[simp] theorem State.viewPut_usb_tx : s.viewPut .usb .tx = s.tx.putCopy := rfl
@[simp] theorem State.viewGet_usb_tx : s.viewGet .usb .tx = s.tx.get := rfl

/-! Going on with an operation's value. -/

@[simp] theorem andThen_next {α β : Type} (a : α) (k : α → Result β) : andThen (.next a) k = k a := rfl
@[simp] theorem andThen_fault {α β : Type} (r : Fault) (k : α → Result β) : andThen (.fault r : Result α) k = .fault r := rfl
@[simp] theorem andThen_refused {α β : Type} (r : Refusal) (k : α → Result β) :
    andThen (.refused r : Result α) k = .refused r := rfl

/-- A port test that passes. -/
@[simp] theorem onPort_true (k : Result State) : onPort true s k = k := rfl

/-- A port test that fails refuses with `RF_DOMAIN`. -/
@[simp] theorem onPort_false (k : Result State) : onPort false s k = .next (s.refuse .domain) := rfl

theorem onPort_pos {allowed : Bool} (h : allowed = true) (k : Result State) : onPort allowed s k = k := by
  rw [h]; rfl

theorem onPort_neg {allowed : Bool} (h : allowed = false) (k : Result State) :
    onPort allowed s k = .next (s.refuse .domain) := by rw [h]; rfl

end Sys2Proof.Machine
end

