-- ==== Sys2Proof/Laws/Transfer.lean ====
section
/-! SUPPORT. One lemma per shared operation that moves bytes: under a legal configuration each answers a next value,
and which one. Later proofs cite these instead of unfolding the operations. -/

namespace Sys2Proof.Machine

open Sys2Proof.Safety

variable {s : State}

/-- Bytes that fit before the physical end are stored at `put`. -/
theorem append_eq (f : Sel) (bytes : List Byte) (h : s.cfg.ix f (s.fifo f).put + bytes.length ≤ s.cfg.cap f) :
    append f bytes s = .next (s.setFifo f (appended s.cfg f (s.fifo f) bytes)) := by
  unfold append memWrite
  rw [State.viewPut_producer, if_pos h]
  rfl

/-- Bytes before the physical end are read at `get`. -/
theorem peek_eq (f : Sel) (n : Nat) (h : s.cfg.ix f (s.fifo f).get + n ≤ s.cfg.cap f) :
    peek f n s = .next (Memory.readBytes (s.fifo f).data (s.cfg.ix f (s.fifo f).get) n) := by
  unfold peek memRead
  rw [State.viewGet_consumer, if_pos h]

theorem advance_eq (f : Sel) (n : Nat) : advance f n s = s.setFifo f (taken s.cfg (s.fifo f) n) := by
  unfold advance
  rw [State.viewGet_consumer]
  rfl

/-- `push` into a view that is full (40_ring_buffer.md R112). -/
theorem pushByte_full (f : Sel) (b : Byte) (h : s.cfg.occ (s.fifo f).put (s.fifo f).getCopy = s.cfg.cap f) :
    pushByte f b s = .next (false, s) := by
  unfold pushByte State.occOf
  rw [State.viewPut_producer, State.viewGet_producer, if_pos h]

/-- `push` into a view with room (R112). -/
theorem pushByte_room (hc : s.cfg.legal = true) (f : Sel) (b : Byte)
    (h : s.cfg.occ (s.fifo f).put (s.fifo f).getCopy ≠ s.cfg.cap f) :
    pushByte f b s = .next (true, s.setFifo f (appended s.cfg f (s.fifo f) [b])) := by
  unfold pushByte State.occOf
  rw [State.viewPut_producer, State.viewGet_producer, if_neg h, append_eq, andThen_next]
  have := Config.ix_lt hc f (s.fifo f).put
  simp only [List.length_singleton]; omega

/-- `pop` from a view that is empty (40_ring_buffer.md R113). -/
theorem popByte_empty (f : Sel) (h : s.cfg.occ (s.fifo f).putCopy (s.fifo f).get = 0) :
    popByte f s = .next (none, s) := by
  unfold popByte State.occOf
  rw [State.viewPut_consumer, State.viewGet_consumer, if_pos h]

/-- `pop` from a view that holds a byte (R113). -/
theorem popByte_some (hc : s.cfg.legal = true) (f : Sel)
    (h : s.cfg.occ (s.fifo f).putCopy (s.fifo f).get ≠ 0) :
    popByte f s = .next (some (Memory.read (s.fifo f).data (s.cfg.ix f (s.fifo f).get)),
      s.setFifo f (taken s.cfg (s.fifo f) 1)) := by
  unfold popByte State.occOf
  rw [State.viewPut_consumer, State.viewGet_consumer, if_neg h, peek_eq]
  · rw [andThen_next, advance_eq]; rfl
  · have := Config.ix_lt hc f (s.fifo f).get
    omega

/-- What a push can do: nothing when full, else one byte appended. -/
theorem pushByte_cases {f : Sel} {b : Byte} {r : Bool × State} (h : pushByte f b s = .next r) :
    (s.cfg.occ (s.fifo f).put (s.fifo f).getCopy = s.cfg.cap f ∧ r = (false, s)) ∨
    (s.cfg.occ (s.fifo f).put (s.fifo f).getCopy ≠ s.cfg.cap f ∧
      r = (true, s.setFifo f (appended s.cfg f (s.fifo f) [b]))) := by
  by_cases hf : s.cfg.occ (s.fifo f).put (s.fifo f).getCopy = s.cfg.cap f
  · rw [pushByte_full f b hf] at h
    exact .inl ⟨hf, by simpa using h.symm⟩
  · refine .inr ⟨hf, ?_⟩
    unfold pushByte State.occOf append memWrite at h
    rw [State.viewPut_producer, State.viewGet_producer, if_neg hf] at h
    split at h <;> simp only [andThen_next, andThen_fault, Host.Outcome.next.injEq, reduceCtorEq] at h
    rw [← h]; rfl

/-- What a pop can do: nothing when empty, else the oldest byte taken. -/
theorem popByte_cases {f : Sel} {r : Option Byte × State} (h : popByte f s = .next r) :
    (s.cfg.occ (s.fifo f).putCopy (s.fifo f).get = 0 ∧ r = (none, s)) ∨
    (s.cfg.occ (s.fifo f).putCopy (s.fifo f).get ≠ 0 ∧
      r = (some (Memory.read (s.fifo f).data (s.cfg.ix f (s.fifo f).get)),
        s.setFifo f (taken s.cfg (s.fifo f) 1))) := by
  by_cases he : s.cfg.occ (s.fifo f).putCopy (s.fifo f).get = 0
  · rw [popByte_empty f he] at h
    exact .inl ⟨he, by simpa using h.symm⟩
  · refine .inr ⟨he, ?_⟩
    unfold popByte State.occOf peek memRead at h
    rw [State.viewPut_consumer, State.viewGet_consumer, if_neg he] at h
    split at h <;> simp only [andThen_next, andThen_fault, Host.Outcome.next.injEq, reduceCtorEq] at h
    rw [← h, advance_eq]; rfl

/-- A packet inside the buffer is read. -/
theorem packet_eq (i n : Nat) (h : i + n ≤ mpsBulk) : packet i n s = .next (Memory.readBytes s.pkt i n) := by
  unfold packet memRead
  rw [if_pos h]

/-- A packet of at most 64 bytes is loaded. -/
theorem loadPacket_eq (bytes : List Byte) (h : bytes.length ≤ mpsBulk) :
    loadPacket bytes s = .next { s with pkt := Memory.writeBytes s.pkt 0 bytes, pktlen := bytes.length } := by
  unfold loadPacket memWrite
  rw [if_pos (by omega)]
  rfl

/-- A result on the USB port. -/
theorem State.result_usb (h : s.issuer = .usb) (v : Word) : s.result v = { s with out := s.out ++ [.usbRes v] } := by
  unfold State.result State.emit resultOutput
  rw [h]

/-- A result on the APP port. -/
theorem State.result_app (h : s.issuer = .app) (v : Word) : s.result v = { s with out := s.out ++ [.appRes v] } := by
  unfold State.result State.emit resultOutput
  rw [h]

/-- An operation followed by another answers a next value only through the first's. -/
theorem andThen_eq_next {α β : Type} {o : Result α} {k : α → Result β} {b : β} (h : andThen o k = .next b) :
    ∃ a, o = .next a ∧ k a = .next b := by
  cases o with
  | next a => exact ⟨a, rfl, h⟩
  | fault r => simp at h
  | refused r => simp at h

end Sys2Proof.Machine
end

