-- ==== Sys2Proof/Laws/Effects.lean ====
section
/-! SUPPORT. What one command or micro-step of a port can do, said once: how each FIFO moves, which fields it can
write, which outputs it can emit. Later proofs cite this instead of unfolding the meanings. -/

namespace Sys2Proof.Machine

open Sys2Proof.Safety

/-- `n` more bytes fit: contiguously, and by the producer's view. -/
def Fits (c : Config) (f : Sel) (x : Fifo) (n : Nat) : Prop :=
  c.ix f x.put + n ≤ c.cap f ∧ (n ≤ c.cap f - c.occ x.put x.getCopy ∨ n = 1 ∧ c.occ x.put x.getCopy ≠ c.cap f)

/-- What a step of port `d` can do to a FIFO: nothing, or append at the producer's end, or take at the consumer's. -/
def FifoMoves (d : Domain) (c : Config) (f : Sel) (x y : Fifo) : Prop :=
  y = x ∨ (d = producer f ∧ ∃ bytes, Fits c f x bytes.length ∧ y = appended c f x bytes) ∨
    (d = consumer f ∧ ∃ n, n ≤ c.occ x.putCopy x.get ∧ y = taken c x n)

/-- What a command or a micro-step of a port can do. -/
structure Moves (s t : State) : Prop where
  cfg : t.cfg = s.cfg
  rx : FifoMoves s.issuer s.cfg .rx s.rx t.rx
  tx : FifoMoves s.issuer s.cfg .tx s.tx t.tx
  connApp : t.connApp = s.connApp
  rxcbUsb : t.rxcbUsb = s.rxcbUsb
  issuer : t.issuer = s.issuer
  appIn : t.appIn = s.appIn
  usbIn : t.usbIn = s.usbIn
  sched : t.sched = s.sched
  appSide : t.initDone = s.initDone ∧ t.rxcbEn = s.rxcbEn ∧ t.appOp = s.appOp ∨ s.issuer = .app
  usbSide : t.conn = s.conn ∧ t.pef = s.pef ∧ t.usbOp = s.usbOp ∧ t.pkt = s.pkt ∧ t.pktlen = s.pktlen ∨
    s.issuer = .usb
  out : ∃ os, t.out = s.out ++ os ∧ ∀ o ∈ os, outputOk o
  refusal : t.refusal = s.refusal ∨ t.out = s.out ∧ ∃ r, t = s.refuse r

theorem FifoMoves.refl (d : Domain) (c : Config) (f : Sel) (x : Fifo) : FifoMoves d c f x x := .inl rfl

theorem outputOk_result (d : Domain) (v : Word) : outputOk (resultOutput d v) := by cases d <;> trivial

theorem Moves.refl (s : State) : Moves s s :=
  ⟨rfl, .refl .., .refl .., rfl, rfl, rfl, rfl, rfl, rfl, .inl ⟨rfl, rfl, rfl⟩, .inl ⟨rfl, rfl, rfl, rfl, rfl⟩,
    ⟨[], by simp⟩, .inl rfl⟩

theorem Moves.refuse (s : State) (r : RefuseReason) : Moves s (s.refuse r) :=
  ⟨rfl, .refl .., .refl .., rfl, rfl, rfl, rfl, rfl, rfl, .inl ⟨rfl, rfl, rfl⟩, .inl ⟨rfl, rfl, rfl, rfl, rfl⟩,
    ⟨[], by simp⟩, .inr ⟨rfl, r, rfl⟩⟩

/-- A step that did `s` to `t` and then answers. -/
theorem Moves.result {s t : State} (h : Moves s t) (hr : t.refusal = s.refusal) (v : Word) : Moves s (t.result v) := by
  obtain ⟨os, ho, hok⟩ := h.out
  refine ⟨h.cfg, h.rx, h.tx, h.connApp, h.rxcbUsb, h.issuer, h.appIn, h.usbIn, h.sched, h.appSide, h.usbSide,
    ⟨os ++ [resultOutput t.issuer v], ?_, ?_⟩, .inl hr⟩
  · simp [ho]
  · intro o hmem
    rcases List.mem_append.1 hmem with hmem | hmem
    · exact hok o hmem
    · rw [List.mem_singleton.1 hmem]; exact outputOk_result ..

/-- A command that only answers. -/
theorem Moves.answered (s : State) (v : Word) : Moves s (s.result v) := (Moves.refl s).result rfl v

/-- What a port test can do. -/
theorem onPort_eq_next {allowed : Bool} {s t : State} {k : Result State} (h : onPort allowed s k = .next t) :
    (allowed = true ∧ k = .next t) ∨ (allowed = false ∧ t = s.refuse .domain) := by
  cases allowed
  · exact .inr ⟨rfl, by simpa using h.symm⟩
  · exact .inl ⟨rfl, h⟩

/-- A meaning behind a port test: the refusal, or its effect on that port. -/
theorem moves_onPort {d : Domain} {s t : State} {k : Result State} (h : onPort (s.issuer == d) s k = .next t)
    (hk : s.issuer = d → k = .next t → Moves s t) : Moves s t := by
  rcases onPort_eq_next h with ⟨hd, h⟩ | ⟨-, rfl⟩
  · exact hk (by simpa using hd) h
  · exact .refuse s _

/-- A FIFO moved and nothing else. -/
theorem moves_setFifo {s : State} {f : Sel} {x : Fifo} (h : FifoMoves s.issuer s.cfg f (s.fifo f) x) :
    Moves s (s.setFifo f x) := by
  cases f
  · exact ⟨rfl, h, .refl .., rfl, rfl, rfl, rfl, rfl, rfl, .inl ⟨rfl, rfl, rfl⟩, .inl ⟨rfl, rfl, rfl, rfl, rfl⟩,
      ⟨[], by simp⟩, .inl rfl⟩
  · exact ⟨rfl, .refl .., h, rfl, rfl, rfl, rfl, rfl, rfl, .inl ⟨rfl, rfl, rfl⟩, .inl ⟨rfl, rfl, rfl, rfl, rfl⟩,
      ⟨[], by simp⟩, .inl rfl⟩

theorem pushByte_moves {f : Sel} {b : Byte} {s : State} {r : Bool × State} (hi : s.issuer = producer f)
    (h : pushByte f b s = .next r) : Moves s r.2 ∧ r.2.refusal = s.refusal := by
  by_cases hfit : s.cfg.ix f (s.fifo f).put + 1 ≤ s.cfg.cap f
  · rcases pushByte_cases h with ⟨-, rfl⟩ | ⟨hne, rfl⟩
    · exact ⟨.refl s, rfl⟩
    · exact ⟨moves_setFifo (.inr (.inl ⟨hi, [b], ⟨hfit, .inr ⟨rfl, hne⟩⟩, rfl⟩)), by simp⟩
  · unfold pushByte append memWrite at h
    simp only [State.viewPut_producer, List.length_singleton, if_neg hfit, andThen_fault] at h
    split at h
    · cases h; exact ⟨.refl s, rfl⟩
    · cases h

theorem popByte_moves {f : Sel} {s : State} {r : Option Byte × State} (hi : s.issuer = consumer f)
    (h : popByte f s = .next r) : Moves s r.2 ∧ r.2.refusal = s.refusal := by
  rcases popByte_cases h with ⟨-, rfl⟩ | ⟨hne, rfl⟩
  · exact ⟨.refl s, rfl⟩
  · exact ⟨moves_setFifo (.inr (.inr ⟨hi, 1, by omega, rfl⟩)), by simp⟩

theorem rbPush_moves {f : Sel} {b : Byte} {s t : State} (h : rbPush f b s = .next t) : Moves s t := by
  refine moves_onPort h fun hi h => ?_
  obtain ⟨⟨acc, u⟩, hp, h⟩ := andThen_eq_next h
  cases h
  obtain ⟨hm, hr⟩ := pushByte_moves hi hp
  exact hm.result hr _

theorem rbPop_moves {f : Sel} {s t : State} (h : rbPop f s = .next t) : Moves s t := by
  refine moves_onPort h fun hi h => ?_
  obtain ⟨⟨b, u⟩, hp, h⟩ := andThen_eq_next h
  cases h
  obtain ⟨hm, hr⟩ := popByte_moves hi hp
  exact hm.result hr _

/-- The application's own registers written, and an answer. -/
theorem moves_appSide {s : State} (hi : s.issuer = .app) (initDone rxcbEn : Bool) (op : AppOp) (draws : List Bool)
    (free : Nat) : Moves s { s with initDone, rxcbEn, appOp := op, draws, free } :=
  ⟨rfl, .refl .., .refl .., rfl, rfl, rfl, rfl, rfl, rfl, .inr hi, .inl ⟨rfl, rfl, rfl, rfl, rfl⟩, ⟨[], by simp⟩, .inl rfl⟩

theorem State.afterDraw_record (s : State) : s.afterDraw = { s with draws := s.afterDraw.draws, free := s.afterDraw.free } := by
  unfold State.afterDraw; split <;> rfl

theorem execInit_moves {s t : State} (h : execInit s = .next t) : Moves s t := by
  refine moves_onPort h fun hi h => ?_
  split at h <;> cases h
  · exact .refuse s _
  · rw [State.afterDraw_record s]
    refine Moves.result ?_ ?_ _
    · exact moves_appSide hi ..
    · rfl

theorem execRecvByte_moves {s t : State} (h : execRecvByte s = .next t) : Moves s t := by
  refine moves_onPort h fun hi h => ?_
  obtain ⟨⟨b, u⟩, hp, h⟩ := andThen_eq_next h
  cases h
  obtain ⟨hm, hr⟩ := popByte_moves (f := .rx) hi hp
  exact hm.result hr _

theorem execSendByte_moves {b : Byte} {s t : State} (h : execSendByte b s = .next t) : Moves s t := by
  refine moves_onPort h fun hi h => ?_
  obtain ⟨⟨acc, u⟩, hp, h⟩ := andThen_eq_next h
  cases h
  obtain ⟨hm, hr⟩ := pushByte_moves (f := .tx) hi hp
  exact hm.result hr _

theorem execSend_moves {bytes : List Byte} {s t : State} (h : execSend bytes s = .next t) : Moves s t := by
  refine moves_onPort h fun hi h => ?_
  split at h <;> cases h
  · exact .answered s _
  · exact moves_appSide hi ..

/-- The in-flight state of the APP agent written last. -/
theorem Moves.setAppOp {s t : State} (h : Moves s t) (hi : s.issuer = .app) (hr : t.refusal = s.refusal) (op : AppOp) :
    Moves s { t with appOp := op } :=
  ⟨h.cfg, h.rx, h.tx, h.connApp, h.rxcbUsb, h.issuer, h.appIn, h.usbIn, h.sched, .inr hi, h.usbSide, h.out, .inl hr⟩

theorem sendStep_moves {bytes : List Byte} {i a : Nat} {s t : State} (hi : s.issuer = .app)
    (h : sendStep bytes i a s = .next t) : Moves s t := by
  unfold sendStep at h
  split at h
  · cases h
    refine Moves.result ?_ ?_ _
    · exact (Moves.refl s).setAppOp hi rfl _
    · rfl
  · obtain ⟨⟨acc, u⟩, hp, h⟩ := andThen_eq_next h
    obtain ⟨hm, hr⟩ := pushByte_moves (f := .tx) hi hp
    dsimp only at h hm hr
    split at h <;> cases h
    · refine Moves.result ?_ ?_ _
      · exact hm.setAppOp hi hr _
      · exact hr
    · exact hm.setAppOp hi hr _

theorem pollEnd_moves {s t : State} (hi : s.issuer = .app) (h : pollEnd s = .next t) : Moves s t := by
  unfold pollEnd at h
  split at h <;> cases h
  · refine Moves.result ?_ ?_ _
    · exact (Moves.refl s).setAppOp hi rfl _
    · rfl
  · exact .refl s

/-- Outputs emitted and registers of the USB side written. -/
theorem moves_usbSide {s : State} (hi : s.issuer = .usb) (conn pef : Bool) (op : UsbOp) (pkt : Memory) (pktlen : Nat)
    (draws : List Bool) (free : Nat) (os : List Output) (hos : ∀ o ∈ os, outputOk o) :
    Moves s { s with conn, pef, usbOp := op, pkt, pktlen, draws, free, out := s.out ++ os } :=
  ⟨rfl, .refl .., .refl .., rfl, rfl, rfl, rfl, rfl, rfl, .inl ⟨rfl, rfl, rfl⟩, .inr hi, ⟨os, rfl, hos⟩, .inl rfl⟩

theorem answer_moves {s : State} (hi : s.issuer = .usb) (v : Verdict) (data : List Byte) : Moves s (answer v data s) := by
  have h := moves_usbSide hi s.conn s.pef s.usbOp s.pkt s.pktlen s.draws s.free [.ctrl v data] (by simp [outputOk])
  exact h.result rfl _

@[simp] theorem State.writeLS_drawn (s : State) (v : Half) : (s.writeLS v).drawn = s.drawn := rfl

@[simp] theorem State.writeLS_afterDraw (s : State) (v : Half) : (s.writeLS v).afterDraw = s.afterDraw.writeLS v := by
  unfold State.afterDraw State.writeLS; cases s.draws <;> rfl

/-- What the line-state request does: `CONN` from bit 0, the notification if it was taken, the verdict. -/
theorem lineStateRequest_eq (v : Half) (s : State) :
    lineStateRequest v s =
      ({ (if s.cfg.serialStateNotify then s.afterDraw else s) with
        conn := v.getLsbD 0,
        out := s.out ++ (if s.cfg.serialStateNotify && s.drawn then [.notify epIntIn (s.cfg.serialStateBytes v)] else [])
          ++ [.ctrl .handled []] } : State).result 1#32 := by
  unfold lineStateRequest answer notification
  rw [State.writeLS_cfg, State.writeLS_drawn, State.writeLS_afterDraw]
  cases s.cfg.serialStateNotify
  · simp [State.emit, State.writeLS, verdictWord]
  · cases s.drawn <;> simp [State.emit, State.writeLS, verdictWord]

@[simp] theorem length_serialStateBytes (c : Config) (v : Half) : (c.serialStateBytes v).length = ssLen := rfl

theorem lineStateRequest_moves {s : State} (hi : s.issuer = .usb) (v : Half) : Moves s (lineStateRequest v s) := by
  rw [lineStateRequest_eq]
  have key : ∀ u : State, u = { s with draws := u.draws, free := u.free } →
      Moves s (({ u with
        conn := v.getLsbD 0,
        out := s.out ++ (if s.cfg.serialStateNotify && s.drawn then [.notify epIntIn (s.cfg.serialStateBytes v)] else [])
          ++ [.ctrl .handled []] } : State).result 1#32) := by
    intro u hu
    rw [hu, List.append_assoc]
    refine (moves_usbSide hi _ s.pef s.usbOp s.pkt s.pktlen u.draws u.free _ ?_).result rfl _
    intro o ho
    split at ho <;> simp at ho
    · rcases ho with rfl | rfl
      · exact ⟨rfl, rfl⟩
      · trivial
    · subst ho; trivial
  split
  · exact key _ (State.afterDraw_record s)
  · exact key _ rfl

theorem setCodingRequest_eq (wLength : Half) (data : List Byte) (s : State) :
    setCodingRequest wLength data s = answer (if 7 ≤ wLength.toNat then .handled else .notSupported) [] s := by
  unfold setCodingRequest; rw [State.writeLC_eq]; split <;> rfl

theorem execEvSetup_moves {p : SetupPacket} {stage : List Byte} {s t : State} (h : execEvSetup p stage s = .next t) :
    Moves s t := by
  refine moves_onPort h fun hi h => ?_
  cases h
  split
  · exact answer_moves hi ..
  · split
    · exact lineStateRequest_moves hi _
    · split
      · rw [setCodingRequest_eq]; exact answer_moves hi ..
      · split <;> exact answer_moves hi ..

theorem execEvReset_moves {s t : State} (h : execEvReset s = .next t) : Moves s t := by
  refine moves_onPort h fun hi h => ?_
  cases h
  have := moves_usbSide hi false s.pef s.usbOp s.pkt s.pktlen s.draws s.free [] (by simp)
  rw [List.append_nil] at this
  exact this.result rfl _

theorem packet_eq_next {i n : Nat} {s : State} {bytes : List Byte} (h : packet i n s = .next bytes) :
    i + n ≤ mpsBulk ∧ bytes = Memory.readBytes s.pkt i n := by
  unfold packet memRead at h
  split at h <;> cases h
  exact ⟨‹_›, rfl⟩

theorem append_eq_next {f : Sel} {bytes : List Byte} {s t : State} (h : append f bytes s = .next t) :
    s.cfg.ix f (s.fifo f).put + bytes.length ≤ s.cfg.cap f ∧
      t = s.setFifo f (appended s.cfg f (s.fifo f) bytes) := by
  by_cases hf : s.cfg.ix f (s.fifo f).put + bytes.length ≤ s.cfg.cap f
  · rw [append_eq f bytes hf] at h
    cases h; exact ⟨hf, rfl⟩
  · unfold append memWrite at h
    rw [State.viewPut_producer, if_neg hf, andThen_fault] at h
    cases h

theorem peek_eq_next {f : Sel} {n : Nat} {s : State} {bytes : List Byte} (h : peek f n s = .next bytes) :
    s.cfg.ix f (s.fifo f).get + n ≤ s.cfg.cap f ∧
      bytes = Memory.readBytes (s.fifo f).data (s.cfg.ix f (s.fifo f).get) n := by
  by_cases hf : s.cfg.ix f (s.fifo f).get + n ≤ s.cfg.cap f
  · rw [peek_eq f n hf] at h
    cases h; exact ⟨hf, rfl⟩
  · unfold peek memRead at h
    rw [State.viewGet_consumer, if_neg hf] at h
    cases h

theorem loadPacket_eq_next {bytes : List Byte} {s t : State} (h : loadPacket bytes s = .next t) :
    bytes.length ≤ mpsBulk ∧ t = { s with pkt := Memory.writeBytes s.pkt 0 bytes, pktlen := bytes.length } := by
  by_cases hf : bytes.length ≤ mpsBulk
  · rw [loadPacket_eq bytes hf] at h
    cases h; exact ⟨hf, rfl⟩
  · unfold loadPacket memWrite at h
    rw [if_neg (by omega), andThen_fault] at h
    cases h

/-- Calling the callback emits at most one output. -/
theorem callback_eq (bytes : List Byte) (s : State) :
    callback bytes s = { s with out := s.out ++ if s.rxcbUsb then [.rxCallback bytes] else [] } := by
  unfold callback; split <;> simp [State.emit]

theorem Moves.callback {s t : State} (h : Moves s t) (hr : t.refusal = s.refusal) {bytes : List Byte}
    (hb : bytes.length ≤ mpsBulk) : Moves s (callback bytes t) := by
  rw [callback_eq]
  obtain ⟨os, ho, hok⟩ := h.out
  refine ⟨h.cfg, h.rx, h.tx, h.connApp, h.rxcbUsb, h.issuer, h.appIn, h.usbIn, h.sched, h.appSide, h.usbSide,
    ⟨os ++ (if t.rxcbUsb then [.rxCallback bytes] else []), ?_, ?_⟩, .inl hr⟩
  · simp [ho]
  · intro o hmem
    rcases List.mem_append.1 hmem with hmem | hmem
    · exact hok o hmem
    · split at hmem
      · rw [List.mem_singleton.1 hmem]; exact hb
      · cases hmem

/-- FIFOs moved, registers of the USB side written and outputs emitted. -/
theorem moves_usb {s : State} {x y : Fifo} (hi : s.issuer = .usb) (hx : FifoMoves .usb s.cfg .rx s.rx x)
    (hy : FifoMoves .usb s.cfg .tx s.tx y) (conn pef : Bool) (op : UsbOp) (pkt : Memory) (pktlen : Nat)
    (draws : List Bool) (free : Nat) (os : List Output) (hos : ∀ o ∈ os, outputOk o) :
    Moves s { s with rx := x, tx := y, conn, pef, usbOp := op, pkt, pktlen, draws, free, out := s.out ++ os } :=
  ⟨rfl, by rw [hi]; exact hx, by rw [hi]; exact hy, rfl, rfl, rfl, rfl, rfl, rfl, .inl ⟨rfl, rfl, rfl⟩, .inr hi,
    ⟨os, rfl, hos⟩, .inl rfl⟩

theorem callback_ok {b : Bool} {bytes : List Byte} (hb : bytes.length ≤ mpsBulk) :
    ∀ o ∈ (if b then [Output.rxCallback bytes] else []), outputOk o := by
  intro o ho
  split at ho
  · rw [List.mem_singleton.1 ho]; exact hb
  · cases ho

theorem execEvBulkOut_moves {bytes : List Byte} {s t : State} (h : execEvBulkOut bytes s = .next t) : Moves s t := by
  refine moves_onPort h fun hi h => ?_
  obtain ⟨u, hu, h⟩ := andThen_eq_next h
  obtain ⟨hlen, rfl⟩ := loadPacket_eq_next hu
  split at h
  · obtain ⟨b, hb, h⟩ := andThen_eq_next h
    obtain ⟨hle, rfl⟩ := packet_eq_next hb
    cases h
    rw [callback_eq]
    refine Moves.result ?_ ?_ _
    · exact moves_usb hi (.refl ..) (.refl ..) s.conn s.pef s.usbOp _ _ s.draws s.free _ (callback_ok (by simpa using hle))
    · rfl
  · by_cases hsp : mpsBulk ≤ State.cspace { s with pkt := Memory.writeBytes s.pkt 0 bytes, pktlen := bytes.length } .usb .rx
    · rw [if_pos hsp] at h
      unfold fastPath at h
      obtain ⟨b, hb, h⟩ := andThen_eq_next h
      obtain ⟨v, hv, h⟩ := andThen_eq_next h
      obtain ⟨hle, rfl⟩ := packet_eq_next hb
      obtain ⟨hend, rfl⟩ := append_eq_next hv
      cases h
      rw [callback_eq]
      refine Moves.result ?_ ?_ _
      · refine moves_usb hi (.inr (.inl ⟨rfl, _, ⟨hend, .inl ?_⟩, rfl⟩)) (.refl ..) s.conn s.pef s.usbOp _ _ s.draws
          s.free _ (callback_ok (by simpa using hle))
        simp only [State.cspace, State.occOf, State.viewPut_usb_rx, State.viewGet_usb_rx] at hsp
        simp only [Memory.length_readBytes]
        exact Nat.le_trans hlen (Nat.le_trans hsp (Nat.min_le_left ..))
      · rfl
    · rw [if_neg hsp] at h
      cases h
      have := moves_usb hi (.refl ..) (.refl ..) s.conn s.pef (.rx bytes.length 0 false) (Memory.writeBytes s.pkt 0 bytes)
        bytes.length s.draws s.free [] (by simp)
      rwa [List.append_nil] at this

theorem rxStep_moves {len i : Nat} {drop : Bool} {s t : State} (hi : s.issuer = .usb)
    (h : rxStep len i drop s = .next t) : Moves s t := by
  have base : ∀ (x : Fifo) (op : UsbOp), FifoMoves .usb s.cfg .rx s.rx x → Moves s { s with rx := x, usbOp := op } := by
    intro x op hx
    have := moves_usb hi hx (.refl ..) s.conn s.pef op s.pkt s.pktlen s.draws s.free [] (by simp)
    rwa [List.append_nil] at this
  unfold rxStep at h
  split at h
  · by_cases hd : drop = false ∧ s.occOf .usb .rx < s.cfg.cap .rx
    · rw [if_pos hd] at h
      obtain ⟨b, hb, h⟩ := andThen_eq_next h
      obtain ⟨v, hv, h⟩ := andThen_eq_next h
      obtain ⟨hle, rfl⟩ := packet_eq_next hb
      obtain ⟨hend, rfl⟩ := append_eq_next hv
      cases h
      refine base _ _ (.inr (.inl ⟨rfl, _, ⟨hend, .inl ?_⟩, rfl⟩))
      have hd := hd.2
      simp only [State.occOf, State.viewPut_usb_rx, State.viewGet_usb_rx] at hd
      simp only [Memory.length_readBytes]
      omega
    · rw [if_neg hd] at h
      cases h; exact base _ _ (.refl ..)
  · obtain ⟨b, hb, h⟩ := andThen_eq_next h
    obtain ⟨hle, rfl⟩ := packet_eq_next hb
    cases h
    rw [callback_eq]
    refine Moves.result ?_ ?_ _
    · exact moves_usb hi (.refl ..) (.refl ..) s.conn s.pef .idle s.pkt s.pktlen s.draws s.free _
        (callback_ok (by simpa using hle))
    · rfl

theorem sendPacket_moves {c : Nat} {s t : State} (hi : s.issuer = .usb) (hc : c ≤ s.clen .usb .tx) (h64 : c ≤ mpsBulk)
    (h : sendPacket c s = .next t) : Moves s t := by
  obtain ⟨b, hb, h⟩ := andThen_eq_next h
  obtain ⟨hend, rfl⟩ := peek_eq_next hb
  cases h
  have hdraw := State.afterDraw_record s
  split
  · rw [advance_eq, hdraw]
    refine Moves.result ?_ ?_ _
    · refine moves_usb hi (.refl ..) (.inr (.inr ⟨rfl, c, ?_, rfl⟩)) s.conn _ s.usbOp s.pkt s.pktlen _ _ [_] ?_
      · simp only [State.clen, State.occOf, State.viewPut_usb_tx, State.viewGet_usb_tx] at hc; omega
      · intro o ho
        rw [List.mem_singleton.1 ho]
        exact ⟨rfl, by simpa using h64⟩
    · rfl
  · rw [hdraw]
    refine Moves.result ?_ ?_ _
    · have := moves_usb hi (.refl ..) (.refl ..) s.conn s.pef s.usbOp s.pkt s.pktlen s.afterDraw.draws s.afterDraw.free
        [] (by simp)
      rwa [List.append_nil] at this
    · rfl

theorem execEvSof_moves {s t : State} (h : execEvSof s = .next t) : Moves s t := by
  refine moves_onPort h fun hi h => ?_
  split at h
  · cases h; exact .answered s _
  · split at h
    · cases h; exact .answered s _
    · exact sendPacket_moves hi (Nat.min_le_left ..) (Nat.min_le_right ..) h

/-- An answer behind a port test. -/
theorem answered_onPort_moves {allowed : Bool} {v : Word} {s t : State}
    (h : onPort allowed s (.next (s.result v)) = .next t) : Moves s t := by
  rcases onPort_eq_next h with ⟨-, h⟩ | ⟨-, rfl⟩
  · cases h; exact .answered s v
  · exact .refuse s _

theorem answered_moves {v : Word} {s t : State} (h : (.next (s.result v) : Result State) = .next t) : Moves s t := by
  cases h; exact .answered s v

/-- What any command can do. -/
theorem exec_moves {i : Instr} {s t : State} (h : exec i s = .next t) : Moves s t := by
  cases i with
  | rbPushRx b | rbPushTx b => exact rbPush_moves h
  | rbPopRx | rbPopTx => exact rbPop_moves h
  | rbLenRx | rbLenTx | rbIsFullRx | rbIsFullTx | rbIsEmptyRx | rbIsEmptyTx | rbContigSpaceRx | rbContigSpaceTx
  | rbContigLenRx | rbContigLenTx => exact answered_moves h
  | init => exact execInit_moves h
  | connected | available | evDataIn ep => exact answered_onPort_moves h
  | recvByte => exact execRecvByte_moves h
  | sendByte b => exact execSendByte_moves h
  | send bytes => exact execSend_moves h
  | poll => exact moves_onPort h fun hi h => by cases h; exact (Moves.refl s).setAppOp hi rfl _
  | setRxCallback en =>
    refine moves_onPort h fun hi h => ?_
    cases h
    refine Moves.result ?_ ?_ _
    · exact moves_appSide hi ..
    · rfl
  | evReset => exact execEvReset_moves h
  | evSetup p stage => exact execEvSetup_moves h
  | evBulkOut bytes => exact execEvBulkOut_moves h
  | evSof => exact execEvSof_moves h
  | setLineCoding dir v ix l =>
    exact moves_onPort h fun hi h => by cases h; rw [setCodingRequest_eq]; exact answer_moves hi ..
  | setControlLineState dir v ix l => exact moves_onPort h fun hi h => by cases h; exact lineStateRequest_moves hi _
  | getLineCoding dir v ix l => exact moves_onPort h fun hi h => by cases h; exact answer_moves hi ..
  | classInterfaceUnsupported dir r v ix l => exact moves_onPort h fun hi h => by cases h; exact answer_moves hi ..
  | notRouted p => exact moves_onPort h fun hi h => by cases h; exact answer_moves hi ..

/-- A FIFO's counters are written by their own side only (10_state.md R35). -/
theorem FifoMoves.sides {d : Domain} {c : Config} {f : Sel} {x y : Fifo} (h : FifoMoves d c f x y) :
    (d ≠ producer f → y.put = x.put ∧ y.data = x.data) ∧ (d ≠ consumer f → y.get = x.get) := by
  rcases h with rfl | ⟨hd, bytes, -, rfl⟩ | ⟨hd, n, -, rfl⟩
  · simp
  · exact ⟨fun h => absurd hd h, fun _ => rfl⟩
  · exact ⟨fun _ => ⟨rfl, rfl⟩, fun h => absurd hd h⟩

/-- No command writes a copy (10_state.md R38). -/
theorem FifoMoves.copies {d : Domain} {c : Config} {f : Sel} {x y : Fifo} (h : FifoMoves d c f x y) :
    y.putCopy = x.putCopy ∧ y.getCopy = x.getCopy := by
  rcases h with rfl | ⟨hd, bytes, -, rfl⟩ | ⟨hd, n, -, rfl⟩ <;> exact ⟨rfl, rfl⟩

/-- `RB_PUSH` from the producer, on the counters themselves. -/
theorem rbPush_eq (f : Sel) (b : Byte) {s : State} (hc : s.cfg.legal = true) (hi : s.issuer = producer f) :
    rbPush f b s = .next (if s.cfg.occ (s.fifo f).put (s.fifo f).getCopy = s.cfg.cap f then s.result 0#32
      else (s.setFifo f (appended s.cfg f (s.fifo f) [b])).result 1#32) := by
  unfold rbPush
  rw [onPort_pos _ (by rw [hi]; cases f <;> rfl)]
  split
  · next h => rw [pushByte_full f b h]; rfl
  · next h => rw [pushByte_room hc f b h]; rfl

/-- `RB_POP` from the consumer, on the counters themselves. -/
theorem rbPop_eq (f : Sel) {s : State} (hc : s.cfg.legal = true) (hi : s.issuer = consumer f) :
    rbPop f s = .next (if s.cfg.occ (s.fifo f).putCopy (s.fifo f).get = 0 then s.result 0#32
      else (s.setFifo f (taken s.cfg (s.fifo f) 1)).result
        (0x100#32 ||| (Memory.read (s.fifo f).data (s.cfg.ix f (s.fifo f).get)).setWidth 32)) := by
  unfold rbPop
  rw [onPort_pos _ (by rw [hi]; cases f <;> rfl)]
  split
  · next h => rw [popByte_empty f h]; rfl
  · next h => rw [popByte_some hc f h]; rfl

end Sys2Proof.Machine
end

