-- ==== Sys2Proof/Laws/PerInstr.lean ====
section
/-! SUPPORT. A statement about every instruction as syntax: a well-formed instruction's encoding is legal in every
field, whatever its operands (30_encoding.md R86 to R90, R92, R95). -/

namespace Sys2Proof.Laws.EncodesLegally

/-- The encoding has a form the spec allows: a command word with a known opcode, `RSV` 0, `SEL` 1 only where it is
read, no `IMM16` bit above the opcode's field and the payload length of R90; or the 8 bytes of a setup packet that is a
class request to an interface, for every request but the one that is not routed. -/
def Legal (i : Instr) : Code → Prop
  | .cmd32 e =>
    ∃ op, opcodeOf (opField e.word) = some op ∧ rsvField e.word = 0#7 ∧
      (selField e.word = true → op.usesSel = true) ∧ immField e.word >>> op.immBits = 0#16 ∧
      (match op with
        | .send | .evBulkOut => e.payload.length = (immField e.word).toNat
        | .evSetup => ∃ p stage, splitSetup e.payload = some (p, stage) ∧ stage.length = p.stageLen
        | _ => e.payload = [])
  | .setup64 bytes =>
    ∃ p, splitSetup bytes = some (p, []) ∧ p.isClassInterface = (match i with
      | .notRouted _ => false
      | _ => true)

def Statement (i : Instr) : Prop := i.wf = true → Legal i (encode i)

/-- A command without payload. -/
theorem plain {i : Instr} {op : Opcode} {sel : Bool} {imm : Half} (h : encode i = plainElem op sel imm)
    (hs : sel = true → op.usesSel = true) (hi : imm >>> op.immBits = 0#16)
    (ho : op ≠ .send ∧ op ≠ .evBulkOut ∧ op ≠ .evSetup) : Statement i := by
  intro _
  rw [h]
  refine ⟨op, by simp, by simp, by simpa using hs, by simpa using hi, ?_⟩
  cases op <;> first | rfl | simp_all

theorem byte_fits (b : Byte) : immOfByte b >>> 8 = 0#16 := by revert b; decide

theorem classPacket_isClassInterface (dir : Bool) (r : Byte) (v x l : Half) :
    (classPacket dir r v x l).isClassInterface = true := by
  cases dir <;> simp [classPacket, SetupPacket.isClassInterface]

theorem rbPushRx (b : Byte) : Statement (.rbPushRx b) := plain rfl (by decide) (byte_fits b) (by decide)
theorem rbPushTx (b : Byte) : Statement (.rbPushTx b) := plain rfl (by decide) (byte_fits b) (by decide)
theorem rbPopRx : Statement .rbPopRx := plain rfl (by decide) (by decide) (by decide)
theorem rbPopTx : Statement .rbPopTx := plain rfl (by decide) (by decide) (by decide)
theorem rbLenRx : Statement .rbLenRx := plain rfl (by decide) (by decide) (by decide)
theorem rbLenTx : Statement .rbLenTx := plain rfl (by decide) (by decide) (by decide)
theorem rbIsFullRx : Statement .rbIsFullRx := plain rfl (by decide) (by decide) (by decide)
theorem rbIsFullTx : Statement .rbIsFullTx := plain rfl (by decide) (by decide) (by decide)
theorem rbIsEmptyRx : Statement .rbIsEmptyRx := plain rfl (by decide) (by decide) (by decide)
theorem rbIsEmptyTx : Statement .rbIsEmptyTx := plain rfl (by decide) (by decide) (by decide)
theorem rbContigSpaceRx : Statement .rbContigSpaceRx := plain rfl (by decide) (by decide) (by decide)
theorem rbContigSpaceTx : Statement .rbContigSpaceTx := plain rfl (by decide) (by decide) (by decide)
theorem rbContigLenRx : Statement .rbContigLenRx := plain rfl (by decide) (by decide) (by decide)
theorem rbContigLenTx : Statement .rbContigLenTx := plain rfl (by decide) (by decide) (by decide)
theorem init : Statement .init := plain rfl (by decide) (by decide) (by decide)
theorem connected : Statement .connected := plain rfl (by decide) (by decide) (by decide)
theorem available : Statement .available := plain rfl (by decide) (by decide) (by decide)
theorem recvByte : Statement .recvByte := plain rfl (by decide) (by decide) (by decide)
theorem sendByte (b : Byte) : Statement (.sendByte b) := plain rfl (by decide) (byte_fits b) (by decide)

theorem send (bytes : List Byte) : Statement (.send bytes) := by
  intro hw
  have hl : bytes.length < 65536 := by simpa [Instr.wf, sendFits] using hw
  refine ⟨.send, by simp, by simp, by simp, ?_, ?_⟩
  · simp only [Opcode.immBits]
    exact BitVec.ushiftRight_eq_zero (by omega)
  · simp [Nat.mod_eq_of_lt hl]

theorem poll : Statement .poll := plain rfl (by decide) (by decide) (by decide)
theorem setRxCallback (en : Bool) : Statement (.setRxCallback en) :=
  plain rfl (by decide) (by cases en <;> decide) (by decide)
theorem evReset : Statement .evReset := plain rfl (by decide) (by decide) (by decide)

theorem evSetup (packet : SetupPacket) (stage : List Byte) : Statement (.evSetup packet stage) := by
  intro hw
  refine ⟨.evSetup, by simp, by simp, by simp, by simp, packet, stage, splitSetup_bytes _ _, ?_⟩
  simpa [Instr.wf, stageFits] using hw

theorem evBulkOut (bytes : List Byte) : Statement (.evBulkOut bytes) := by
  intro hw
  have hl : bytes.length ≤ 64 := by simpa [Instr.wf, packetFits] using hw
  refine ⟨.evBulkOut, by simp, by simp, by simp, ?_, ?_⟩
  · simp only [Opcode.immBits]
    exact BitVec.ushiftRight_eq_zero (by omega)
  · simp
    omega

theorem evSof : Statement .evSof := plain rfl (by decide) (by decide) (by decide)
theorem evDataIn (ep : Byte) : Statement (.evDataIn ep) := plain rfl (by decide) (byte_fits ep) (by decide)

theorem setLineCoding (dir : Bool) (wValue wIndex wLength : Half) : Statement (.setLineCoding dir wValue wIndex wLength) :=
  fun _ => ⟨_, splitSetup_bytes_nil _, classPacket_isClassInterface ..⟩

theorem getLineCoding (dir : Bool) (wValue wIndex wLength : Half) : Statement (.getLineCoding dir wValue wIndex wLength) :=
  fun _ => ⟨_, splitSetup_bytes_nil _, classPacket_isClassInterface ..⟩

theorem setControlLineState (dir : Bool) (wValue wIndex wLength : Half) :
    Statement (.setControlLineState dir wValue wIndex wLength) :=
  fun _ => ⟨_, splitSetup_bytes_nil _, classPacket_isClassInterface ..⟩

theorem classInterfaceUnsupported (dir : Bool) (bRequest : Byte) (wValue wIndex wLength : Half) :
    Statement (.classInterfaceUnsupported dir bRequest wValue wIndex wLength) :=
  fun _ => ⟨_, splitSetup_bytes_nil _, classPacket_isClassInterface ..⟩

theorem notRouted (packet : SetupPacket) : Statement (.notRouted packet) :=
  fun hw => ⟨packet, splitSetup_bytes_nil _, by simpa [Instr.wf, packetNotRouted] using hw⟩

end Sys2Proof.Laws.EncodesLegally
end

