-- ==== Sys2Proof/Laws/Step.lean ====
section
/-! SUPPORT. What a step can do, said once: which agent goes, what it takes from its port, and the command or micro-step
it then runs; and that every such step keeps the invariant of the FIFOs. -/

namespace Sys2Proof.Machine

open Sys2Proof.Safety

/-- The fields a step's preamble writes: the schedule, the free-value counter, the issuing port. -/
theorem State.afterSched_record (s : State) :
    s.afterSched = { s with sched := s.afterSched.sched, free := s.afterSched.free } := by
  unfold State.afterSched; split <;> rfl

theorem State.nextAgent_cons {s : State} {a : Agent} {rest : List Agent} (h : s.sched = a :: rest) :
    s.nextAgent = a := by
  unfold State.nextAgent; rw [h]

theorem State.afterSched_cons {s : State} {a : Agent} {rest : List Agent} (h : s.sched = a :: rest) :
    s.afterSched = { s with sched := rest } := by
  unfold State.afterSched; rw [h]

/-- A step of a legal machine that no refusal has ended. -/
theorem step_eq {s : State} (hc : s.cfg.legal = true) (hr : s.refusedBit = false) :
    step s = agentStep s.nextAgent s.afterSched := by
  unfold step machineStep
  rw [hc, hr]; rfl

/-- A step that ENV has scheduled. -/
theorem step_scheduled {s : State} {a : Agent} {rest : List Agent} (hc : s.cfg.legal = true) (hr : s.refusedBit = false)
    (h : s.sched = a :: rest) : step s = agentStep a { s with sched := rest } := by
  rw [step_eq hc hr, State.nextAgent_cons h, State.afterSched_cons h]

/-- One chosen step. -/
theorem turn_eq {a : Agent} {s : State} (hc : s.cfg.legal = true) (hr : s.refusedBit = false) :
    turn a s = agentStep a { s with sched := [] } := by
  unfold turn
  rw [step_scheduled (s := { s with sched := [a] }) hc hr rfl]

/-- One step of a synchroniser. -/
theorem turn_sync {c : Copy} {s : State} (hc : s.cfg.legal = true) (hr : s.refusedBit = false) :
    turn (.sync c) s = .next (syncStep c { s with sched := [] }) := by
  rw [turn_eq hc hr]; rfl

/-- The first step of a list of agents' steps, and the others. -/
theorem runs_cons_eq_next {a : Agent} {agents : List Agent} {s t : State} (h : runs (a :: agents) s = .next t) :
    ∃ u, turn a s = .next u ∧ runs agents u = .next t := andThen_eq_next h

theorem step_eq_next {s t : State} (h : step s = .next t) :
    s.cfg.legal = true ∧ s.refusedBit = false ∧ agentStep s.nextAgent s.afterSched = .next t := by
  unfold step machineStep at h
  split at h
  · cases h
  · split at h
    · cases h
    · next h1 h2 => exact ⟨by simpa using h1, by simpa using h2, h⟩

/-- What a step of the APP agent can do. -/
theorem appStep_cases {s t : State} (h : appStep s = .next t) :
    (t = s ∧ s.appOp = .idle ∧ s.appIn.pending = []) ∨
    (∃ bytes i a, s.appOp = .send bytes i a ∧ sendStep bytes i a s = .next t) ∨
    (s.appOp = .poll ∧ pollEnd s = .next t) ∨
    (s.appOp = .idle ∧ ∃ e rest, s.appIn.pending = e :: rest ∧
      runElem e { s with appIn := { taken := s.appIn.taken + 1, pending := rest } } = .next t) := by
  unfold appStep at h
  split at h
  · exact .inr (.inl ⟨_, _, _, ‹_›, h⟩)
  · exact .inr (.inr (.inl ⟨‹_›, h⟩))
  · split at h
    · cases h; exact .inl ⟨rfl, ‹_›, ‹_›⟩
    · exact .inr (.inr (.inr ⟨‹_›, _, _, ‹_›, h⟩))

/-- What a step of the USB agent can do. -/
theorem usbStep_cases {s t : State} (h : usbStep s = .next t) :
    (t = s ∧ s.usbOp = .idle ∧ (s.usbIn.pending = [] ∨ ∃ e rest, s.usbIn.pending = e :: rest ∧ gated e s = true)) ∨
    (∃ len i drop, s.usbOp = .rx len i drop ∧ rxStep len i drop s = .next t) ∨
    (s.usbOp = .idle ∧ ∃ e rest, s.usbIn.pending = e :: rest ∧ gated e s = false ∧
      runElem e { s with usbIn := { taken := s.usbIn.taken + 1, pending := rest } } = .next t) := by
  unfold usbStep at h
  split at h
  · exact .inr (.inl ⟨_, _, _, ‹_›, h⟩)
  · split at h
    · cases h; exact .inl ⟨rfl, ‹_›, .inl ‹_›⟩
    · next e rest hp =>
      by_cases hg : gated e s = true
      · rw [if_pos hg] at h
        cases h; exact .inl ⟨rfl, ‹_›, .inr ⟨e, rest, hp, hg⟩⟩
      · rw [if_neg hg] at h
        exact .inr (.inr ⟨‹_›, e, rest, hp, by simpa using hg, h⟩)

/-- What running an element can do. -/
theorem runElem_cases {e : StreamElem} {s t : State} (h : runElem e s = .next t) :
    (∃ r, decode (.cmd32 e) = .error r ∧ t = s.refuse (.encoding r)) ∨
    (∃ i, decode (.cmd32 e) = .ok i ∧ exec i s = .next t) := by
  unfold runElem at h
  split at h
  · cases h; exact .inl ⟨_, ‹_›, rfl⟩
  · exact .inr ⟨_, ‹_›, h⟩

theorem runElem_moves {e : StreamElem} {s t : State} (h : runElem e s = .next t) : Moves s t := by
  rcases runElem_cases h with ⟨r, -, rfl⟩ | ⟨i, -, h⟩
  · exact .refuse s _
  · exact exec_moves h

/-- A step of the APP agent takes at most one element and then does what its port can do. -/
theorem appStep_moves {s t : State} (hi : s.issuer = .app) (h : appStep s = .next t) :
    ∃ p, Moves { s with appIn := p } t := by
  rcases appStep_cases h with ⟨rfl, -⟩ | ⟨bytes, i, a, -, h⟩ | ⟨-, h⟩ | ⟨-, e, rest, -, h⟩
  · exact ⟨t.appIn, .refl t⟩
  · exact ⟨s.appIn, sendStep_moves hi h⟩
  · exact ⟨s.appIn, pollEnd_moves hi h⟩
  · exact ⟨_, runElem_moves h⟩

/-- A step of the USB agent takes at most one element and then does what its port can do. -/
theorem usbStep_moves {s t : State} (hi : s.issuer = .usb) (h : usbStep s = .next t) :
    ∃ p, Moves { s with usbIn := p } t := by
  rcases usbStep_cases h with ⟨rfl, -⟩ | ⟨len, i, drop, -, h⟩ | ⟨-, e, rest, -, -, h⟩
  · exact ⟨t.usbIn, .refl t⟩
  · exact ⟨s.usbIn, rxStep_moves hi h⟩
  · exact ⟨_, runElem_moves h⟩

/-- What any step can do. -/
theorem step_moves {s t : State} (h : step s = .next t) :
    (s.nextAgent = .app ∧ ∃ p, Moves { s.afterSched with issuer := .app, appIn := p } t) ∨
    (s.nextAgent = .usb ∧ ∃ p, Moves { s.afterSched with issuer := .usb, usbIn := p } t) ∨
    ∃ c, s.nextAgent = .sync c ∧ t = syncStep c s.afterSched := by
  obtain ⟨-, -, h⟩ := step_eq_next h
  cases ha : s.nextAgent with
  | app => rw [ha] at h; exact .inl ⟨rfl, appStep_moves rfl h⟩
  | usb => rw [ha] at h; exact .inr (.inl ⟨rfl, usbStep_moves rfl h⟩)
  | sync c => rw [ha] at h; cases h; exact .inr (.inr ⟨c, rfl, rfl⟩)

/-- A FIFO of the invariant stays one. -/
theorem FifoMoves.inv {d : Domain} {c : Config} {f : Sel} {x y : Fifo} (hc : c.legal = true) (h : FifoMoves d c f x y)
    (hx : FifoInv c f x) : FifoInv c f y := by
  have hb := hx.bounded
  rcases h with rfl | ⟨-, bytes, ⟨hend, hfree⟩, rfl⟩ | ⟨-, n, hn, rfl⟩
  · exact hx
  · exact hx.appended hc (by omega) (by omega)
  · exact hx.taken hn hc

/-- A SYNC step of a copy that equals its source changes nothing (10_state.md R56). -/
theorem syncStep_synced {c : Copy} {s : State} (h : copyOf c s = sourceOf c s) : syncStep c s = s := by
  obtain ⟨cfg, ⟨d1, p1, g1, pc1, gc1⟩, ⟨d2, p2, g2, pc2, gc2⟩⟩ := s
  have hb : ∀ a b : Bool, a.toNat = b.toNat → b = a := by decide
  cases c <;> simp only [copyOf, sourceOf] at h <;> simp only [syncStep]
  · rw [h]
  · rw [h]
  · rw [h]
  · rw [h]
  · rw [hb _ _ h]
  · rw [hb _ _ h]

end Sys2Proof.Machine
end

