-- ==== Sys2Proof/Machine/Text.lean ====
section
/-! DEFINITION. The text syntax of the commands (30_encoding.md R103) as a printer, and the pseudo-commands of R104 as
their expansions. Nothing of the machine reads either. -/

namespace Sys2Proof.Machine

/-- A byte string `[b0, b1, ...]` in decimal. -/
def bytesText (bytes : List Byte) : String :=
  "[" ++ String.intercalate ", " (bytes.map fun b => toString b.toNat) ++ "]"

/-- The operands `t, r, v, i, l` of a setup packet. -/
def setupText (p : SetupPacket) : String :=
  "ev.setup " ++ String.intercalate ", "
    ([p.bmRequestType.toNat, p.bRequest.toNat, p.wValue.toNat, p.wIndex.toNat, p.wLength.toNat].map toString)

/-- The line of a command (R103); a control request is the `ev.setup` that carries it. -/
def instrText : Instr → String
  | .rbPushRx b => "rb.push rx, " ++ toString b.toNat
  | .rbPushTx b => "rb.push tx, " ++ toString b.toNat
  | .rbPopRx => "rb.pop rx"
  | .rbPopTx => "rb.pop tx"
  | .rbLenRx => "rb.len rx"
  | .rbLenTx => "rb.len tx"
  | .rbIsFullRx => "rb.full rx"
  | .rbIsFullTx => "rb.full tx"
  | .rbIsEmptyRx => "rb.empty rx"
  | .rbIsEmptyTx => "rb.empty tx"
  | .rbContigSpaceRx => "rb.cspace rx"
  | .rbContigSpaceTx => "rb.cspace tx"
  | .rbContigLenRx => "rb.clen rx"
  | .rbContigLenTx => "rb.clen tx"
  | .init => "init"
  | .connected => "connected"
  | .available => "available"
  | .recvByte => "recv"
  | .sendByte b => "send.b " ++ toString b.toNat
  | .send bytes => "send " ++ bytesText bytes
  | .poll => "poll"
  | .setRxCallback en => "rxcb " ++ (if en then "on" else "off")
  | .evReset => "ev.reset"
  | .evSetup p stage => setupText p ++ (if stage = [] then "" else ", " ++ bytesText stage)
  | .evBulkOut bytes => "ev.out " ++ bytesText bytes
  | .evSof => "ev.sof"
  | .evDataIn ep => "ev.in " ++ toString ep.toNat
  | .setLineCoding dir v i l => setupText (classPacket dir 0x20#8 v i l)
  | .getLineCoding dir v i l => setupText (classPacket dir 0x21#8 v i l)
  | .setControlLineState dir v i l => setupText (classPacket dir 0x22#8 v i l)
  | .classInterfaceUnsupported dir r v i l => setupText (classPacket dir r v i l)
  | .notRouted p => setupText p

/-- A line with the prefix of its port (R103). -/
def lineText (d : Domain) (i : Instr) : String :=
  (match d with
    | .app => "app: "
    | .usb => "usb: ") ++ instrText i

/-- The pseudo-commands (R104). The text cannot write `drain`'s loop, so it has the number of calls a program makes. -/
inductive Pseudo where
  | lineState (v : Half)
  | setCoding (bytes : List Byte)
  | getCoding
  | sendEach (bytes : List Byte)
  | drain (calls : Nat)
  deriving DecidableEq, Repr

/-- The expansion of a pseudo-command (R104). -/
def expand : Pseudo → List Instr
  | .lineState v => [.evSetup { bmRequestType := 0x21#8, bRequest := 0x22#8, wValue := v, wIndex := 0#16, wLength := 0#16 } []]
  | .setCoding bytes =>
    [.evSetup { bmRequestType := 0x21#8, bRequest := 0x20#8, wValue := 0#16, wIndex := 0#16, wLength := 7#16 } bytes]
  | .getCoding => [.evSetup { bmRequestType := 0xA1#8, bRequest := 0x21#8, wValue := 0#16, wIndex := 0#16, wLength := 7#16 } []]
  | .sendEach bytes => bytes.map .sendByte
  | .drain calls => List.replicate calls .recvByte

end Sys2Proof.Machine
end

