-- ==== Sys2Proof/Tests/Slice0.lean ====
section
/-! SUPPORT. Tests: the checks of WellFormed refuse, written-out words decode, one step gives what 95_test_vectors.md
says; and for every obligation with hypotheses a named witness that meets them. -/

namespace Sys2Proof.Tests

open Sys2Proof.Machine
open Sys2Proof.Safety

/-! Small states. -/

/-- The outcome is a next state with the property. -/
def holds (o : Result State) (p : State → Bool) : Bool :=
  match o with
  | .next s => p s
  | .fault _ => false
  | .refused _ => false

theorem exists_of_holds {o : Result State} {p : State → Bool} (h : holds o p = true) :
    ∃ t, o = .next t ∧ p t = true := by
  cases o with
  | next t => exact ⟨t, rfl, h⟩
  | fault _ => cases h
  | refused _ => cases h

/-- The outputs of one step, if it gives a next state. -/
def outs (o : Result State) : Option (List Output) :=
  match o with
  | .next s => some s.out
  | .fault _ => none
  | .refused _ => none

def cmd (w : Word) (payload : List Byte) : StreamElem := { word := w, payload }

/-- The APP agent is next, with this element before it. -/
def onAppPort (w : Word) (payload : List Byte) (s : State) : State :=
  { s with sched := [.app], issuer := .app, appIn := { taken := 0, pending := [cmd w payload] } }

/-- The USB agent is next, with this element before it. -/
def onUsbPort (w : Word) (payload : List Byte) (s : State) : State :=
  { s with sched := [.usb], issuer := .usb, usbIn := { taken := 0, pending := [cmd w payload] } }

def app (w : Word) (payload : List Byte) (s : State) : Result State := step (onAppPort w payload s)
def usb (w : Word) (payload : List Byte) (s : State) : Result State := step (onUsbPort w payload s)

/-- A FIFO whose copies are current, its storage all zero unless given. -/
def fifo (put get : Nat) (data : Memory) : Fifo := { data, put, get, putCopy := put, getCopy := get }

/-- TC-B after power-on reset, its FIFOs given. -/
def smallWith (rx tx : Fifo) : State := { State.por tcB with rx, tx }

/-- TC-A, initialised and connected, its FIFOs given. -/
def bigWith (rx tx : Fifo) : State :=
  { State.por tcA with rx, tx, initDone := true, conn := true, connApp := true }

/-- TC-A, initialised. -/
def ready : State := { State.por tcA with initDone := true }

/-- TC-C, initialised. -/
def readyC : State := { State.por tcC with initDone := true }

/-- RX of TC-B full of `abcd`. -/
def abcd : Fifo := fifo 4 0 [(0, 0x61#8), (1, 0x62#8), (2, 0x63#8), (3, 0x64#8)]

/-! WellFormed: one ill-formed term for each check. -/

theorem test_wf_send_too_long : ∀ bytes : List Byte, bytes.length = 65536 → (Instr.send bytes).wf = false := by
  intro bytes h
  simp [Instr.wf, sendFits, h]

theorem test_wf_bulk_out_too_long : (Instr.evBulkOut (List.replicate 65 0#8)).wf = false := by decide

theorem test_wf_setup_stage_missing :
    (Instr.evSetup ⟨0x21#8, 0x20#8, 0#16, 0#16, 7#16⟩ []).wf = false := by decide

theorem test_wf_unsupported_is_known :
    (Instr.classInterfaceUnsupported false 0x22#8 0#16 0#16 0#16).wf = false := by decide

theorem test_wf_not_routed_is_routed : (Instr.notRouted ⟨0xA1#8, 0x22#8, 0#16, 0#16, 0#16⟩).wf = false := by decide

/-! Decoding: words written out from 30_encoding.md R86 and R91, OP in bits 31:24, SEL bit 23, IMM16 bits 15:0. -/

theorem test_decode_ring_buffer_words :
    decode (.cmd32 (cmd 0x01000041#32 [])) = .ok (.rbPushRx 0x41#8) ∧
    decode (.cmd32 (cmd 0x01800041#32 [])) = .ok (.rbPushTx 0x41#8) ∧
    decode (.cmd32 (cmd 0x02000000#32 [])) = .ok .rbPopRx ∧
    decode (.cmd32 (cmd 0x02800000#32 [])) = .ok .rbPopTx ∧
    decode (.cmd32 (cmd 0x03000000#32 [])) = .ok .rbLenRx ∧
    decode (.cmd32 (cmd 0x03800000#32 [])) = .ok .rbLenTx ∧
    decode (.cmd32 (cmd 0x04000000#32 [])) = .ok .rbIsFullRx ∧
    decode (.cmd32 (cmd 0x04800000#32 [])) = .ok .rbIsFullTx ∧
    decode (.cmd32 (cmd 0x05000000#32 [])) = .ok .rbIsEmptyRx ∧
    decode (.cmd32 (cmd 0x05800000#32 [])) = .ok .rbIsEmptyTx ∧
    decode (.cmd32 (cmd 0x06000000#32 [])) = .ok .rbContigSpaceRx ∧
    decode (.cmd32 (cmd 0x06800000#32 [])) = .ok .rbContigSpaceTx ∧
    decode (.cmd32 (cmd 0x07000000#32 [])) = .ok .rbContigLenRx ∧
    decode (.cmd32 (cmd 0x07800000#32 [])) = .ok .rbContigLenTx := by decide

theorem test_decode_byte_stream_words :
    decode (.cmd32 (cmd 0x10000000#32 [])) = .ok .init ∧
    decode (.cmd32 (cmd 0x11000000#32 [])) = .ok .connected ∧
    decode (.cmd32 (cmd 0x12000000#32 [])) = .ok .available ∧
    decode (.cmd32 (cmd 0x13000000#32 [])) = .ok .recvByte ∧
    decode (.cmd32 (cmd 0x14000041#32 [])) = .ok (.sendByte 0x41#8) ∧
    decode (.cmd32 (cmd 0x15000002#32 [0x68#8, 0x69#8])) = .ok (.send [0x68#8, 0x69#8]) ∧
    decode (.cmd32 (cmd 0x16000000#32 [])) = .ok .poll ∧
    decode (.cmd32 (cmd 0x17000001#32 [])) = .ok (.setRxCallback true) ∧
    decode (.cmd32 (cmd 0x17000000#32 [])) = .ok (.setRxCallback false) := by decide

theorem test_decode_event_words :
    decode (.cmd32 (cmd 0x20000000#32 [])) = .ok .evReset ∧
    decode (.cmd32 (cmd 0x21000000#32
      [0x21#8, 0x20#8, 0#8, 0#8, 0#8, 0#8, 7#8, 0#8, 0x80#8, 0x25#8, 0#8, 0#8, 0#8, 0#8, 8#8])) =
      .ok (.evSetup ⟨0x21#8, 0x20#8, 0#16, 0#16, 7#16⟩ [0x80#8, 0x25#8, 0#8, 0#8, 0#8, 0#8, 8#8]) ∧
    decode (.cmd32 (cmd 0x21000000#32 [0xA1#8, 0x21#8, 0#8, 0#8, 0#8, 0#8, 7#8, 0#8])) =
      .ok (.evSetup ⟨0xA1#8, 0x21#8, 0#16, 0#16, 7#16⟩ []) ∧
    decode (.cmd32 (cmd 0x22000002#32 [0x68#8, 0x69#8])) = .ok (.evBulkOut [0x68#8, 0x69#8]) ∧
    decode (.cmd32 (cmd 0x22000040#32 (List.replicate 64 1#8))) = .ok (.evBulkOut (List.replicate 64 1#8)) ∧
    decode (.cmd32 (cmd 0x23000000#32 [])) = .ok .evSof ∧
    decode (.cmd32 (cmd 0x24000083#32 [])) = .ok (.evDataIn 0x83#8) := by decide

/-- The setup packets of V-CR1, V-CR4, V-CR5, V-CR7, V-CR10, V-CR11 and V-CR14 (95_test_vectors.md 2.4), and the
little-endian fields of R92. -/
theorem test_decode_setup_packets :
    decode (.setup64 [0x21#8, 0x22#8, 1#8, 0#8, 0#8, 0#8, 0#8, 0#8]) =
      .ok (.setControlLineState false 1#16 0#16 0#16) ∧
    decode (.setup64 [0xA1#8, 0x21#8, 0#8, 0#8, 0#8, 0#8, 7#8, 0#8]) = .ok (.getLineCoding true 0#16 0#16 7#16) ∧
    decode (.setup64 [0x21#8, 0x20#8, 0#8, 0#8, 0#8, 0#8, 7#8, 0#8]) = .ok (.setLineCoding false 0#16 0#16 7#16) ∧
    decode (.setup64 [0x21#8, 0x23#8, 0#8, 0#8, 0#8, 0#8, 0#8, 0#8]) =
      .ok (.classInterfaceUnsupported false 0x23#8 0#16 0#16 0#16) ∧
    decode (.setup64 [0xA1#8, 0x22#8, 1#8, 0#8, 0#8, 0#8, 0#8, 0#8]) =
      .ok (.setControlLineState true 1#16 0#16 0#16) ∧
    decode (.setup64 [0x22#8, 0x22#8, 1#8, 0#8, 0#8, 0#8, 0#8, 0#8]) =
      .ok (.notRouted ⟨0x22#8, 0x22#8, 1#16, 0#16, 0#16⟩) ∧
    decode (.setup64 [0x21#8, 0x22#8, 0xFE#8, 0xFF#8, 0x34#8, 0x12#8, 0x78#8, 0x56#8]) =
      .ok (.setControlLineState false 0xFFFE#16 0x1234#16 0x5678#16) := by decide

/-- V-DEC9 to V-DEC20. -/
theorem test_decode_rejections :
    decode (.cmd32 (cmd 0x00000000#32 [])) = .error .opcode ∧
    decode (.cmd32 (cmd 0x08000000#32 [])) = .error .opcode ∧
    decode (.cmd32 (cmd 0x18000000#32 [])) = .error .opcode ∧
    decode (.cmd32 (cmd 0x25000000#32 [])) = .error .opcode ∧
    decode (.cmd32 (cmd 0xFF000000#32 [])) = .error .opcode ∧
    decode (.cmd32 (cmd 0x01010041#32 [])) = .error .reserved ∧
    decode (.cmd32 (cmd 0x10800000#32 [])) = .error .sel ∧
    decode (.cmd32 (cmd 0x01000141#32 [])) = .error .imm ∧
    decode (.cmd32 (cmd 0x02000001#32 [])) = .error .imm ∧
    decode (.cmd32 (cmd 0x17000002#32 [])) = .error .imm ∧
    decode (.cmd32 (cmd 0x24000182#32 [])) = .error .imm ∧
    decode (.cmd32 (cmd 0x22000041#32 (List.replicate 65 0#8))) = .error .bulkLen ∧
    decode (.cmd32 (cmd 0x15000002#32 [0x68#8])) = .error .payload ∧
    decode (.cmd32 (cmd 0x21000000#32 [0x21#8, 0x20#8, 0#8, 0#8, 0#8, 0#8, 7#8, 0#8])) = .error .payload ∧
    decode (.cmd32 (cmd 0x23000000#32 [0#8])) = .error .payload := by decide

/-- The host's numbering: bit 0 is the least significant bit of the command word, or of `setup[0]`. -/
theorem test_decode_table_words :
    decodeTableWord 32 0x01800041 = some (.rbPushTx 0x41#8) ∧
    decodeTableWord 32 0x22000002 = some (.evBulkOut [0#8, 0#8]) ∧
    decodeTableWord 32 0x21000000 = some (.evSetup ⟨0#8, 0#8, 0#16, 0#16, 0#16⟩ []) ∧
    decodeTableWord 16 0x20A1 = some (.setLineCoding true 0#16 0#16 0#16) ∧
    decodeTableWord 64 0x0007000000002121 = some (.getLineCoding false 0#16 0#16 7#16) ∧
    decodeTableWord 32 0x08000000 = none := by decide

/-- A placed row is what the very next step runs, a control request inside `EV_SETUP`. -/
theorem test_fetch_word_runs :
    outs (step (State.reset.withFetchWord 32 0x14000041)) = some [.appRes 1#32] ∧
    outs (step (State.reset.withFetchWord 32 0x02800000)) = some [.usbRes 0#32] ∧
    outs (step (State.reset.withFetchWord 64 0x0007000000002021)) = some [.ctrl .handled [], .usbRes 1#32] ∧
    outs (step (State.reset.withFetchWord 16 0x0006)) = some [.ctrl .notRouted [], .usbRes 2#32] := by decide

/-- R86 and R102: the word's bytes, least significant first, then as many payload bytes as the word and the setup packet
say. -/
theorem test_split_byte_stream :
    splitElem [0x02#8, 0x00#8, 0x00#8, 0x15#8, 0x68#8, 0x69#8, 0xFF#8] =
      some (cmd 0x15000002#32 [0x68#8, 0x69#8], [0xFF#8]) ∧
    splitElem [0x00#8, 0x00#8, 0x00#8, 0x21#8, 0xA1#8, 0x21#8, 0#8, 0#8, 0#8, 0#8, 7#8, 0#8, 0x00#8] =
      some (cmd 0x21000000#32 [0xA1#8, 0x21#8, 0#8, 0#8, 0#8, 0#8, 7#8, 0#8], [0x00#8]) ∧
    splitElem [0x02#8, 0x00#8, 0x00#8, 0x15#8, 0x68#8] = none := by decide

/-- Program P4, lines 2 to 4: the words of the pseudo-commands. -/
theorem test_pseudo_commands :
    (expand (.lineState 3#16)).map encode =
      [.cmd32 (cmd 0x21000000#32 [0x21#8, 0x22#8, 3#8, 0#8, 0#8, 0#8, 0#8, 0#8])] ∧
    (expand (.setCoding [0x80#8, 0x25#8, 0#8, 0#8, 0#8, 0#8, 8#8])).map encode =
      [.cmd32 (cmd 0x21000000#32
        [0x21#8, 0x20#8, 0#8, 0#8, 0#8, 0#8, 7#8, 0#8, 0x80#8, 0x25#8, 0#8, 0#8, 0#8, 0#8, 8#8])] ∧
    (expand .getCoding).map encode =
      [.cmd32 (cmd 0x21000000#32 [0xA1#8, 0x21#8, 0#8, 0#8, 0#8, 0#8, 7#8, 0#8])] := by decide

/-- E2 of 95_test_vectors.md. -/
theorem test_configurations :
    ({ tcA with nRx := 6 } : Config).legal = false ∧ ({ tcA with nRx := 0 } : Config).legal = false ∧
    ({ tcA with nRx := 1, nTx := 1, ctrW := 1 } : Config).legal = true ∧
    ({ tcB with ctrW := 2 } : Config).legal = false ∧ tcB.legal = true := by decide

/-! Ring-buffer commands (95_test_vectors.md 2.2, TC-B). -/

/-- V-RB1 step 1, and V-RB3 step 2: the counter wraps at 8 and the index at 4. -/
theorem test_rb_push_rx :
    holds (usb 0x01000061#32 [] (State.por tcB)) (fun t =>
      t.rx.put == 1 && Memory.read t.rx.data 0 == 0x61#8 && t.out == [.usbRes 1#32]) = true ∧
    holds (usb 0x01000071#32 [] (smallWith (fifo 7 6 []) Fifo.empty)) (fun t =>
      t.rx.put == 0 && Memory.read t.rx.data 3 == 0x71#8) = true := by decide

/-- V-RB1 step 5: refused, unchanged. -/
theorem test_rb_push_rx_full : holds (usb 0x01000065#32 [] (smallWith abcd Fifo.empty)) (fun t =>
    t.rx == abcd && t.out == [.usbRes 0#32]) = true := by decide

/-- V-RB5. -/
theorem test_rb_push_tx : holds (app 0x01800041#32 [] (State.por tcB)) (fun t =>
    t.tx.put == 1 && Memory.read t.tx.data 0 == 0x41#8 && t.out == [.appRes 1#32]) = true := by decide

/-- V-RB1 step 10. -/
theorem test_rb_pop_rx : holds (app 0x02000000#32 [] (smallWith abcd Fifo.empty)) (fun t =>
    t.rx.get == 1 && t.rx.data == abcd.data && t.out == [.appRes 0x161#32]) = true := by decide

/-- V-RB4: a popped zero byte is not `None`; V-RB2 step 6: `None`. -/
theorem test_rb_pop_rx_zero_or_none :
    outs (app 0x02000000#32 [] (smallWith (fifo 1 0 []) Fifo.empty)) = some [.appRes 0x100#32] ∧
    outs (app 0x02000000#32 [] (State.por tcB)) = some [.appRes 0x000#32] := by decide

/-- V-RB5. -/
theorem test_rb_pop_tx : holds (usb 0x02800000#32 [] (smallWith Fifo.empty (fifo 1 0 [(0, 0x41#8)]))) (fun t =>
    t.tx.get == 1 && t.out == [.usbRes 0x141#32]) = true := by decide

/-- V-RB3 step 6, with put < get after the counter wrap. -/
theorem test_rb_len_rx :
    outs (app 0x03000000#32 [] (smallWith (fifo 2 6 []) Fifo.empty)) = some [.appRes 4#32] := by decide

/-- V-RB5: the USB port's view of TX. -/
theorem test_rb_len_tx :
    outs (usb 0x03800000#32 [] (smallWith Fifo.empty (fifo 1 0 []))) = some [.usbRes 1#32] := by decide

/-- V-RB3 step 5. -/
theorem test_rb_is_full_rx :
    outs (usb 0x04000000#32 [] (smallWith (fifo 2 6 []) Fifo.empty)) = some [.usbRes 1#32] := by decide

/-- R115: full by the APP port's own view of TX although the USB domain has popped a byte (as in V-SY2 step 3). -/
theorem test_rb_is_full_tx : outs (app 0x04800000#32 []
    (smallWith Fifo.empty { data := [], put := 4, get := 1, putCopy := 4, getCopy := 0 })) =
      some [.appRes 1#32] := by decide

/-- V-RB2 step 7. -/
theorem test_rb_is_empty_rx :
    outs (app 0x05000000#32 [] (smallWith (fifo 6 6 []) Fifo.empty)) = some [.appRes 1#32] := by decide

/-- R116: empty by the USB port's stale view of TX. -/
theorem test_rb_is_empty_tx : outs (usb 0x05800000#32 []
    (smallWith Fifo.empty { data := [], put := 1, get := 0, putCopy := 0, getCopy := 0 })) =
      some [.usbRes 1#32] := by decide

/-- V-RB2 step 8 (empty, but not at index 0) and V-RB1 step 12. -/
theorem test_rb_contig_space_rx :
    outs (usb 0x06000000#32 [] (smallWith (fifo 6 6 []) Fifo.empty)) = some [.usbRes 2#32] ∧
    outs (usb 0x06000000#32 [] (smallWith (fifo 4 2 []) Fifo.empty)) = some [.usbRes 2#32] := by decide

/-- R117 with put = 3, get = 0: min(4 - 3, 4 - 3) = 1. -/
theorem test_rb_contig_space_tx :
    outs (app 0x06800000#32 [] (smallWith Fifo.empty (fifo 3 0 []))) = some [.appRes 1#32] := by decide

/-- V-RB2 step 4: the valid bytes wrap. -/
theorem test_rb_contig_len_rx :
    outs (app 0x07000000#32 [] (smallWith (fifo 6 2 []) Fifo.empty)) = some [.appRes 2#32] := by decide

/-- The contiguous bytes V-SOF6 counts: 130 bytes from index 200. -/
theorem test_rb_contig_len_tx :
    outs (usb 0x07800000#32 [] (bigWith Fifo.empty (fifo 330 200 []))) = some [.usbRes 56#32] := by decide

/-! Port legality: V-DOM1 to V-DOM6. -/

theorem test_domain_refusals :
    holds (app 0x01000041#32 [] ready) (fun t => t.refusal == some ⟨.app, .domain⟩ && t.out == []) = true ∧
    holds (usb 0x01800041#32 [] ready) (fun t => t.refusal == some ⟨.usb, .domain⟩ && t.tx == Fifo.empty) = true ∧
    holds (usb 0x02000000#32 [] ready) (fun t => t.refusal == some ⟨.usb, .domain⟩) = true ∧
    holds (app 0x02800000#32 [] ready) (fun t => t.refusal == some ⟨.app, .domain⟩) = true ∧
    holds (usb 0x10000000#32 [] ready) (fun t => t.refusal == some ⟨.usb, .domain⟩) = true ∧
    holds (app 0x23000000#32 [] ready) (fun t => t.refusal == some ⟨.app, .domain⟩) = true := by decide

/-! Byte-stream commands (95_test_vectors.md 2.6). -/

/-- V-F1 and V-F2. -/
theorem test_init :
    holds (app 0x10000000#32 [] { State.reset with draws := [true] }) (fun t =>
      t.initDone && t.out == [.appRes 0#32]) = true ∧
    holds (app 0x10000000#32 [] { State.reset with draws := [false] }) (fun t =>
      !t.initDone && t.out == [.appRes 1#32]) = true := by decide

/-- V-F3. -/
theorem test_init_again : holds (app 0x10000000#32 [] ready) (fun t =>
    t.refusal == some ⟨.app, .reinit⟩ && t.out == []) = true := by decide

/-- V-SY3 steps 2 and 4: the synchronised copy answers. -/
theorem test_connected :
    outs (app 0x11000000#32 [] { ready with conn := true }) = some [.appRes 0#32] ∧
    outs (app 0x11000000#32 [] { ready with conn := true, connApp := true }) = some [.appRes 1#32] := by decide

/-- V-F12. -/
theorem test_available : outs (app 0x12000000#32 [] (bigWith (fifo 256 0 []) Fifo.empty)) =
    some [.appRes 256#32] := by decide

/-- P1 step 5. -/
theorem test_recv_byte : holds (app 0x13000000#32 [] (bigWith (fifo 2 0 [(0, 0x68#8), (1, 0x69#8)]) Fifo.empty))
    (fun t => t.rx.get == 1 && t.out == [.appRes 0x168#32]) = true := by decide

/-- V-F7, and V-SY1 step 3: a stale view answers `None`. -/
theorem test_recv_byte_none :
    outs (app 0x13000000#32 [] ready) = some [.appRes 0x000#32] ∧
    outs (app 0x13000000#32 [] (smallWith { abcd with putCopy := 0 } Fifo.empty)) = some [.appRes 0x000#32] := by decide

/-- V-F5: before `INIT`. -/
theorem test_send_byte : holds (app 0x14000041#32 [] State.reset) (fun t =>
    t.tx.put == 1 && Memory.read t.tx.data 0 == 0x41#8 && t.out == [.appRes 1#32]) = true := by decide

/-- V-F6. -/
theorem test_send_byte_full : holds (app 0x14000041#32 [] (smallWith Fifo.empty abcd)) (fun t =>
    t.tx == abcd && t.out == [.appRes 0#32]) = true := by decide

/-- V-F13 step 1, and V-F10. -/
theorem test_send_starts :
    holds (app 0x15000002#32 [0x78#8, 0x79#8] (smallWith Fifo.empty abcd)) (fun t =>
      t.appOp == .send [0x78#8, 0x79#8] 0 0 && t.out == []) = true ∧
    holds (app 0x15000000#32 [] State.reset) (fun t => t.appOp == .idle && t.out == [.appRes 0#32]) = true := by decide

/-- V-F13 steps 2 and 5: a dropped byte is not counted, a later one is accepted. -/
theorem test_send_micro_steps :
    holds (turn .app { smallWith Fifo.empty abcd with appOp := .send [0x78#8, 0x79#8] 0 0 }) (fun t =>
      t.appOp == .send [0x78#8, 0x79#8] 1 0 && t.tx == abcd) = true ∧
    holds (turn .app { smallWith Fifo.empty (fifo 4 4 []) with appOp := .send [0x78#8, 0x79#8] 1 0 }) (fun t =>
      t.appOp == .idle && t.tx.put == 5 && Memory.read t.tx.data 0 == 0x79#8 && t.out == [.appRes 1#32]) = true := by
  decide

/-- V-GATE2: the window opens, and closes when the USB agent is idle; while a packet is in flight it stays open. -/
theorem test_poll :
    holds (app 0x16000000#32 [] ready) (fun t => t.appOp == .poll && t.out == []) = true ∧
    holds (turn .app { ready with appOp := .poll }) (fun t => t.appOp == .idle && t.out == [.appRes 0#32]) = true ∧
    holds (turn .app { ready with appOp := .poll, usbOp := .rx 1 0 false }) (fun t => t.appOp == .poll) = true := by
  decide

/-- V-SY4 and V-F11. -/
theorem test_set_rx_callback :
    holds (app 0x17000001#32 [] ready) (fun t => t.rxcbEn && !t.rxcbUsb && t.out == [.appRes 0#32]) = true ∧
    holds (app 0x17000000#32 [] { ready with rxcbEn := true }) (fun t => !t.rxcbEn && t.out == [.appRes 0#32]) = true := by
  decide

/-! Events (95_test_vectors.md 2.5). -/

/-- V-RS1. -/
theorem test_ev_reset : holds (usb 0x20000000#32 []
    { bigWith Fifo.empty (fifo 3 0 []) with pef := true, rxcbEn := true }) (fun t =>
      !t.conn && t.connApp && t.pef && t.rxcbEn && t.tx == fifo 3 0 [] && t.out == [.usbRes 0#32]) = true := by decide

/-- V-BO1. -/
theorem test_ev_bulk_out_fast : holds (usb 0x22000002#32 [0x68#8, 0x69#8] ready) (fun t =>
    t.rx.put == 2 && t.rx.data == [(0, 0x68#8), (1, 0x69#8)] && t.usbOp == .idle && t.out == [.usbRes 0#32]) = true := by
  decide

/-- V-BO2: 56 contiguous bytes take the slow path. -/
theorem test_ev_bulk_out_slow : holds (usb 0x22000002#32 [0x68#8, 0x69#8] (bigWith (fifo 200 200 []) Fifo.empty)) (fun t =>
    t.rx.put == 200 && t.usbOp == .rx 2 0 false && t.out == []) = true := by decide

/-- V-BO4: the drop is sticky. V-BO8: the completion calls back with the whole packet. -/
theorem test_slow_path_steps :
    holds (turn .usb { smallWith { abcd with get := 1, getCopy := 1 } Fifo.empty with
      pkt := [(0, 0x61#8), (1, 0x62#8)], pktlen := 2, usbOp := .rx 2 1 true }) (fun t =>
        t.usbOp == .rx 2 2 true && t.rx.put == 4) = true ∧
    outs (turn .usb { smallWith abcd Fifo.empty with
      pkt := [(0, 0x78#8), (1, 0x79#8), (2, 0x7A#8)], pktlen := 3, usbOp := .rx 3 3 true, rxcbUsb := true }) =
      some [.rxCallback [0x78#8, 0x79#8, 0x7A#8], .usbRes 0#32] := by decide

/-- V-SOF3: the pending zero-length packet. V-SOF1 and V-SOF2: none. -/
theorem test_ev_sof_zero_length :
    holds (usb 0x23000000#32 [] { bigWith Fifo.empty Fifo.empty with pef := true, draws := [true] }) (fun t =>
      !t.pef && t.out == [.packetIn 0x82#8 [], .usbRes 0#32]) = true ∧
    outs (usb 0x23000000#32 [] { ready with tx := fifo 5 0 [] }) = some [.usbRes 0#32] ∧
    outs (usb 0x23000000#32 [] (bigWith Fifo.empty Fifo.empty)) = some [.usbRes 0#32] := by decide

/-- V-SOF4, the first packet, and V-SOF7: bulk-IN busy. -/
theorem test_ev_sof_sends :
    holds (usb 0x23000000#32 [] { bigWith Fifo.empty (fifo 130 0 []) with draws := [true] }) (fun t =>
      t.pef && t.tx.get == 64 && t.out == [.packetIn 0x82#8 (List.replicate 64 0#8), .usbRes 0#32]) = true ∧
    holds (usb 0x23000000#32 [] { bigWith Fifo.empty (fifo 10 0 []) with draws := [false] }) (fun t =>
      !t.pef && t.tx.get == 0 && t.out == [.usbRes 0#32]) = true := by decide

/-- V-DI1. -/
theorem test_ev_data_in : holds (usb 0x24000005#32 [] ready) (fun t =>
    t.out == [.usbRes 0#32] && t.rx == Fifo.empty && t.tx == Fifo.empty && !t.pef) = true := by decide

/-- V-GATE1: an event is held before `INIT`; a query on the USB port is not. -/
theorem test_gate :
    holds (usb 0x23000000#32 [] State.reset) (fun t => t.usbIn.pending == [cmd 0x23000000#32 []] && t.out == []) = true ∧
    outs (usb 0x03000000#32 [] State.reset) = some [.usbRes 0#32] := by decide

/-! Control requests (95_test_vectors.md 2.4), each as the `EV_SETUP` that carries it. -/

/-- V-CR1 and V-CR14. -/
theorem test_set_control_line_state :
    holds (usb 0x21000000#32 [0x21#8, 0x22#8, 1#8, 0#8, 0#8, 0#8, 0#8, 0#8] ready) (fun t =>
      t.conn && !t.connApp && t.out == [.ctrl .handled [], .usbRes 1#32]) = true ∧
    holds (usb 0x21000000#32 [0x21#8, 0x22#8, 0xFE#8, 0xFF#8, 0#8, 0#8, 0#8, 0#8] { ready with conn := true }) (fun t =>
      !t.conn) = true := by decide

/-- V-CR15 and V-CR16, TC-C. -/
theorem test_set_control_line_state_notifies :
    outs (usb 0x21000000#32 [0x21#8, 0x22#8, 1#8, 0#8, 0#8, 0#8, 0#8, 0#8] { readyC with draws := [true] }) =
      some [.notify 0x83#8 [0xA1#8, 0x20#8, 0#8, 0#8, 0#8, 0#8, 2#8, 0#8], .ctrl .handled [], .usbRes 1#32] ∧
    outs (usb 0x21000000#32 [0x21#8, 0x22#8, 1#8, 0#8, 0#8, 0#8, 0#8, 0#8] { readyC with draws := [false] }) =
      some [.ctrl .handled [], .usbRes 1#32] := by decide

/-- V-CR4 and V-CR12. -/
theorem test_get_line_coding :
    outs (usb 0x21000000#32 [0xA1#8, 0x21#8, 0#8, 0#8, 0#8, 0#8, 7#8, 0#8] ready) =
      some [.ctrl .handled [0x00#8, 0xC2#8, 0x01#8, 0x00#8, 0x00#8, 0x00#8, 0x08#8], .usbRes 1#32] ∧
    outs (usb 0x21000000#32 [0xA1#8, 0x21#8, 0#8, 0#8, 0#8, 0#8, 0#8, 0#8] ready) =
      some [.ctrl .handled [0x00#8, 0xC2#8, 0x01#8, 0x00#8, 0x00#8, 0x00#8, 0x08#8], .usbRes 1#32] := by decide

/-- V-CR5 and V-CR6. -/
theorem test_set_line_coding :
    outs (usb 0x21000000#32
      [0x21#8, 0x20#8, 0#8, 0#8, 0#8, 0#8, 7#8, 0#8, 0x80#8, 0x25#8, 0#8, 0#8, 0#8, 0#8, 8#8] ready) =
      some [.ctrl .handled [], .usbRes 1#32] ∧
    outs (usb 0x21000000#32
      [0x21#8, 0x20#8, 0#8, 0#8, 0#8, 0#8, 6#8, 0#8, 0x80#8, 0x25#8, 0#8, 0#8, 0#8, 0#8] ready) =
      some [.ctrl .notSupported [], .usbRes 0#32] := by decide

/-- V-CR7. -/
theorem test_class_interface_unsupported :
    outs (usb 0x21000000#32 [0x21#8, 0x23#8, 0#8, 0#8, 0#8, 0#8, 0#8, 0#8] ready) =
      some [.ctrl .notSupported [], .usbRes 0#32] := by decide

/-- V-CR8 and V-CR9. -/
theorem test_not_routed :
    outs (usb 0x21000000#32 [0x80#8, 0x06#8, 0#8, 1#8, 0#8, 0#8, 0x12#8, 0#8] ready) =
      some [.ctrl .notRouted [], .usbRes 2#32] ∧
    holds (usb 0x21000000#32 [0x41#8, 0x22#8, 1#8, 0#8, 0#8, 0#8, 0#8, 0#8] ready) (fun t =>
      !t.conn && t.out == [.ctrl .notRouted [], .usbRes 2#32]) = true := by decide

/-! Witnesses: for every obligation with hypotheses, states and operands that meet them all, one for each clause, at
the ends of the ranges. -/

def fifoCheck (c : Config) (f : Sel) (x : Fifo) : Bool :=
  decide (x.put < 2 ^ c.ctrW ∧ x.get < 2 ^ c.ctrW ∧ x.putCopy < 2 ^ c.ctrW ∧ x.getCopy < 2 ^ c.ctrW ∧
    c.occ x.put x.getCopy ≤ c.cap f ∧ c.occ x.put x.getCopy = c.occ x.put x.get + c.occ x.get x.getCopy ∧
    c.occ x.put x.get = c.occ x.putCopy x.get + c.occ x.put x.putCopy ∧ Memory.wf x.data = true ∧
    ∀ cell ∈ x.data, cell.1 < c.cap f)

theorem fifoInv_of_check {c : Config} {f : Sel} {x : Fifo} (h : fifoCheck c f x = true) : FifoInv c f x := by
  obtain ⟨h1, h2, h3, h4, h5, h6, h7, h8, h9⟩ := of_decide_eq_true h
  exact ⟨h1, h2, h3, h4, h5, h6, h7, h8, h9⟩

def appCheck : AppOp → Bool
  | .idle => true
  | .poll => true
  | .send bytes i a => decide (i < bytes.length ∧ a ≤ i ∧ bytes.length < 65536)

def usbCheck (pktlen : Nat) : UsbOp → Bool
  | .idle => true
  | .rx len i _ => decide (len = pktlen ∧ i ≤ len)

/-- The invariant of a state with an empty trace, as a check. -/
theorem inv_of_checks {s : State} (h : (s.cfg.legal && fifoCheck s.cfg .rx s.rx && fifoCheck s.cfg .tx s.tx &&
    decide (Memory.wf s.pkt = true ∧ (∀ cell ∈ s.pkt, cell.1 < mpsBulk) ∧ s.pktlen ≤ mpsBulk ∧ s.out = []) &&
    appCheck s.appOp && usbCheck s.pktlen s.usbOp) = true) : BlockInv s := by
  simp only [Bool.and_eq_true, decide_eq_true_eq] at h
  obtain ⟨⟨⟨⟨⟨hc, hr⟩, ht⟩, hp, hin, hl, ho⟩, ha⟩, hu⟩ := h
  refine ⟨hc, fifoInv_of_check hr, fifoInv_of_check ht, hp, hin, hl, ?_, ?_, by simp [ho]⟩
  · cases hop : s.appOp <;> rw [hop] at ha <;> simp_all [appCheck, appOpOk]
  · cases hop : s.usbOp <;> rw [hop] at hu
    · trivial
    · simpa [usbCheck, usbOpOk] using hu

/-- A packet of the class, with its data stage. -/
def codingPacket : SetupPacket := ⟨0x21#8, 0x20#8, 0#16, 0#16, 7#16⟩

theorem witness_DecodeOfEncodeGivesTheInstruction :
    (Instr.send [0x68#8]).wf = true ∧ (Instr.send []).wf = true ∧ (Instr.evBulkOut (List.replicate 64 0#8)).wf = true ∧
    (Instr.evSetup codingPacket (List.replicate 7 0#8)).wf = true ∧
    (Instr.classInterfaceUnsupported true 0x23#8 0#16 0#16 0#16).wf = true ∧
    (Instr.notRouted ⟨0x22#8, 0x22#8, 0#16, 0#16, 0#16⟩).wf = true := by decide

theorem witness_AcceptedElementIsItsEncoding :
    decode (.cmd32 (cmd 0x17000001#32 [])) = .ok (.setRxCallback true) := by decide

theorem witness_ReservedOpcodesAreIllegal :
    (0x00FFFFFF#32).toNat / 2 ^ 24 = 0 ∧
    (0x08 ≤ (0x08000000#32).toNat / 2 ^ 24 ∧ (0x0F000000#32).toNat / 2 ^ 24 ≤ 0x0F) ∧
    (0x18 ≤ (0x18000000#32).toNat / 2 ^ 24 ∧ (0x1F000000#32).toNat / 2 ^ 24 ≤ 0x1F) ∧
    0x25 ≤ (0x25000000#32).toNat / 2 ^ 24 := by decide

/-- One word for each clause, its known opcode among the hypotheses. -/
theorem witness_IllegalElementGivesTheFirstReason :
    (opcodeOf (opField 0x01010041#32) = some .rbPush ∧ (0x01010041#32).toNat / 2 ^ 16 % 2 ^ 7 ≠ 0) ∧
    (opcodeOf (opField 0x10800000#32) = some .init ∧ (0x10800000#32).toNat / 2 ^ 16 % 2 ^ 7 = 0 ∧
      (0x10800000#32).getLsbD 23 = true ∧ 0x08 ≤ (0x10800000#32).toNat / 2 ^ 24) ∧
    (opcodeOf (opField 0x01800100#32) = some .rbPush ∧ (0x01800100#32).toNat / 2 ^ 16 % 2 ^ 7 = 0 ∧
      ((0x01800100#32).getLsbD 23 = true → (0x01800100#32).toNat / 2 ^ 24 < 0x08) ∧
      2 ^ Opcode.rbPush.immBits ≤ (0x01800100#32).toNat % 2 ^ 16) ∧
    (opcodeOf (opField 0x22000041#32) = some .evBulkOut ∧ (0x22000041#32).toNat / 2 ^ 16 = 0x2200 ∧
      64 < (0x22000041#32).toNat % 2 ^ 16) ∧
    ((0x22000040#32).toNat / 2 ^ 16 = 0x2200 ∧ (0x22000040#32).toNat % 2 ^ 16 ≤ 64 ∧
      ([] : List Byte).length ≠ (0x22000040#32).toNat % 2 ^ 16) ∧
    (opcodeOf (opField 0x15000001#32) = some .send ∧ (0x15000001#32).toNat / 2 ^ 16 = 0x1500 ∧
      ([] : List Byte).length ≠ (0x15000001#32).toNat % 2 ^ 16) ∧
    opcodeOf (opField 0x21000000#32) = some .evSetup ∧
    (opcodeOf (opField 0x01800041#32) = some .rbPush ∧ (0x01800041#32).toNat / 2 ^ 16 % 2 ^ 7 = 0 ∧
      ((0x01800041#32).getLsbD 23 = true → (0x01800041#32).toNat / 2 ^ 24 < 0x08) ∧
      (0x01800041#32).toNat % 2 ^ 16 < 2 ^ Opcode.rbPush.immBits ∧ Opcode.rbPush ∉ [Opcode.send, .evBulkOut, .evSetup]) ∧
    (opcodeOf (opField 0x23000000#32) = some .evSof ∧ (0x23000000#32).toNat / 2 ^ 16 % 2 ^ 7 = 0 ∧
      (0x23000000#32).getLsbD 23 = false ∧ (0x23000000#32).toNat % 2 ^ 16 < 2 ^ Opcode.evSof.immBits ∧
      Opcode.evSof ∉ [Opcode.send, .evBulkOut, .evSetup] ∧ [0#8] ≠ []) := by decide

/-- The clause of `EV_SETUP`: a payload too short for a setup packet, and one whose data stage is missing. -/
theorem witness_IllegalElementGivesTheFirstReason_setup :
    (∀ p stage, splitSetup [0#8] = some (p, stage) → stage.length ≠ p.stageLen) ∧
    (∀ p stage, splitSetup codingPacket.bytes = some (p, stage) → stage.length ≠ p.stageLen) := by
  constructor
  · intro p stage h
    cases h
  · intro p stage h
    cases h
    decide

theorem witness_EverySetupPacketIsOneRequest :
    (0x80#8 &&& 0x7F#8 ≠ 0x21#8) ∧ (0xA1#8 &&& 0x7F#8 = 0x21#8) ∧ (0x21#8 &&& 0x7F#8 = 0x21#8) := by decide

theorem witness_ConfigurationIsRefusedUnlessLegal :
    ((∃ k, tcB.nRx = 2 ^ k) ∧ (∃ k, tcB.nTx = 2 ^ k) ∧ 2 * tcB.nRx ≤ 2 ^ tcB.ctrW ∧ 2 * tcB.nTx ≤ 2 ^ tcB.ctrW) ∧
    ¬2 * ({ tcB with ctrW := 2 } : Config).nRx ≤ 2 ^ ({ tcB with ctrW := 2 } : Config).ctrW :=
  ⟨⟨⟨2, rfl⟩, ⟨2, rfl⟩, by decide, by decide⟩, by decide⟩

theorem witness_ResetMeetsTheInvariant : tcA.legal = true ∧ tcB.legal = true ∧ tcC.legal = true := by decide

theorem witness_AppPortRunsTheDecodedCommand :
    let s := onAppPort 0x13000000#32 [] ready
    s.cfg.legal = true ∧ s.refusedBit = false ∧ s.sched = [.app] ∧ s.appOp = .idle ∧
      s.appIn.pending = [cmd 0x13000000#32 []] ∧ decode (.cmd32 (cmd 0x13000000#32 [])) = .ok .recvByte := by decide

/-- An event with the gates open, in both delivery modes, and a command that is no event with them closed. -/
theorem witness_UsbPortRunsTheDecodedElement :
    (let s := onUsbPort 0x23000000#32 [] ready
     s.cfg.legal = true ∧ s.refusedBit = false ∧ s.sched = [.usb] ∧ s.usbOp = .idle ∧
      s.usbIn.pending = [cmd 0x23000000#32 []] ∧ decode (.cmd32 (cmd 0x23000000#32 [])) = .ok .evSof ∧
      s.initDone = true ∧ s.cfg.deliveryMode = .irq) ∧
    (let s := { ready with cfg := { tcA with deliveryMode := .polled }, appOp := .poll }
     s.cfg.legal = true ∧ s.cfg.deliveryMode = .polled ∧ s.appOp = .poll) ∧
    isEvent .rbLenRx = false ∧ decode (.cmd32 (cmd 0x03000000#32 [])) = .ok .rbLenRx := by decide

theorem witness_ClosedGateHoldsTheEvent :
    (let s := onUsbPort 0x23000000#32 [] State.reset
     s.cfg.legal = true ∧ s.refusedBit = false ∧ s.sched = [.usb] ∧ s.usbOp = .idle ∧
      s.usbIn.pending = [cmd 0x23000000#32 []] ∧ decode (.cmd32 (cmd 0x23000000#32 [])) = .ok .evSof ∧
      Instr.evSof ∈ [Instr.evReset, .evSof] ∧ s.initDone = false) ∧
    (let s := { ready with cfg := { tcA with deliveryMode := .polled } }
     s.cfg.legal = true ∧ s.initDone = true ∧ s.cfg.deliveryMode = .polled ∧ s.appOp ≠ .poll) := by decide

theorem witness_AgentsWithoutAStepHold :
    (let s := { ready with sched := [.app] }
     s.cfg.legal = true ∧ s.refusedBit = false ∧ s.sched = [.app] ∧ s.appIn.pending = [] ∧ s.appOp = .idle) ∧
    (let s := { ready with sched := [.usb] }
     s.sched = [.usb] ∧ s.usbIn.pending = [] ∧ s.usbOp = .idle) ∧
    (let s := { ready with sched := [.sync .conn] }
     s.sched = [.sync .conn] ∧ copyOf .conn s = sourceOf .conn s) := by decide

theorem witness_IllegalElementIsRefused :
    decode (.cmd32 (cmd 0x23000000#32 [0#8])) = .error .payload ∧
    (let s := onAppPort 0x23000000#32 [0#8] ready
     s.cfg.legal = true ∧ s.refusedBit = false ∧ s.sched = [.app] ∧ s.appOp = .idle ∧
      s.appIn.pending = [cmd 0x23000000#32 [0#8]]) ∧
    (let s := onUsbPort 0x23000000#32 [0#8] ready
     s.cfg.legal = true ∧ s.refusedBit = false ∧ s.sched = [.usb] ∧ s.usbOp = .idle ∧
      s.usbIn.pending = [cmd 0x23000000#32 [0#8]]) := by decide

/-- A forbidden command, an allowed one that gives a next state, and `INIT` after a success. -/
theorem witness_PortLegalityTable :
    portAllows (.rbPushRx 0#8) ({ ready with issuer := .app } : State).issuer = false ∧
    portAllows (.rbPushRx 0#8) ({ ready with issuer := .usb } : State).issuer = true ∧
    holds (exec (.rbPushRx 0#8) { ready with issuer := .usb }) (fun t => t.refusal == ready.refusal) = true ∧
    holds (exec .init ready) (fun t => t.refusal != ready.refusal && ready.initDone) = true := by decide

def refusedState : State := { ready with refusal := some ⟨.app, .reinit⟩ }

theorem witness_NoStepAfterARefusal : refusedState.cfg.legal = true ∧ refusedState.refusal ≠ none := by decide

/-- Every copy differs from its source. -/
def staleState : State :=
  { State.por tcB with
    rx := { data := [], put := 3, get := 1, putCopy := 2, getCopy := 0 },
    tx := { data := [], put := 3, get := 1, putCopy := 2, getCopy := 0 },
    conn := true, rxcbEn := true, initDone := true }

theorem witness_SynchroniserStepsCopy : staleState.cfg.legal = true ∧ staleState.refusedBit = false := by decide

theorem witness_EagerSyncMakesEveryViewTrue :
    staleState.cfg.legal = true ∧ staleState.refusedBit = false ∧ ∀ c, copyOf c staleState ≠ sourceOf c staleState := by
  refine ⟨by decide, by decide, fun c => ?_⟩
  cases c <;> decide

/-! States in which the next step gives a next state. -/

def pushing : State := onUsbPort 0x01000061#32 [] staleState
def popping : State := onAppPort 0x13000000#32 [] staleState

theorem witness_StepKeepsTheInvariant : BlockInv pushing ∧ ∃ t, step pushing = .next t :=
  ⟨inv_of_checks (by decide), by
    obtain ⟨t, h, -⟩ := exists_of_holds (o := step pushing) (p := fun _ => true) (by decide)
    exact ⟨t, h⟩⟩

theorem witness_InvariantStatesNeverFault : BlockInv popping ∧ popping.refusedBit = false :=
  ⟨inv_of_checks (by decide), by decide⟩

theorem witness_StepKeepsConfigurationAndTrace :
    ∃ t, step popping = .next t ∧ decide (t.out = [.appRes 0x100#32]) = true :=
  exists_of_holds (p := fun t => decide (t.out = [.appRes 0x100#32])) (by decide)

/-- A step that is not the USB agent's, and one that is not the APP agent's. -/
theorem witness_ProducerAndConsumerWriteTheirOwnSide :
    (popping.nextAgent ≠ .usb ∧ ∃ t, step popping = .next t ∧ decide (t.rx.get = 2) = true) ∧
    (pushing.nextAgent ≠ .app ∧ ∃ t, step pushing = .next t ∧ decide (t.rx.put = 4) = true) :=
  ⟨⟨by decide, exists_of_holds (p := fun t => decide (t.rx.get = 2)) (by decide)⟩,
   ⟨by decide, exists_of_holds (p := fun t => decide (t.rx.put = 4)) (by decide)⟩⟩

theorem witness_CopiesAreWrittenBySyncOnly :
    (let s := { staleState with sched := [.sync .txPut] }
     s.nextAgent = .sync .txPut ∧ s.nextAgent ≠ .sync .txGet ∧
      ∃ t, step s = .next t ∧ decide (t.tx.putCopy = 3) = true) :=
  ⟨by decide, by decide, exists_of_holds (p := fun t => decide (t.tx.putCopy = 3)) (by decide)⟩

theorem witness_FlagsAreWrittenByTheirDomain :
    (popping.nextAgent ≠ .usb ∧ ∃ t, step popping = .next t ∧ decide (t.appIn.taken = 1) = true) ∧
    (pushing.nextAgent ≠ .app ∧ ∃ t, step pushing = .next t ∧ decide (t.usbIn.taken = 1) = true) :=
  ⟨⟨by decide, exists_of_holds (p := fun t => decide (t.appIn.taken = 1)) (by decide)⟩,
   ⟨by decide, exists_of_holds (p := fun t => decide (t.usbIn.taken = 1)) (by decide)⟩⟩

/-- Both writers of `CONN`. -/
theorem witness_ConnHasTwoWriters :
    (let s := onUsbPort 0x20000000#32 [] staleState
     ∃ t, step s = .next t ∧ decide (t.conn ≠ s.conn) = true) ∧
    (let s := onUsbPort 0x21000000#32 [0x21#8, 0x22#8, 1#8, 0#8, 0#8, 0#8, 0#8, 0#8] ready
     ∃ t, step s = .next t ∧ decide (t.conn ≠ s.conn) = true) :=
  ⟨exists_of_holds (p := fun t => decide (t.conn ≠ true)) (by decide),
   exists_of_holds (p := fun t => decide (t.conn ≠ false)) (by decide)⟩

/-- `PEF` set by a full packet, and cleared by the zero-length packet. -/
theorem witness_PefIsWrittenByASentPacketOnly :
    (let s := onUsbPort 0x23000000#32 [] { bigWith Fifo.empty (fifo 64 0 []) with draws := [true] }
     ∃ t, step s = .next t ∧ decide (t.pef ≠ s.pef) = true) ∧
    (let s := onUsbPort 0x23000000#32 [] { bigWith Fifo.empty Fifo.empty with pef := true, draws := [true] }
     ∃ t, step s = .next t ∧ decide (t.pef ≠ s.pef) = true) :=
  ⟨exists_of_holds (p := fun t => decide (t.pef ≠ false)) (by decide),
   exists_of_holds (p := fun t => decide (t.pef ≠ true)) (by decide)⟩

theorem witness_InitDoneIsSetByInitAndKept :
    (popping.initDone = true ∧ ∃ t, step popping = .next t ∧ decide (t.initDone = true) = true) ∧
    (let s := onAppPort 0x10000000#32 [] { State.reset with draws := [true] }
     s.initDone = false ∧ ∃ t, step s = .next t ∧ decide (t.initDone = true) = true) :=
  ⟨⟨by decide, exists_of_holds (p := fun t => decide (t.initDone = true)) (by decide)⟩,
   ⟨by decide, exists_of_holds (p := fun t => decide (t.initDone = true)) (by decide)⟩⟩

theorem witness_CallbackFlagIsWrittenByItsCommand :
    let s := onAppPort 0x17000001#32 [] ready
    ∃ t, step s = .next t ∧ decide (t.rxcbEn ≠ s.rxcbEn) = true :=
  exists_of_holds (p := fun t => decide (t.rxcbEn ≠ false)) (by decide)

/-- A step that adds a byte, and one that removes a byte. -/
theorem witness_FifoStepsAreQueueSteps :
    (BlockInv pushing ∧ ∃ t, step pushing = .next t ∧ decide (t.rx.put ≠ 3) = true) ∧
    (BlockInv popping ∧ ∃ t, step popping = .next t ∧ decide (t.rx.get ≠ 1) = true) :=
  ⟨⟨inv_of_checks (by decide), exists_of_holds (p := fun t => decide (t.rx.put ≠ 3)) (by decide)⟩,
   ⟨inv_of_checks (by decide), exists_of_holds (p := fun t => decide (t.rx.get ≠ 1)) (by decide)⟩⟩

/-- The same block with other bytes in the slots that are not valid. -/
def otherStale : State := { pushing with rx := { pushing.rx with data := [(0, 0xEE#8), (3, 0x11#8)] } }

theorem witness_StaleStorageIsNeverSeen :
    BlockInv pushing ∧ BlockInv otherStale ∧ SameButStale pushing otherStale ∧ otherStale ≠ pushing ∧
      ∃ t, step pushing = .next t :=
  ⟨inv_of_checks (by decide), inv_of_checks (by decide),
   ⟨rfl, by decide, by decide, fun _ _ => rfl⟩, by decide, witness_StepKeepsTheInvariant.2⟩

theorem witness_ViewsNeverShowTooMuch : BlockInv staleState := inv_of_checks (by decide)

/-- The widest counters, the difference across the wrap. -/
theorem witness_OccupancyIsTheUnsignedDifference : 0 < 2 ^ tcB.ctrW ∧ 7 < 2 ^ tcB.ctrW := by decide

theorem witness_ContiguousBlocksStayInside :
    staleState.cfg.legal = true ∧ [0x61#8].length ≤ staleState.cspace .usb .rx ∧
      1 ≤ staleState.clen .app .rx := by decide

theorem witness_AccessesOutsideAreFaults :
    4 < 3 + 2 ∧ [0#8, 0#8].length = 2 ∧ pushing.issuer = .usb ∧ 64 < (List.replicate 65 0#8).length := by decide

theorem witness_InstructionsWriteOnlyTheirState :
    ∃ t, exec (.rbPushRx 0x61#8) pushing = .next t ∧ decide (t.rx.put = 4) = true :=
  exists_of_holds (p := fun t => decide (t.rx.put = 4)) (by decide)

/-- One store of each kind, and an instruction that stores nothing. -/
theorem witness_StoresReachOnlyTheirBytes :
    (Memory.wf pushing.rx.data = true ∧ Memory.wf pushing.tx.data = true ∧ Memory.wf pushing.pkt = true) ∧
    (∃ t, exec (.rbPushRx 0x61#8) pushing = .next t ∧ decide (t.rx.data = [(3, 0x61#8)]) = true) ∧
    (∃ t, exec (.sendByte 0x61#8) popping = .next t ∧ decide (t.tx.data = [(3, 0x61#8)]) = true) ∧
    (∃ t, exec (.rbPushTx 0x61#8) popping = .next t ∧ decide (t.tx.data = [(3, 0x61#8)]) = true) ∧
    (∃ t, exec (.evBulkOut [0x61#8]) { ready with issuer := .usb } = .next t ∧
      decide (t.rx.data = [(0, 0x61#8)] ∧ t.pkt = [(0, 0x61#8)]) = true) ∧
    (∃ t, exec .recvByte popping = .next t ∧ decide (t.rx.get = 2) = true) :=
  ⟨by decide, exists_of_holds (p := fun t => decide (t.rx.data = [(3, 0x61#8)])) (by decide),
   exists_of_holds (p := fun t => decide (t.tx.data = [(3, 0x61#8)])) (by decide),
   exists_of_holds (p := fun t => decide (t.tx.data = [(3, 0x61#8)])) (by decide),
   exists_of_holds (p := fun t => decide (t.rx.data = [(0, 0x61#8)] ∧ t.pkt = [(0, 0x61#8)])) (by decide),
   exists_of_holds (p := fun t => decide (t.rx.get = 2)) (by decide)⟩

/-- Full and not full, on each port. -/
theorem witness_PushStoresOrRefuses :
    pushing.cfg.legal = true ∧ pushing.issuer = .usb ∧ popping.issuer = .app ∧
    pushing.cfg.occ pushing.rx.put pushing.rx.getCopy ≠ pushing.cfg.nRx ∧
    (smallWith abcd abcd).cfg.occ abcd.put abcd.getCopy = (smallWith abcd abcd).cfg.nRx := by decide

/-- Empty and not empty, on each port. -/
theorem witness_PopAnswersTheOldestByte :
    popping.cfg.legal = true ∧ popping.issuer = .app ∧ pushing.issuer = .usb ∧
    popping.cfg.occ popping.rx.putCopy popping.rx.get ≠ 0 ∧ ready.cfg.occ ready.rx.putCopy ready.rx.get = 0 := by decide

theorem witness_QueriesAnswerTheView :
    popping.issuer = .app ∧ pushing.issuer = .usb ∧ popping.cfg.occ popping.rx.putCopy popping.rx.get < 2 ^ 32 := by
  decide

theorem witness_RefusedPushChangesNothing :
    ∃ t, exec (.sendByte 0x61#8) { smallWith Fifo.empty abcd with issuer := .app } = .next t ∧
      decide (0 < t.out.length ∧ t.out.getLast? = some (resultOutput .app 0#32)) = true :=
  exists_of_holds (p := fun t => decide (0 < t.out.length ∧ t.out.getLast? = some (resultOutput .app 0#32))) (by decide)

theorem witness_QueriesAreIdempotent :
    portAllows .available popping.issuer = true ∧ ∃ t, exec .available popping = .next t ∧
      holds (exec .available t) (fun _ => true) = true :=
  ⟨by decide, exists_of_holds (p := fun t => holds (exec .available t) fun _ => true) (by decide)⟩

/-- Before and after a success, and an answer of each kind fixed; and none fixed. -/
theorem witness_InitSetsTheFlagOnSuccess :
    State.reset.issuer = .app ∧ State.reset.initDone = false ∧ ready.issuer = .app ∧ ready.initDone = true := by decide

theorem witness_DrawTakesTheNextAnswer :
    ({ ready with draws := [true, false] } : State).draws = true :: [false] ∧ ready.draws = [] := by decide

theorem witness_SimpleAppCommands : ready.issuer = .app := by decide

/-- The six SYNC steps the eager-sync schedule puts after every other step. -/
def sixSyncs : List Agent := [.sync .rxPut, .sync .rxGet, .sync .txPut, .sync .txGet, .sync .conn, .sync .rxcb]

def sending : State := { staleState with appOp := .send [0x78#8, 0x79#8] 0 0 }

/-- A byte that is not the last, and the last one. -/
theorem witness_SendMicroStepPushesOneByte :
    (0 < [0x78#8, 0x79#8].length ∧ sending.cfg.legal = true ∧ sending.refusedBit = false ∧
      sending.appOp = .send [0x78#8, 0x79#8] 0 0 ∧ 0 + 1 < 2 ^ 32) ∧
    (let s := { sending with appOp := .send [0x78#8, 0x79#8] 1 1 }
     s.appOp = .send [0x78#8, 0x79#8] 1 1 ∧ 1 + 1 = [0x78#8, 0x79#8].length) := by decide

/-- Two APP steps under the eager-sync schedule. -/
def eagerSend : List Agent := [Agent.app] ++ sixSyncs ++ [Agent.app] ++ sixSyncs

/-- TX with one free byte, so that the accepted prefix is a proper one; the eager-sync schedule. -/
theorem witness_UninterruptedSendAcceptsAPrefix :
    let s := { smallWith Fifo.empty (fifo 3 0 []) with appOp := .send [0x78#8, 0x79#8] 0 0 }
    BlockInv s ∧ s.refusedBit = false ∧ s.appOp = .send [0x78#8, 0x79#8] 0 0 ∧ s.tx.getCopy = s.tx.get ∧
      Agent.usb ∉ eagerSend ∧ eagerSend.count .app = [0x78#8, 0x79#8].length :=
  ⟨inv_of_checks (by decide), by decide, by decide, by decide, by decide, by decide⟩

theorem witness_PollEndsWhenTheUsbAgentIsIdle :
    (let s := { ready with appOp := .poll }
     s.cfg.legal = true ∧ s.refusedBit = false ∧ s.appOp = .poll ∧ s.usbOp = .idle) ∧
    (let s := { ready with appOp := .poll, usbOp := .rx 1 0 false }
     s.appOp = .poll ∧ s.usbOp ≠ .idle) := by decide

theorem witness_ResetClearsConnOnly : pushing.issuer = .usb := by decide

/-- Bypass, the fast path at exactly 64 contiguous bytes, and the slow path at 63. -/
theorem witness_BulkOutTakesItsPath :
    (pushing.cfg.legal = true ∧ pushing.issuer = .usb ∧ (List.replicate 64 0#8).length ≤ 64 ∧
      Memory.wf pushing.pkt = true) ∧
    ({ tcA with rxCbBypass := true } : Config).legal = true ∧
    (let c := (bigWith (fifo 192 192 []) Fifo.empty).cfg
     64 = min (c.nRx - c.occ 192 192) (c.nRx - 192 % c.nRx)) ∧
    (let c := (bigWith (fifo 193 193 []) Fifo.empty).cfg
     63 = min (c.nRx - c.occ 193 193) (c.nRx - 193 % c.nRx)) := by decide

def receiving (i : Nat) (drop : Bool) (rx : Fifo) : State :=
  { smallWith rx Fifo.empty with initDone := true, pkt := [(0, 0x61#8), (1, 0x62#8)], pktlen := 2, usbOp := .rx 2 i drop }

/-- A byte stored, a byte dropped and the completion. -/
theorem witness_SlowPathStoresDropsOrCompletes :
    ((receiving 0 false Fifo.empty).cfg.legal = true ∧ (receiving 0 false Fifo.empty).refusedBit = false ∧
      (receiving 0 false Fifo.empty).usbOp = .rx 2 0 false ∧ 0 ≤ 2 ∧ 2 ≤ 64 ∧
      (receiving 0 false Fifo.empty).cfg.occ 0 0 < 4) ∧
    ((receiving 1 false abcd).usbOp = .rx 2 1 false ∧ ¬(receiving 1 false abcd).cfg.occ abcd.put abcd.getCopy < 4) ∧
    (receiving 2 true abcd).usbOp = .rx 2 2 true := by decide

/-- Disconnected; nothing to send; a full packet; a pending flush. -/
theorem witness_SofSendsTheOldestContiguousBytes :
    (let s := { ready with issuer := .usb }
     s.cfg.legal = true ∧ s.issuer = .usb ∧ s.conn = false) ∧
    (let s := bigWith Fifo.empty Fifo.empty
     s.cfg.legal = true ∧ s.conn = true ∧ s.clen .usb .tx = 0 ∧ s.pef = false) ∧
    (let s := bigWith Fifo.empty (fifo 130 0 [])
     s.conn = true ∧ min (s.clen .usb .tx) 64 = 64) ∧
    (let s := { bigWith Fifo.empty Fifo.empty with pef := true, draws := [true] }
     s.conn = true ∧ s.clen .usb .tx = 0 ∧ s.pef = true ∧ s.drawn = true) := by decide

/-- V-BO3: 6 free bytes and a packet of 10. -/
theorem witness_OverflowingPacketKeepsItsPrefix :
    let bytes := [0x30#8, 0x31#8, 0x32#8, 0x33#8, 0x34#8, 0x35#8, 0x36#8, 0x37#8, 0x38#8, 0x39#8]
    let s := onUsbPort 0x2200000A#32 bytes (bigWith (fifo 250 0 []) Fifo.empty)
    BlockInv s ∧ s.refusedBit = false ∧ s.usbOp = .idle ∧ s.usbIn.pending = [cmd 0x2200000A#32 bytes] ∧
      decode (.cmd32 (cmd 0x2200000A#32 bytes)) = .ok (.evBulkOut bytes) ∧ s.eventsOpen = true ∧
      (s.rxcbUsb && s.cfg.rxCbBypass) = false ∧ s.cfg.nRx - s.cfg.occ s.rx.put s.rx.getCopy < bytes.length :=
  ⟨inv_of_checks (by decide), by decide, by decide, by decide, by decide, by decide, by decide, by decide⟩

/-- The packet of V-BO8, `xyz` into one free byte, with a synchroniser step and a pop of the APP port between. -/
theorem witness_RxDropLawInEveryInterleaving :
    let xyz := [0x78#8, 0x79#8, 0x7A#8]
    let s := { onUsbPort 0x22000003#32 xyz { smallWith (fifo 3 0 []) Fifo.empty with initDone := true } with
      appIn := { taken := 0, pending := [cmd 0x13000000#32 []] } }
    let agents : List Agent := [.usb, .sync .rxPut, .app, .usb, .usb, .usb]
    BlockInv s ∧ s.usbOp = .idle ∧ s.usbIn.pending = [cmd 0x22000003#32 xyz] ∧
      decode (.cmd32 (cmd 0x22000003#32 xyz)) = .ok (.evBulkOut xyz) ∧ s.eventsOpen = true ∧
      (s.rxcbUsb && s.cfg.rxCbBypass) = false ∧ s.cfg.nRx - s.cfg.occ s.rx.put s.rx.getCopy < xyz.length ∧
      agents.count .usb = xyz.length + 1 ∧ Agent.sync .rxGet ∉ agents ∧
      ∃ t, runs (.usb :: agents) s = .next t ∧ decide (t.rx.put = 4 ∧ t.rx.get = 1) = true :=
  ⟨inv_of_checks (by decide), by decide, by decide, by decide, by decide, by decide, by decide, by decide, by decide,
   exists_of_holds (p := fun t => decide (t.rx.put = 4 ∧ t.rx.get = 1)) (by decide)⟩

/-- TX with `n` bytes from index 0, four flushes pending and taken. -/
def flushing (n : Nat) : State :=
  { bigWith Fifo.empty (fifo n 0 []) with
    draws := [true, true, true], usbIn := { taken := 0, pending := List.replicate 4 (cmd 0x23000000#32 []) } }

/-- Four USB steps under the eager-sync schedule. -/
def eagerFlushes : List Agent :=
  [Agent.usb] ++ sixSyncs ++ [Agent.usb] ++ sixSyncs ++ [Agent.usb] ++ sixSyncs ++ [Agent.usb] ++ sixSyncs

theorem witness_TransmitFlushPacketizes :
    (BlockInv (flushing 130) ∧ (contents tcA .tx (flushing 130).tx).length = 130) ∧
    (BlockInv (flushing 128) ∧ (contents tcA .tx (flushing 128).tx).length = 128) ∧
    (∀ n, (flushing n).refusedBit = false ∧ (flushing n).usbOp = .idle ∧ (flushing n).eventsOpen = true ∧
      (flushing n).conn = true ∧ (flushing n).pef = false ∧ 256 ≤ (flushing n).cfg.nTx ∧
      (flushing n).tx.putCopy = (flushing n).tx.put ∧ (flushing n).tx.get % (flushing n).cfg.nTx = 0 ∧
      (flushing n).draws = [true, true, true] ∧
      ∃ e : StreamElem, e.word = 0x23000000#32 ∧ e.payload = [] ∧ (flushing n).usbIn.pending = [e, e, e, e]) ∧
    Agent.app ∉ eagerFlushes ∧ eagerFlushes.count .usb = 4 :=
  ⟨⟨inv_of_checks (by decide), by simp [contents]; decide⟩, ⟨inv_of_checks (by decide), by simp [contents]; decide⟩,
   fun _ => ⟨rfl, rfl, rfl, rfl, rfl, Nat.le_refl 256, rfl, rfl, rfl, cmd 0x23000000#32 [], rfl, rfl, rfl⟩, by decide, by decide⟩

theorem witness_SetupEventRunsItsRequest : pushing.issuer = .usb := by decide

/-- With the notification and without it. -/
theorem witness_LineStateRequestWritesConn :
    (let s := { ready with issuer := .usb }
     s.issuer = .usb ∧ s.cfg.serialStateNotify = false) ∧
    (let s := { readyC with issuer := .usb }
     s.issuer = .usb ∧ s.cfg.serialStateNotify = true) := by decide

/-- `wLength` 7 and 6. -/
theorem witness_OtherRequestsAnswerOnly : pushing.issuer = .usb ∧ 7 ≤ (7#16).toNat ∧ ¬7 ≤ (6#16).toNat := by decide

theorem witness_LineCodingRoundTrip : pushing.issuer = .usb ∧ (0xA1#8 &&& 0x7F#8 = 0x21#8) := by decide

theorem witness_EndedRunOnlyHolds :
    let s := { State.por tcA with sched := [Agent.usb] }
    runEnded s ∧ ∃ t, step s = .next t :=
  ⟨⟨rfl, rfl, rfl, rfl, fun c => by cases c <;> rfl⟩, ⟨_, rfl⟩⟩

/-- The six synchronisers in turn. -/
def roundRobin (n : Nat) : Agent :=
  match n % 6 with
  | 0 => .sync .rxPut
  | 1 => .sync .rxGet
  | 2 => .sync .txPut
  | 3 => .sync .txGet
  | 4 => .sync .conn
  | _ => .sync .rxcb

theorem roundRobin_add (n k : Nat) : roundRobin (6 * n + k) = roundRobin k := by
  unfold roundRobin
  rw [show (6 * n + k) % 6 = k % 6 by omega]

theorem witness_FairSynchronisersDeliver :
    FairSchedule roundRobin ∧ RunsUnder roundRobin (fun _ => State.por tcA) ∧
      ∀ k, 0 ≤ k → sourceOf .conn (State.por tcA) = 0 := by
  refine ⟨fun c n => ?_, fun n => ?_, fun _ _ => rfl⟩
  · cases c
    · exact ⟨6 * n + 0, by omega, roundRobin_add n 0⟩
    · exact ⟨6 * n + 1, by omega, roundRobin_add n 1⟩
    · exact ⟨6 * n + 2, by omega, roundRobin_add n 2⟩
    · exact ⟨6 * n + 3, by omega, roundRobin_add n 3⟩
    · exact ⟨6 * n + 4, by omega, roundRobin_add n 4⟩
    · exact ⟨6 * n + 5, by omega, roundRobin_add n 5⟩
  · show turn (roundRobin n) (State.por tcA) = .next (State.por tcA)
    rw [turn_eq (by decide) (by decide)]
    unfold roundRobin
    split <;> rfl

end Sys2Proof.Tests
end

section
/-! PROOF. The statements of 00_scope.md: configuration (R9, R10), counter arithmetic (R13), the storage primitives
outside their range (R15) and draws (R16). -/

namespace Sys2Proof

/-! The configuration check in terms of powers of two (R9, R10). -/

/-- R9's bit test accepts every power of two: `2 ^ k - 1` masks out exactly the remainder. -/
theorem isCapacity_two_pow (k : Nat) : isCapacity (2 ^ k) = true := by
  simp [isCapacity, Nat.and_two_pow_sub_one_eq_mod]

theorem isCapacity_iff (n : Nat) : isCapacity n = true ↔ ∃ k, n = 2 ^ k :=
  ⟨isCapacity_pow n, fun ⟨k, hk⟩ => hk ▸ isCapacity_two_pow k⟩

theorem Config.legal_iff (c : Config) :
    c.legal = true ↔
      (∃ k, c.nRx = 2 ^ k) ∧ (∃ k, c.nTx = 2 ^ k) ∧ 2 * c.nRx ≤ 2 ^ c.ctrW ∧ 2 * c.nTx ≤ 2 ^ c.ctrW := by
  simp only [Config.legal, Bool.and_eq_true, decide_eq_true_eq, isCapacity_iff, and_assoc]

/-! Occupancy (R13). -/

/-- Equal counters are the only ones without a difference. -/
theorem Config.occ_eq_zero_iff {c : Config} {p g : Nat} (hp : p < 2 ^ c.ctrW) (hg : g < 2 ^ c.ctrW) :
    c.occ p g = 0 ↔ p = g := by
  constructor
  · intro h
    have hsum := Config.wrap_get_occ hp hg
    rw [h, Nat.add_zero, Config.wrap_of_lt hg] at hsum
    exact hsum.symm
  · rintro rfl
    exact Config.occ_self c p

end Sys2Proof

namespace Sys2Proof.Machine

/-! Building a model, and stepping a state that holds no legal configuration (log 7). -/

theorem State.build_legal {c : Config} (h : c.legal = true) : State.build c = .ok (State.por c) := if_pos h

theorem State.build_illegal {c : Config} (h : c.legal = false) : State.build c = .error .config :=
  if_neg (by simp [h])

theorem step_badConfig {s : State} (h : s.cfg.legal = false) : step s = .refused .badConfig := if_pos h

/-! The storage primitives outside their space (R15, log 18). -/

theorem memRead_outside {outside : Fault} {size : Nat} {m : Memory} {i n : Nat} (h : size < i + n) :
    memRead outside size m i n = .fault outside := if_neg (Nat.not_le.2 h)

theorem memWrite_outside {outside : Fault} {size : Nat} {m : Memory} {i : Nat} {bytes : List Byte}
    (h : size < i + bytes.length) : memWrite outside size m i bytes = .fault outside := if_neg (Nat.not_le.2 h)

/-- A packet longer than the buffer does not enter it (10_state.md R50). -/
theorem loadPacket_tooLong {s : State} {bytes : List Byte} (h : mpsBulk < bytes.length) :
    loadPacket bytes s = .fault .packetRange := by
  unfold loadPacket
  rw [memWrite_outside (by rwa [Nat.zero_add]), andThen_fault]

/-- The packet is loaded before `EV_BULK_OUT` chooses its path, so one that is too long stops every path. -/
theorem execEvBulkOut_tooLong {s : State} {bytes : List Byte} (hi : s.issuer = .usb) (h : mpsBulk < bytes.length) :
    execEvBulkOut bytes s = .fault .packetRange := by
  unfold execEvBulkOut onUsb
  rw [onPort_pos s (by rw [hi]; rfl), loadPacket_tooLong h, andThen_fault]

/-! A draw, with an answer fixed and with none (R16, log 3). -/

theorem State.drawn_cons {s : State} {ok : Bool} {rest : List Bool} (h : s.draws = ok :: rest) : s.drawn = ok := by
  unfold State.drawn; rw [h]

theorem State.afterDraw_cons {s : State} {ok : Bool} {rest : List Bool} (h : s.draws = ok :: rest) :
    s.afterDraw = { s with draws := rest } := by
  unfold State.afterDraw; rw [h]

theorem State.drawn_nil {s : State} (h : s.draws = []) : s.drawn = Config.freeDraw s.free := by
  unfold State.drawn; rw [h]

theorem State.afterDraw_nil {s : State} (h : s.draws = []) : s.afterDraw = { s with free := s.free + 1 } := by
  unfold State.afterDraw; rw [h]

/-! The statements. -/

/-- Settles O7: R9's bit test is the test for a power of two, so the condition is the check `build` and `step` make. -/
theorem configurationIsRefusedUnlessLegal : Obligations.ConfigurationIsRefusedUnlessLegal := by
  unfold Obligations.ConfigurationIsRefusedUnlessLegal
  intro c
  rw [← Config.legal_iff c, Bool.not_eq_true]
  refine ⟨State.build_legal, fun hc => ⟨State.build_illegal hc, ?_⟩⟩
  rintro s rfl
  exact step_badConfig hc

/-- Settles O32, from the counter laws: `put` is `get` advanced by the occupancy. -/
theorem occupancyIsTheUnsignedDifference : Obligations.OccupancyIsTheUnsignedDifference := by
  unfold Obligations.OccupancyIsTheUnsignedDifference
  intro c p g hp hg
  exact ⟨Config.occ_lt c p g, Config.wrap_get_occ hp hg, Config.occ_eq_zero_iff hp hg⟩

/-- Settles O34: both primitives check their range, and `EV_BULK_OUT` stores its packet through one of them. -/
theorem accessesOutsideAreFaults : Obligations.AccessesOutsideAreFaults := by
  unfold Obligations.AccessesOutsideAreFaults
  refine ⟨fun outside size m i n h => ⟨memRead_outside h, ?_⟩, fun s bytes hi h => execEvBulkOut_tooLong hi h⟩
  rintro bytes rfl
  exact memWrite_outside h

/-- Settles O43, by whether an answer is fixed. -/
theorem drawTakesTheNextAnswer : Obligations.DrawTakesTheNextAnswer := by
  unfold Obligations.DrawTakesTheNextAnswer
  intro s
  exact ⟨fun ok rest h => ⟨State.drawn_cons h, State.afterDraw_cons h⟩,
    fun h => ⟨State.drawn_nil h, State.afterDraw_nil h⟩⟩

end Sys2Proof.Machine
end

section
/-! PROOF. The frame of every instruction (10_state.md R35, R52), and what the instructions with several paths leave
behind: `EV_BULK_OUT`, and `EV_SOF` with a packet, as one state each. -/

namespace Sys2Proof.Machine

open Sys2Proof.Safety

theorem writesOnly_refuse (i : Instr) (s : State) (r : RefuseReason) : writesOnly i s (s.refuse r) := by
  cases i <;> rfl

theorem writesOnly_result (i : Instr) (s : State) (v : Word) : writesOnly i s (s.result v) := by
  cases i <;> rfl

/-- A meaning behind a port test writes what it writes on the port that is allowed. -/
theorem writesOnly_onPort {i : Instr} {allowed : Bool} {s t : State} {k : Result State}
    (h : onPort allowed s k = .next t) (hk : k = .next t → writesOnly i s t) : writesOnly i s t := by
  rcases onPort_eq_next h with ⟨-, h⟩ | ⟨-, rfl⟩
  · exact hk h
  · exact writesOnly_refuse i s _

/-- `RB_PUSH` writes the producer's side of its FIFO. -/
theorem rbPush_writes {f : Sel} {b : Byte} {s t : State} (h : rbPush f b s = .next t) :
    t = { s.setFifo f { s.fifo f with data := (t.fifo f).data, put := (t.fifo f).put } with
          out := t.out, refusal := t.refusal } := by
  rcases onPort_eq_next h with ⟨-, h⟩ | ⟨-, rfl⟩
  · obtain ⟨⟨acc, u⟩, hp, h⟩ := andThen_eq_next h
    cases h
    rcases pushByte_cases hp with ⟨-, hr⟩ | ⟨-, hr⟩ <;> cases hr <;> cases f <;> rfl
  · cases f <;> rfl

/-- `RB_POP` writes the consumer's side of its FIFO. -/
theorem rbPop_writes {f : Sel} {s t : State} (h : rbPop f s = .next t) :
    t = { s.setFifo f { s.fifo f with get := (t.fifo f).get } with out := t.out, refusal := t.refusal } := by
  rcases onPort_eq_next h with ⟨-, h⟩ | ⟨-, rfl⟩
  · obtain ⟨⟨acc, u⟩, hp, h⟩ := andThen_eq_next h
    cases h
    rcases popByte_cases hp with ⟨-, hr⟩ | ⟨-, hr⟩ <;> cases hr <;> cases f <;> rfl
  · cases f <;> rfl

/-- The line-state request writes `CONN`, the draws and the trace. -/
theorem lineStateRequest_writes (v : Half) (s : State) :
    ∃ conn out draws free, lineStateRequest v s = { s with conn, out, draws, free } := by
  rw [lineStateRequest_eq]
  split
  · rw [State.afterDraw_record s]; exact ⟨_, _, _, _, rfl⟩
  · exact ⟨_, _, _, _, rfl⟩

/-- Every control request writes at most `CONN`, the draws and the trace. -/
theorem execEvSetup_writes {p : SetupPacket} {stage : List Byte} {s t : State} (h : execEvSetup p stage s = .next t) :
    writesOnly (.evSetup p stage) s t := by
  refine writesOnly_onPort h fun h => ?_
  cases h
  split
  · rfl
  · split
    · obtain ⟨_, _, _, _, e⟩ := lineStateRequest_writes p.wValue s
      rw [e]; rfl
    · split
      · rw [setCodingRequest_eq]; rfl
      · split <;> rfl

/-! What `EV_BULK_OUT` and its micro-steps, and `EV_SOF` with a packet, leave behind. -/

/-- The packet in the temporary buffer (42_endpoint_events.md R163). -/
def loaded (bytes : List Byte) (s : State) : State :=
  { s with pkt := Memory.writeBytes s.pkt 0 bytes, pktlen := bytes.length }

/-- The bytes read back from the buffer; `received_eq` says that they are the packet. -/
def received (bytes : List Byte) (s : State) : List Byte :=
  Memory.readBytes (Memory.writeBytes s.pkt 0 bytes) 0 bytes.length

/-- The state after `EV_BULK_OUT` on each of its three paths (R163 to R165). -/
def afterBulkOut (bytes : List Byte) (s : State) : State :=
  if s.rxcbUsb && s.cfg.rxCbBypass then (callback (received bytes s) (loaded bytes s)).result 0#32
  else if mpsBulk ≤ s.cspace .usb .rx then
    (callback (received bytes s)
      ((loaded bytes s).setFifo .rx (appended s.cfg .rx s.rx (received bytes s)))).result 0#32
  else { loaded bytes s with usbOp := .rx bytes.length 0 false }

/-- The state after a slow-path micro-step or completion (R166, R167). -/
def afterRxStep (len i : Nat) (drop : Bool) (s : State) : State :=
  if i < len then
    if drop = false ∧ s.occOf .usb .rx < s.cfg.cap .rx then
      { s.setFifo .rx (appended s.cfg .rx s.rx (Memory.readBytes s.pkt i 1)) with usbOp := .rx len (i + 1) false }
    else { s with usbOp := .rx len (i + 1) true }
  else State.result { callback (Memory.readBytes s.pkt 0 len) s with usbOp := .idle } 0#32

/-- The state after bulk-IN was offered `c` bytes (R172). -/
def afterSendPacket (c : Nat) (s : State) : State :=
  (if s.drawn then
    { (s.afterDraw.setFifo .tx (taken s.cfg s.tx c)).emit
        (.packetIn epBulkIn (Memory.readBytes s.tx.data (s.cfg.ix .tx s.tx.get) c)) with pef := decide (c = mpsBulk) }
  else s.afterDraw).result 0#32

theorem received_eq {bytes : List Byte} {s : State} (h : Memory.wf s.pkt = true) : received bytes s = bytes :=
  Memory.readBytes_writeBytes h 0 bytes

@[simp] theorem length_received (bytes : List Byte) (s : State) : (received bytes s).length = bytes.length := by
  simp [received]

/-- 64 contiguous bytes free mean that a packet ends before the physical end. -/
theorem ix_add_le_of_cspace {s : State} {n : Nat} (h : mpsBulk ≤ s.cspace .usb .rx) (hn : n ≤ mpsBulk) :
    s.cfg.ix .rx s.rx.put + n ≤ s.cfg.cap .rx := by
  have hend : mpsBulk ≤ s.cfg.cap .rx - s.cfg.ix .rx s.rx.put := Nat.le_trans h (Nat.min_le_right ..)
  have : 0 < mpsBulk := by decide
  omega

/-- A packet of at most 64 bytes on the USB port never faults. -/
theorem execEvBulkOut_eq {bytes : List Byte} {s : State} (hi : s.issuer = .usb) (hlen : bytes.length ≤ mpsBulk) :
    execEvBulkOut bytes s = .next (afterBulkOut bytes s) := by
  unfold execEvBulkOut onUsb
  rw [onPort_pos s (by rw [hi]; rfl), loadPacket_eq bytes hlen, andThen_next]
  unfold afterBulkOut
  split
  · rw [packet_eq _ _ (by simpa using hlen), andThen_next]; rfl
  · show (if mpsBulk ≤ s.cspace .usb .rx then fastPath (loaded bytes s) else _) = _
    split
    · next hsp =>
      have hfit := ix_add_le_of_cspace hsp (n := (received bytes s).length) (by simpa using hlen)
      unfold fastPath
      rw [packet_eq _ _ (by simpa [loaded] using hlen), andThen_next]
      show andThen (append .rx (received bytes s) (loaded bytes s)) _ = _
      rw [append_eq (s := loaded bytes s) .rx _ hfit, andThen_next]
      rfl
    · rfl

/-- What `EV_BULK_OUT` can do. -/
theorem execEvBulkOut_cases {bytes : List Byte} {s t : State} (h : execEvBulkOut bytes s = .next t) :
    (s.issuer ≠ .usb ∧ t = s.refuse .domain) ∨
    (s.issuer = .usb ∧ bytes.length ≤ mpsBulk ∧ t = afterBulkOut bytes s) := by
  rcases onPort_eq_next h with ⟨hu, hk⟩ | ⟨hu, rfl⟩
  · have hi : s.issuer = .usb := by simpa using hu
    obtain ⟨u, hload, -⟩ := andThen_eq_next hk
    have hlen := (loadPacket_eq_next hload).1
    rw [execEvBulkOut_eq hi hlen] at h
    cases h
    exact .inr ⟨hi, hlen, rfl⟩
  · exact .inl ⟨by simpa using hu, rfl⟩

theorem afterBulkOut_writes (bytes : List Byte) (s : State) :
    writesOnly (.evBulkOut bytes) s (afterBulkOut bytes s) := by
  unfold afterBulkOut
  rw [callback_eq, callback_eq]
  split
  · rfl
  · split <;> rfl

/-- A packet of `c` bytes before the physical end is offered to bulk-IN. -/
theorem sendPacket_eq {c : Nat} {s : State} (h : s.cfg.ix .tx s.tx.get + c ≤ s.cfg.cap .tx) :
    sendPacket c s = .next (afterSendPacket c s) := by
  unfold sendPacket
  rw [peek_eq .tx c h, andThen_next, advance_eq]
  unfold afterSendPacket
  simp only [State.afterDraw_cfg, State.fifo_tx, State.afterDraw_tx]

theorem sendPacket_eq_next {c : Nat} {s t : State} (h : sendPacket c s = .next t) : t = afterSendPacket c s := by
  obtain ⟨bytes, hp, -⟩ := andThen_eq_next h
  rw [sendPacket_eq (peek_eq_next hp).1] at h
  cases h; rfl

theorem afterSendPacket_writes (c : Nat) (s : State) : writesOnly .evSof s (afterSendPacket c s) := by
  unfold afterSendPacket
  rw [State.afterDraw_record s]
  split <;> rfl

/-- What `EV_SOF` can do: answer 0 and nothing else, or offer bulk-IN a packet while connected. -/
theorem execEvSof_cases {s t : State} (h : execEvSof s = .next t) :
    t = s.refuse .domain ∨ t = s.result 0#32 ∨
    (s.issuer = .usb ∧ s.conn = true ∧ t = afterSendPacket (min (s.clen .usb .tx) mpsBulk) s) := by
  rcases onPort_eq_next h with ⟨hu, h⟩ | ⟨-, rfl⟩
  · split at h
    · cases h; exact .inr (.inl rfl)
    · next hconn =>
      split at h
      · cases h; exact .inr (.inl rfl)
      · exact .inr (.inr ⟨by simpa using hu, by simpa using hconn, sendPacket_eq_next h⟩)
  · exact .inl rfl

/-- `INIT` writes its flag, the draws and the trace. -/
theorem execInit_writes {s t : State} (h : execInit s = .next t) : writesOnly .init s t := by
  refine writesOnly_onPort h fun h => ?_
  split at h <;> cases h
  · exact writesOnly_refuse ..
  · rw [State.afterDraw_record s]; rfl

/-- The frame of every instruction. -/
theorem exec_writes {i : Instr} {s t : State} (h : exec i s = .next t) : writesOnly i s t := by
  cases i with
  | rbPushRx b => exact rbPush_writes (f := .rx) h
  | rbPushTx b | sendByte b => exact rbPush_writes (f := .tx) h
  | rbPopRx | recvByte => exact rbPop_writes (f := .rx) h
  | rbPopTx => exact rbPop_writes (f := .tx) h
  | rbLenRx | rbLenTx | rbIsFullRx | rbIsFullTx | rbIsEmptyRx | rbIsEmptyTx | rbContigSpaceRx | rbContigSpaceTx
  | rbContigLenRx | rbContigLenTx => cases h; exact writesOnly_result ..
  | init => exact execInit_writes h
  | connected | available | evDataIn ep => exact writesOnly_onPort h fun h => by cases h; exact writesOnly_result ..
  | send bytes => exact writesOnly_onPort h fun h => by split at h <;> cases h <;> rfl
  | poll | setRxCallback en | evReset => exact writesOnly_onPort h fun h => by cases h; rfl
  | evSetup p stage => exact execEvSetup_writes h
  | evBulkOut bytes =>
    rcases execEvBulkOut_cases h with ⟨-, rfl⟩ | ⟨-, -, rfl⟩
    · exact writesOnly_refuse ..
    · exact afterBulkOut_writes ..
  | evSof =>
    rcases execEvSof_cases h with rfl | rfl | ⟨-, -, rfl⟩
    · exact writesOnly_refuse ..
    · exact writesOnly_result ..
    · exact afterSendPacket_writes ..
  | setLineCoding dir v ix l => exact writesOnly_onPort h fun h => by cases h; rw [setCodingRequest_eq]; rfl
  | setControlLineState dir v ix l =>
    refine writesOnly_onPort h fun h => ?_
    cases h
    obtain ⟨_, _, _, _, e⟩ := lineStateRequest_writes v s
    rw [e]; rfl
  | getLineCoding dir v ix l | classInterfaceUnsupported dir r v ix l | notRouted p =>
    exact writesOnly_onPort h fun h => by cases h; rfl

/-! The statement. -/

/-- Settles O35: each instruction's own frame, and the outputs every command adds behind the trace. -/
theorem instructionsWriteOnlyTheirState : Obligations.InstructionsWriteOnlyTheirState := by
  unfold Obligations.InstructionsWriteOnlyTheirState
  intro i s t h
  obtain ⟨os, hout, -⟩ := (exec_moves h).out
  exact ⟨exec_writes h, os, hout.symm⟩

end Sys2Proof.Machine
end

section
/-! PROOF. Who writes each element of the state (10_state.md R35, R38, R42, R44, R45, R51, R52), and the steps that
write nothing (R56, R58, R59). -/

namespace Sys2Proof.Machine

open Sys2Proof.Safety

/-! What the micro-steps write. -/

/-- A `SEND` micro-step writes TX, its own in-flight state and the trace. -/
theorem sendStep_writes {bytes : List Byte} {i a : Nat} {s t : State} (h : sendStep bytes i a s = .next t) :
    t = { s with tx := t.tx, appOp := t.appOp, out := t.out } := by
  unfold sendStep at h
  split at h
  · cases h; rfl
  · obtain ⟨⟨acc, u⟩, hp, h⟩ := andThen_eq_next h
    have hu : u = { s with tx := u.tx } := by
      rcases pushByte_cases hp with ⟨-, hr⟩ | ⟨-, hr⟩ <;> cases hr <;> rfl
    dsimp only at h
    split at h <;> cases h
    · rw [hu]; rfl
    · rw [hu]

theorem pollEnd_writes {s t : State} (h : pollEnd s = .next t) : t = { s with appOp := t.appOp, out := t.out } := by
  unfold pollEnd at h
  split at h <;> cases h <;> rfl

/-- With a packet inside the buffer the slow path never faults. -/
theorem rxStep_eq {len i : Nat} {drop : Bool} {s : State} (hc : s.cfg.legal = true) (hi : i ≤ len)
    (hlen : len ≤ mpsBulk) :
    rxStep len i drop s = .next (afterRxStep len i drop s) := by
  unfold rxStep afterRxStep
  split
  · split
    · rw [packet_eq i 1 (by omega), andThen_next,
        append_eq .rx _ (by have := Config.ix_lt hc .rx s.rx.put; simpa using this), andThen_next]
      rfl
    · rfl
  · rw [packet_eq 0 len (by omega), andThen_next]

/-- What a slow-path micro-step or completion can do. -/
theorem rxStep_eq_next {len i : Nat} {drop : Bool} {s t : State} (h : rxStep len i drop s = .next t) :
    t = afterRxStep len i drop s := by
  unfold rxStep at h
  unfold afterRxStep
  split at h
  · next hlt =>
    rw [if_pos hlt]
    split at h
    · next hroom =>
      rw [if_pos hroom]
      obtain ⟨b, hb, h⟩ := andThen_eq_next h
      obtain ⟨u, hu, h⟩ := andThen_eq_next h
      obtain ⟨-, rfl⟩ := packet_eq_next hb
      obtain ⟨-, rfl⟩ := append_eq_next hu
      cases h; rfl
    · next hroom => rw [if_neg hroom]; cases h; rfl
  · next hlt =>
    rw [if_neg hlt]
    obtain ⟨b, hb, h⟩ := andThen_eq_next h
    obtain ⟨-, rfl⟩ := packet_eq_next hb
    cases h; rfl

theorem afterRxStep_writes (len i : Nat) (drop : Bool) (s : State) :
    ∃ rx usbOp out, afterRxStep len i drop s = { s with rx, usbOp, out } := by
  unfold afterRxStep
  rw [callback_eq]
  split
  · split <;> exact ⟨_, _, _, rfl⟩
  · exact ⟨_, _, _, rfl⟩

/-! The one instruction that writes each flag. -/

variable {i : Instr} {s t : State}

theorem exec_pef (h : exec i s = .next t) : t.pef = s.pef ∨ i = .evSof := by
  have hw := exec_writes h
  cases i with
  | evSof => exact .inr rfl
  | _ => simp only [writesOnly] at hw; exact .inl (by rw [hw])

theorem exec_initDone (h : exec i s = .next t) : t.initDone = s.initDone ∨ i = .init := by
  have hw := exec_writes h
  cases i with
  | init => exact .inr rfl
  | _ => simp only [writesOnly] at hw; exact .inl (by rw [hw])

theorem exec_rxcbEn (h : exec i s = .next t) : t.rxcbEn = s.rxcbEn ∨ i = .setRxCallback t.rxcbEn := by
  have hw := exec_writes h
  cases i with
  | setRxCallback en =>
    rcases onPort_eq_next h with ⟨-, h⟩ | ⟨-, rfl⟩
    · cases h; exact .inr rfl
    · exact .inl rfl
  | _ => simp only [writesOnly] at hw; exact .inl (by rw [hw])

/-- `INIT` on the APP port (43_facade.md R191, R192). -/
theorem execInit_eq (hi : s.issuer = .app) :
    execInit s = .next (if s.initDone then s.refuse .reinit
      else State.result { s.afterDraw with initDone := s.drawn } (bitWord (!s.drawn))) := by
  unfold execInit onApp
  rw [onPort_pos s (by rw [hi]; rfl)]
  split <;> rfl

/-! A flag changes only in a step that runs an instruction. -/

/-- The state in which the APP agent runs its next element. -/
def runningApp (rest : List StreamElem) (s : State) : State :=
  { s.afterSched with issuer := .app, appIn := { taken := s.afterSched.appIn.taken + 1, pending := rest } }

/-- The state in which the USB agent runs its next element. -/
def runningUsb (rest : List StreamElem) (s : State) : State :=
  { s.afterSched with issuer := .usb, usbIn := { taken := s.afterSched.usbIn.taken + 1, pending := rest } }

@[simp] theorem runningApp_initDone (rest : List StreamElem) (s : State) :
    (runningApp rest s).initDone = s.initDone := State.afterSched_initDone s
@[simp] theorem runningApp_rxcbEn (rest : List StreamElem) (s : State) :
    (runningApp rest s).rxcbEn = s.rxcbEn := State.afterSched_rxcbEn s
@[simp] theorem runningApp_out (rest : List StreamElem) (s : State) :
    (runningApp rest s).out = s.out := State.afterSched_out s
@[simp] theorem runningApp_issuer (rest : List StreamElem) (s : State) : (runningApp rest s).issuer = .app := rfl
@[simp] theorem runningUsb_conn (rest : List StreamElem) (s : State) :
    (runningUsb rest s).conn = s.conn := State.afterSched_conn s
@[simp] theorem runningUsb_pef (rest : List StreamElem) (s : State) :
    (runningUsb rest s).pef = s.pef := State.afterSched_pef s
@[simp] theorem runningUsb_out (rest : List StreamElem) (s : State) :
    (runningUsb rest s).out = s.out := State.afterSched_out s
@[simp] theorem runningUsb_issuer (rest : List StreamElem) (s : State) : (runningUsb rest s).issuer = .usb := rfl

/-- `INIT_DONE` and `RXCB_EN` change only when the idle APP agent runs an instruction. -/
theorem step_appFlags (h : step s = .next t) (hne : ¬(t.initDone = s.initDone ∧ t.rxcbEn = s.rxcbEn)) :
    s.nextAgent = .app ∧ s.appOp = .idle ∧ ∃ e rest i, s.appIn.pending = e :: rest ∧
      decode (.cmd32 e) = .ok i ∧ exec i (runningApp rest s) = .next t := by
  rcases step_moves h with ⟨ha, -⟩ | ⟨-, p, hm⟩ | ⟨c, -, rfl⟩
  · obtain ⟨-, -, h⟩ := step_eq_next h
    rw [ha] at h
    rcases appStep_cases h with ⟨rfl, -⟩ | ⟨bytes, i, a, -, h⟩ | ⟨-, h⟩ | ⟨hop, e, rest, hp, h⟩
    · exact absurd ⟨by simp, by simp⟩ hne
    · exact absurd ⟨by rw [sendStep_writes h]; simp, by rw [sendStep_writes h]; simp⟩ hne
    · exact absurd ⟨by rw [pollEnd_writes h]; simp, by rw [pollEnd_writes h]; simp⟩ hne
    · simp only [State.afterSched_appOp, State.afterSched_appIn] at hop hp
      rcases runElem_cases h with ⟨r, -, rfl⟩ | ⟨i, hd, h⟩
      · exact absurd ⟨by simp, by simp⟩ hne
      · exact ⟨ha, hop, e, rest, i, hp, hd, h⟩
  · rcases hm.appSide with ⟨hinit, hcb, -⟩ | hi
    · exact absurd ⟨by simpa using hinit, by simpa using hcb⟩ hne
    · cases hi
  · exact absurd ⟨by cases c <;> simp [syncStep], by cases c <;> simp [syncStep]⟩ hne

/-- `CONN` and `PEF` change only when the idle USB agent runs an instruction. -/
theorem step_usbFlags (h : step s = .next t) (hne : ¬(t.conn = s.conn ∧ t.pef = s.pef)) :
    s.nextAgent = .usb ∧ s.usbOp = .idle ∧ ∃ e rest i, s.usbIn.pending = e :: rest ∧
      decode (.cmd32 e) = .ok i ∧ exec i (runningUsb rest s) = .next t := by
  rcases step_moves h with ⟨-, p, hm⟩ | ⟨ha, -⟩ | ⟨c, -, rfl⟩
  · rcases hm.usbSide with ⟨hconn, hpef, -⟩ | hi
    · exact absurd ⟨by simpa using hconn, by simpa using hpef⟩ hne
    · cases hi
  · obtain ⟨-, -, h⟩ := step_eq_next h
    rw [ha] at h
    rcases usbStep_cases h with ⟨rfl, -⟩ | ⟨len, i, drop, -, h⟩ | ⟨hop, e, rest, hp, -, h⟩
    · exact absurd ⟨by simp, by simp⟩ hne
    · obtain ⟨rx, op, out, hw⟩ := afterRxStep_writes len i drop { s.afterSched with issuer := .usb }
      rw [rxStep_eq_next h, hw] at hne
      exact absurd ⟨by simp, by simp⟩ hne
    · simp only [State.afterSched_usbOp, State.afterSched_usbIn] at hop hp
      rcases runElem_cases h with ⟨r, -, rfl⟩ | ⟨i, hd, h⟩
      · exact absurd ⟨by simp, by simp⟩ hne
      · exact ⟨ha, hop, e, rest, i, hp, hd, h⟩
  · exact absurd ⟨by cases c <;> simp [syncStep], by cases c <;> simp [syncStep]⟩ hne

/-- A packet that changes `PEF` was taken by bulk-IN. -/
theorem afterSendPacket_pef {c : Nat} (hi : s.issuer = .usb) (hne : (afterSendPacket c s).pef ≠ s.pef) :
    ∃ bytes, (afterSendPacket c s).out = s.out ++ [.packetIn 0x82#8 bytes, .usbRes 0#32] ∧
      (afterSendPacket c s).pef = decide (bytes.length = 64) := by
  unfold afterSendPacket at hne ⊢
  split at hne
  · next hd =>
    rw [if_pos hd]
    exact ⟨Memory.readBytes s.tx.data (s.cfg.ix .tx s.tx.get) c, by simp [hi, resultOutput], by simp⟩
  · exact absurd (by simp) hne

/-- Settles O26: only `EV_SOF` writes `PEF`, and only when bulk-IN takes its packet. -/
theorem pefIsWrittenByASentPacketOnly : Obligations.PefIsWrittenByASentPacketOnly := by
  unfold Obligations.PefIsWrittenByASentPacketOnly
  intro s t h hne
  obtain ⟨ha, hop, e, rest, i, hp, hd, h⟩ := step_usbFlags h fun hsame => hne hsame.2
  rw [← runningUsb_pef rest s] at hne
  obtain rfl : i = .evSof := (exec_pef h).resolve_left hne
  rcases execEvSof_cases h with rfl | rfl | ⟨hi, hconn, rfl⟩
  · exact absurd rfl hne
  · exact absurd rfl hne
  · rw [runningUsb_conn] at hconn
    obtain ⟨bytes, hout, hpef⟩ := afterSendPacket_pef hi hne
    rw [runningUsb_out] at hout
    exact ⟨ha, hop, hconn, ⟨e, rest, hp, hd⟩, bytes, hout, hpef⟩

/-- Settles O27: only `INIT` writes `INIT_DONE`; after a success it is refused. -/
theorem initDoneIsSetByInitAndKept : Obligations.InitDoneIsSetByInitAndKept := by
  unfold Obligations.InitDoneIsSetByInitAndKept
  intro s t h
  have ran (hne : t.initDone ≠ s.initDone) : s.nextAgent = .app ∧ s.appOp = .idle ∧ ∃ e rest,
      s.appIn.pending = e :: rest ∧ decode (.cmd32 e) = .ok .init ∧ execInit (runningApp rest s) = .next t := by
    obtain ⟨ha, hop, e, rest, i, hp, hd, h⟩ := step_appFlags h fun hsame => hne hsame.1
    rw [← runningApp_initDone rest s] at hne
    obtain rfl : i = .init := (exec_initDone h).resolve_left hne
    exact ⟨ha, hop, e, rest, hp, hd, h⟩
  refine ⟨fun hs => ?_, fun hs ht => ?_⟩
  · by_contra hne
    obtain ⟨-, -, e, rest, -, -, h⟩ := ran (by rw [hs]; exact hne)
    rw [execInit_eq rfl, runningApp_initDone, if_pos hs] at h
    cases h
    exact hne (by simp [hs])
  · obtain ⟨ha, hop, e, rest, hp, hd, h⟩ := ran (by rw [hs, ht]; decide)
    refine ⟨ha, hop, ⟨e, rest, hp, hd⟩, ?_⟩
    rw [execInit_eq rfl, runningApp_initDone, if_neg (by simp [hs])] at h
    cases h
    have hdrawn : (runningApp rest s).drawn = true := ht
    simp [hdrawn, resultOutput, bitWord]

/-- Settles O28: only `SET_RX_CALLBACK` writes `RXCB_EN`. -/
theorem callbackFlagIsWrittenByItsCommand : Obligations.CallbackFlagIsWrittenByItsCommand := by
  unfold Obligations.CallbackFlagIsWrittenByItsCommand
  intro s t h hne
  obtain ⟨ha, hop, e, rest, i, hp, hd, h⟩ := step_appFlags h fun hsame => hne hsame.2
  rw [← runningApp_rxcbEn rest s] at hne
  obtain rfl := (exec_rxcbEn h).resolve_left hne
  exact ⟨ha, hop, e, rest, hp, hd⟩

/-! Who writes the configuration, the trace, the counters, the copies and the streams. -/

/-- Settles O21: every port's step keeps the configuration and adds outputs behind the trace, and a
step needs the mark to be 0. -/
theorem stepKeepsConfigurationAndTrace : Obligations.StepKeepsConfigurationAndTrace := by
  unfold Obligations.StepKeepsConfigurationAndTrace
  intro s t h
  have hr := (step_eq_next h).2.1
  rcases step_moves h with ⟨-, p, hm⟩ | ⟨-, p, hm⟩ | ⟨c, -, rfl⟩
  · obtain ⟨os, hout, -⟩ := hm.out
    exact ⟨by simpa using hm.cfg, ⟨os, by simpa using hout.symm⟩, hr⟩
  · obtain ⟨os, hout, -⟩ := hm.out
    exact ⟨by simpa using hm.cfg, ⟨os, by simpa using hout.symm⟩, hr⟩
  · exact ⟨by cases c <;> simp [syncStep], by cases c <;> simp [syncStep], hr⟩

/-- A synchroniser writes no counter and no storage. -/
theorem syncStep_counters (c : Copy) (s : State) :
    ((syncStep c s).rx.put = s.rx.put ∧ (syncStep c s).rx.data = s.rx.data ∧ (syncStep c s).rx.get = s.rx.get) ∧
    ((syncStep c s).tx.put = s.tx.put ∧ (syncStep c s).tx.data = s.tx.data ∧ (syncStep c s).tx.get = s.tx.get) := by
  cases c <;> exact ⟨⟨rfl, rfl, rfl⟩, rfl, rfl, rfl⟩

/-- Settles O22: the producer of RX is USB and that of TX is APP. -/
theorem producerAndConsumerWriteTheirOwnSide : Obligations.ProducerAndConsumerWriteTheirOwnSide := by
  unfold Obligations.ProducerAndConsumerWriteTheirOwnSide
  intro s t h
  rcases step_moves h with ⟨ha, p, hm⟩ | ⟨ha, p, hm⟩ | ⟨c, -, rfl⟩
  · obtain ⟨hput, hdata⟩ := hm.rx.sides.1 (by simp [producer])
    have hget := hm.tx.sides.2 (by simp [consumer])
    exact ⟨fun _ => ⟨by simpa using hput, by simpa using hdata, by simpa using hget⟩, fun hn => absurd ha hn⟩
  · obtain ⟨hput, hdata⟩ := hm.tx.sides.1 (by simp [producer])
    have hget := hm.rx.sides.2 (by simp [consumer])
    exact ⟨fun hn => absurd ha hn, fun _ => ⟨by simpa using hput, by simpa using hdata, by simpa using hget⟩⟩
  · obtain ⟨⟨hrp, hrd, hrg⟩, htp, htd, htg⟩ := syncStep_counters c s.afterSched
    simp only [State.afterSched_rx, State.afterSched_tx] at hrp hrd hrg htp htd htg
    exact ⟨fun _ => ⟨hrp, hrd, htg⟩, fun _ => ⟨htp, htd, hrg⟩⟩

/-- The schedule and the free-value counter hold no source and no copy. -/
theorem copyOf_afterSched (c : Copy) (s : State) : copyOf c s.afterSched = copyOf c s := by
  cases c <;> simp [copyOf]

theorem sourceOf_afterSched (c : Copy) (s : State) : sourceOf c s.afterSched = sourceOf c s := by
  cases c <;> simp [sourceOf]

/-- A command or micro-step of a port writes no copy. -/
theorem Moves.copyOf (h : Moves s t) (c : Copy) : copyOf c t = copyOf c s := by
  obtain ⟨hrp, hrg⟩ := h.rx.copies
  obtain ⟨htp, htg⟩ := h.tx.copies
  cases c
  · exact hrp
  · exact hrg
  · exact htp
  · exact htg
  · exact congrArg Bool.toNat h.connApp
  · exact congrArg Bool.toNat h.rxcbUsb

/-- A synchroniser writes its own copy, with the source's value. -/
theorem copyOf_syncStep (c d : Copy) (s : State) :
    copyOf c (syncStep d s) = if d = c then sourceOf c s else copyOf c s := by
  cases c <;> cases d <;> rfl

/-- Settles O23: a port's step writes no copy, a synchroniser only its own. -/
theorem copiesAreWrittenBySyncOnly : Obligations.CopiesAreWrittenBySyncOnly := by
  unfold Obligations.CopiesAreWrittenBySyncOnly
  intro s t c h
  rcases step_moves h with ⟨ha, p, hm⟩ | ⟨ha, p, hm⟩ | ⟨d, ha, rfl⟩
  · rw [ha]
    exact ⟨nofun, fun _ => (hm.copyOf c).trans (copyOf_afterSched c s)⟩
  · rw [ha]
    exact ⟨nofun, fun _ => (hm.copyOf c).trans (copyOf_afterSched c s)⟩
  · rw [ha, copyOf_syncStep, copyOf_afterSched, sourceOf_afterSched]
    refine ⟨fun heq => ?_, fun hne => if_neg fun hdc => hne (congrArg _ hdc)⟩
    cases heq
    exact if_pos rfl

/-- Settles O24: each port's step writes its own side's registers, a synchroniser none. -/
theorem flagsAreWrittenByTheirDomain : Obligations.FlagsAreWrittenByTheirDomain := by
  unfold Obligations.FlagsAreWrittenByTheirDomain
  intro s t h
  rcases step_moves h with ⟨ha, p, hm⟩ | ⟨ha, p, hm⟩ | ⟨c, -, rfl⟩
  · have hin := hm.usbIn
    have hside := hm.usbSide.resolve_right (by simp)
    simp only [State.afterSched_conn, State.afterSched_pef, State.afterSched_usbOp, State.afterSched_pkt,
      State.afterSched_pktlen, State.afterSched_usbIn] at hin hside
    obtain ⟨hconn, hpef, hop, hpkt, hlen⟩ := hside
    exact ⟨fun _ => ⟨hconn, hpef, hop, hpkt, hlen, hin⟩, fun hn => absurd ha hn⟩
  · have hin := hm.appIn
    have hside := hm.appSide.resolve_right (by simp)
    simp only [State.afterSched_initDone, State.afterSched_rxcbEn, State.afterSched_appOp,
      State.afterSched_appIn] at hin hside
    obtain ⟨hinit, hcb, hop⟩ := hside
    exact ⟨fun hn => absurd ha hn, fun _ => ⟨hinit, hcb, hop, hin⟩⟩
  · cases c <;> simp [syncStep]

/-! Steps that run nothing, and the step that runs a decoded command (R48, R54, R56, R59). -/

theorem appStep_hold {s : State} (hop : s.appOp = .idle) (hp : s.appIn.pending = []) : appStep s = .next s := by
  unfold appStep
  rw [hop, hp]

theorem usbStep_hold {s : State} (hop : s.usbOp = .idle) (hp : s.usbIn.pending = []) : usbStep s = .next s := by
  unfold usbStep
  rw [hop, hp]

theorem runElem_exec {e : StreamElem} {s : State} {i : Instr} (hd : decode (.cmd32 e) = .ok i) :
    runElem e s = exec i s := by
  unfold runElem
  rw [hd]

/-- An idle APP agent runs the instruction its next element decodes to. -/
theorem appStep_exec {s : State} {e : StreamElem} {rest : List StreamElem} {i : Instr} (hop : s.appOp = .idle)
    (hp : s.appIn.pending = e :: rest) (hd : decode (.cmd32 e) = .ok i) :
    appStep s = exec i { s with appIn := { taken := s.appIn.taken + 1, pending := rest } } := by
  rw [← runElem_exec hd]
  unfold appStep
  rw [hop, hp]

theorem step_afterRefusal {s : State} (hc : s.cfg.legal = true) (hr : s.refusedBit = true) :
    step s = .refused .afterRefusal := by
  unfold step machineStep
  rw [if_neg (by simp [hc]), if_pos hr]

/-- When a run has ended, every agent's step is a hold (R58). -/
theorem agentStep_runEnded {s : State} (h : runEnded s) (a : Agent) :
    ∃ d, agentStep a s.afterSched = .next { s.afterSched with issuer := d } := by
  obtain ⟨happ, hapo, husb, huso, hsync⟩ := h
  cases a with
  | app => exact ⟨.app, appStep_hold (by simpa using hapo) (by simpa using happ)⟩
  | usb => exact ⟨.usb, usbStep_hold (by simpa using huso) (by simpa using husb)⟩
  | sync c =>
    refine ⟨s.afterSched.issuer, congrArg _ (syncStep_synced ?_)⟩
    rw [copyOf_afterSched, sourceOf_afterSched, hsync c]

/-- Settles O59: every step of an ended run is a hold. -/
theorem endedRunOnlyHolds : Obligations.EndedRunOnlyHolds := by
  unfold Obligations.EndedRunOnlyHolds
  intro s t hend h
  obtain ⟨-, -, h⟩ := step_eq_next h
  obtain ⟨d, hhold⟩ := agentStep_runEnded hend s.nextAgent
  rw [hhold, State.afterSched_record s] at h
  cases h
  exact ⟨rfl, hend⟩

/-- Settles O10: the agent is next and idle, so it runs what its element decodes to. -/
theorem appPortRunsTheDecodedCommand : Obligations.AppPortRunsTheDecodedCommand := by
  unfold Obligations.AppPortRunsTheDecodedCommand
  intro s agents e rest i hc hr hs hop hp hd
  rw [step_scheduled hc hr hs]
  exact appStep_exec hop hp hd

/-- Settles O13: the three ways an agent has no step. -/
theorem agentsWithoutAStepHold : Obligations.AgentsWithoutAStepHold := by
  unfold Obligations.AgentsWithoutAStepHold
  intro s agents hc hr
  refine ⟨fun hs hp hop => ?_, fun hs hp hop => ?_, fun c hs hsync => ?_⟩
  · rw [step_scheduled hc hr hs]
    exact appStep_hold hop hp
  · rw [step_scheduled hc hr hs]
    exact usbStep_hold hop hp
  · rw [step_scheduled hc hr hs]
    refine congrArg _ (syncStep_synced ?_)
    cases c <;> exact hsync

/-- Settles O16: the refusal mark is tested before an agent is chosen. -/
theorem noStepAfterARefusal : Obligations.NoStepAfterARefusal := by
  unfold Obligations.NoStepAfterARefusal
  intro s hc hr
  exact step_afterRefusal hc (Option.isSome_iff_ne_none.2 hr)

end Sys2Proof.Machine
end

section
/-! PROOF. The block's invariant (10_state.md R32, 20_memory.md R72, 42_endpoint_events.md R177, R178): it holds at
power-on reset and every step keeps it. -/

namespace Sys2Proof

/-- The count of a decoded `SEND` is a 16-bit field (30_encoding.md R88). -/
theorem decode_send_length {e : StreamElem} {bytes : List Byte} (h : decode (.cmd32 e) = .ok (.send bytes)) :
    bytes.length < 65536 := by
  obtain ⟨op, sel, imm, -, -, -, hb⟩ := decodeElem_eq_ok h
  unfold decodeBody at hb
  cases op with
  | send =>
    dsimp only at hb
    split at hb <;> cases hb
    omega
  | evSetup =>
    dsimp only at hb
    split at hb
    · split at hb <;> cases hb
    · cases hb
  | evBulkOut =>
    dsimp only at hb
    split at hb
    · cases hb
    · split at hb <;> cases hb
  | _ =>
    obtain ⟨-, hi⟩ := noPayload_eq_ok hb
    cases sel <;> cases hi

end Sys2Proof

namespace Sys2Proof.Machine

open Sys2Proof.Safety

variable {i : Instr} {s t : State}

/-! The invariant at reset. -/

theorem blockInv_por {c : Config} (hc : c.legal = true) : BlockInv (State.por c) :=
  ⟨hc, FifoInv.empty c .rx, FifoInv.empty c .tx, rfl, nofun, Nat.zero_le _, trivial, trivial, nofun⟩

/-- Settles O9: the FIFOs are empty, nothing is in flight and nothing has been emitted. -/
theorem resetMeetsTheInvariant : Obligations.ResetMeetsTheInvariant :=
  ⟨fun _ hc => blockInv_por hc, blockInv_por (by decide)⟩

/-! The in-flight state of the APP agent. -/

theorem exec_appOp (h : exec i s = .next t) : t.appOp = s.appOp ∨ (∃ bytes, i = .send bytes) ∨ i = .poll := by
  have hw := exec_writes h
  cases i with
  | send bytes => exact .inr (.inl ⟨bytes, rfl⟩)
  | poll => exact .inr (.inr rfl)
  | _ => simp only [writesOnly] at hw; exact .inl (by rw [hw])

theorem execSend_appOp {bytes : List Byte} (h : execSend bytes s = .next t) :
    t.appOp = s.appOp ∨ bytes ≠ [] ∧ t.appOp = .send bytes 0 0 := by
  rcases onPort_eq_next h with ⟨-, h⟩ | ⟨-, rfl⟩
  · split at h <;> cases h
    · exact .inl rfl
    · next hne => exact .inr ⟨hne, rfl⟩
  · exact .inl rfl

theorem execPoll_appOp (h : execPoll s = .next t) : t.appOp = s.appOp ∨ t.appOp = .poll := by
  rcases onPort_eq_next h with ⟨-, h⟩ | ⟨-, rfl⟩
  · cases h; exact .inr rfl
  · exact .inl rfl

theorem runElem_appOpOk {e : StreamElem} (hs : appOpOk s.appOp) (h : runElem e s = .next t) : appOpOk t.appOp := by
  rcases runElem_cases h with ⟨r, -, rfl⟩ | ⟨i, hd, h⟩
  · exact hs
  · rcases exec_appOp h with hsame | ⟨bytes, rfl⟩ | rfl
    · rwa [hsame]
    · rcases execSend_appOp h with hsame | ⟨hne, hop⟩
      · rwa [hsame]
      · rw [hop]
        exact ⟨List.length_pos_iff.2 hne, Nat.le_refl 0, decode_send_length hd⟩
    · rcases execPoll_appOp h with hsame | hop
      · rwa [hsame]
      · rw [hop]; trivial

/-- A `SEND` micro-step moves on by one byte and counts at most that byte (43_facade.md R198). -/
theorem sendStep_appOp {bytes : List Byte} {i a : Nat} (h : sendStep bytes i a s = .next t) :
    t.appOp = .idle ∨ ∃ acc : Bool, i + 1 < bytes.length ∧ t.appOp = .send bytes (i + 1) (a + acc.toNat) := by
  unfold sendStep at h
  split at h
  · cases h; exact .inl rfl
  · next b hb =>
    obtain ⟨⟨acc, u⟩, -, h⟩ := andThen_eq_next h
    have hlt := (List.getElem?_eq_some_iff.1 hb).1
    dsimp only at h
    split at h <;> cases h
    · exact .inl rfl
    · exact .inr ⟨acc, by omega, rfl⟩

theorem appStep_appOpOk (hs : appOpOk s.appOp) (h : appStep s = .next t) : appOpOk t.appOp := by
  rcases appStep_cases h with ⟨rfl, -⟩ | ⟨bytes, i, a, hop, h⟩ | ⟨-, h⟩ | ⟨-, e, rest, -, h⟩
  · exact hs
  · rw [hop] at hs
    obtain ⟨-, ha, hlen⟩ := hs
    rcases sendStep_appOp h with hidle | ⟨acc, hi, hnext⟩
    · rw [hidle]; trivial
    · rw [hnext]
      have := acc.toNat_le
      exact ⟨hi, by omega, hlen⟩
  · unfold pollEnd at h
    split at h <;> cases h
    · trivial
    · exact hs
  · refine runElem_appOpOk ?_ h
    exact hs

/-! The packet buffer and the in-flight state of the USB agent. -/

/-- The part of the block's invariant that the USB agent alone writes. -/
structure PacketInv (s : State) : Prop where
  canonical : Memory.wf s.pkt = true
  inside : ∀ cell ∈ s.pkt, cell.1 < mpsBulk
  len_le : s.pktlen ≤ mpsBulk
  usbOp : usbOpOk s.pktlen s.usbOp

theorem PacketInv.congr (h : PacketInv s) (hpkt : t.pkt = s.pkt) (hlen : t.pktlen = s.pktlen)
    (hop : t.usbOp = s.usbOp) : PacketInv t :=
  ⟨by rw [hpkt]; exact h.canonical, by rw [hpkt]; exact h.inside, by rw [hlen]; exact h.len_le,
    by rw [hlen, hop]; exact h.usbOp⟩

theorem exec_packet (h : exec i s = .next t) :
    (t.pkt = s.pkt ∧ t.pktlen = s.pktlen ∧ t.usbOp = s.usbOp) ∨ ∃ bytes, i = .evBulkOut bytes := by
  have hw := exec_writes h
  cases i with
  | evBulkOut bytes => exact .inr ⟨bytes, rfl⟩
  | _ => simp only [writesOnly] at hw; exact .inl (by rw [hw]; exact ⟨rfl, rfl, rfl⟩)

/-- `EV_BULK_OUT` leaves its packet in the buffer; the USB agent is idle or at the packet's first byte. -/
theorem afterBulkOut_packet (bytes : List Byte) (s : State) :
    (afterBulkOut bytes s).pkt = Memory.writeBytes s.pkt 0 bytes ∧ (afterBulkOut bytes s).pktlen = bytes.length ∧
      ((afterBulkOut bytes s).usbOp = s.usbOp ∨ (afterBulkOut bytes s).usbOp = .rx bytes.length 0 false) := by
  unfold afterBulkOut
  rw [callback_eq, callback_eq]
  split
  · exact ⟨rfl, rfl, .inl rfl⟩
  · split
    · exact ⟨rfl, rfl, .inl rfl⟩
    · exact ⟨rfl, rfl, .inr rfl⟩

/-- A loaded packet meets the invariant. -/
theorem afterBulkOut_packetInv {bytes : List Byte} (hs : PacketInv s) (hidle : s.usbOp = .idle)
    (hlen : bytes.length ≤ mpsBulk) : PacketInv (afterBulkOut bytes s) := by
  obtain ⟨hpkt, hpl, hop⟩ := afterBulkOut_packet bytes s
  refine ⟨by rw [hpkt]; exact Memory.wf_writeBytes hs.canonical _ _, fun cell hcell => ?_, by rwa [hpl], ?_⟩
  · rw [hpkt] at hcell
    rcases Memory.mem_writeBytes hcell with hold | ⟨-, hnew⟩
    · exact hs.inside cell hold
    · omega
  · rw [hpl]
    rcases hop with hop | hop <;> rw [hop]
    · rw [hidle]; trivial
    · exact ⟨rfl, Nat.zero_le _⟩

theorem runElem_packetInv {e : StreamElem} (hs : PacketInv s) (hidle : s.usbOp = .idle)
    (h : runElem e s = .next t) : PacketInv t := by
  rcases runElem_cases h with ⟨r, -, rfl⟩ | ⟨i, -, h⟩
  · exact hs.congr rfl rfl rfl
  · rcases exec_packet h with ⟨hpkt, hlen, hop⟩ | ⟨bytes, rfl⟩
    · exact hs.congr hpkt hlen hop
    · rcases execEvBulkOut_cases h with ⟨-, rfl⟩ | ⟨-, hlen, rfl⟩
      · exact hs.congr rfl rfl rfl
      · exact afterBulkOut_packetInv hs hidle hlen

/-- A slow-path micro-step moves on by one byte; the completion ends the packet (42_endpoint_events.md R166, R167). -/
theorem afterRxStep_usbOp (len i : Nat) (drop : Bool) (s : State) :
    (afterRxStep len i drop s).usbOp = .idle ∨
      ∃ drop', i < len ∧ (afterRxStep len i drop s).usbOp = .rx len (i + 1) drop' := by
  unfold afterRxStep
  split
  · next hlt => split <;> exact .inr ⟨_, hlt, rfl⟩
  · exact .inl rfl

theorem afterRxStep_packetInv {len i : Nat} {drop : Bool} (hs : PacketInv s) (hop : s.usbOp = .rx len i drop) :
    PacketInv (afterRxStep len i drop s) := by
  have hok := hs.usbOp
  rw [hop] at hok
  obtain ⟨rfl, -⟩ := hok
  have hnext := afterRxStep_usbOp s.pktlen i drop s
  obtain ⟨rx, op, out, hw⟩ := afterRxStep_writes s.pktlen i drop s
  rw [hw] at hnext ⊢
  refine ⟨hs.canonical, hs.inside, hs.len_le, ?_⟩
  rcases hnext with hidle | ⟨drop', hlt, hrx⟩
  · rw [hidle]; trivial
  · rw [hrx]; exact ⟨rfl, hlt⟩

theorem usbStep_packetInv (hs : PacketInv s) (h : usbStep s = .next t) : PacketInv t := by
  rcases usbStep_cases h with ⟨rfl, -⟩ | ⟨len, i, drop, hop, h⟩ | ⟨hop, e, rest, -, -, h⟩
  · exact hs
  · rw [rxStep_eq_next h]; exact afterRxStep_packetInv hs hop
  · refine runElem_packetInv ?_ ?_ h
    · exact hs.congr rfl rfl rfl
    · exact hop

/-! The invariant of the block. -/

theorem blockInv_packetInv (h : BlockInv s) : PacketInv s := ⟨h.pkt_canonical, h.pkt_inside, h.pktlen_le, h.usbOp⟩

/-- The invariant does not speak of the environment's choices, the streams or the issuing port. -/
theorem blockInv_preamble (h : BlockInv s) (sched : List Agent) (free : Nat) (issuer : Domain)
    (appIn usbIn : PortStream) : BlockInv { s with sched, free, issuer, appIn, usbIn } :=
  ⟨h.legal, h.rx, h.tx, h.pkt_canonical, h.pkt_inside, h.pktlen_le, h.appOp, h.usbOp, h.outputs⟩

theorem blockInv_afterSched (h : BlockInv s) : BlockInv s.afterSched := by
  rw [State.afterSched_record s]
  exact blockInv_preamble h ..

/-- The FIFO and trace parts of the invariant follow from what a port's step can do. -/
theorem blockInv_of_moves (h : BlockInv s) (hm : Moves s t) (happ : appOpOk t.appOp) (hpkt : PacketInv t) :
    BlockInv t := by
  obtain ⟨os, hout, hos⟩ := hm.out
  refine ⟨by rw [hm.cfg]; exact h.legal, by rw [hm.cfg]; exact hm.rx.inv h.legal h.rx,
    by rw [hm.cfg]; exact hm.tx.inv h.legal h.tx, hpkt.canonical, hpkt.inside, hpkt.len_le, happ, hpkt.usbOp, ?_⟩
  intro o ho
  rw [hout] at ho
  rcases List.mem_append.1 ho with hold | hnew
  · exact h.outputs o hold
  · exact hos o hnew

theorem appStep_blockInv (h : BlockInv s) (hi : s.issuer = .app) (hstep : appStep s = .next t) : BlockInv t := by
  obtain ⟨p, hm⟩ := appStep_moves hi hstep
  have hside := hm.usbSide.resolve_right (by simp [hi])
  obtain ⟨-, -, hop, hpkt, hlen⟩ := hside
  exact blockInv_of_moves (blockInv_preamble h _ _ _ p _) hm (appStep_appOpOk h.appOp hstep)
    ((blockInv_packetInv h).congr hpkt hlen hop)

theorem usbStep_blockInv (h : BlockInv s) (hi : s.issuer = .usb) (hstep : usbStep s = .next t) : BlockInv t := by
  obtain ⟨p, hm⟩ := usbStep_moves hi hstep
  have hside := hm.appSide.resolve_right (by simp [hi])
  obtain ⟨-, -, hop⟩ := hside
  exact blockInv_of_moves (blockInv_preamble h _ _ _ _ p) hm (by rw [hop]; exact h.appOp)
    (usbStep_packetInv (blockInv_packetInv h) hstep)

/-- A synchroniser brings one copy up to its source, or copies a flag. -/
theorem syncStep_blockInv (h : BlockInv s) (c : Copy) : BlockInv (syncStep c s) := by
  have build {rx tx : Fifo} (hrx : FifoInv s.cfg .rx rx) (htx : FifoInv s.cfg .tx tx) (connApp rxcbUsb : Bool) :
      BlockInv { s with rx, tx, connApp, rxcbUsb } :=
    ⟨h.legal, hrx, htx, h.pkt_canonical, h.pkt_inside, h.pktlen_le, h.appOp, h.usbOp, h.outputs⟩
  cases c with
  | rxPut => exact build h.rx.syncPut h.tx ..
  | rxGet => exact build h.rx.syncGet h.tx ..
  | txPut => exact build h.rx h.tx.syncPut ..
  | txGet => exact build h.rx h.tx.syncGet ..
  | conn | rxcb => exact build h.rx h.tx ..

theorem agentStep_blockInv {a : Agent} (h : BlockInv s) (hstep : agentStep a s = .next t) : BlockInv t := by
  cases a with
  | app => exact appStep_blockInv (blockInv_preamble h s.sched s.free .app s.appIn s.usbIn) rfl hstep
  | usb => exact usbStep_blockInv (blockInv_preamble h s.sched s.free .usb s.appIn s.usbIn) rfl hstep
  | sync c => cases hstep; exact syncStep_blockInv h c

/-- Settles O19: each agent's step keeps the invariant, and choosing an agent does not touch it. -/
theorem stepKeepsTheInvariant : Obligations.StepKeepsTheInvariant := by
  unfold Obligations.StepKeepsTheInvariant
  intro s t h hstep
  exact agentStep_blockInv (blockInv_afterSched h) (step_eq_next hstep).2.2

end Sys2Proof.Machine
end

section
/-! PROOF. Storage that is not valid is never seen (10_state.md R37, R53). Two states of the invariant that differ only
there are followed through each operation: a register update neither reads nor writes storage, a push and a pop touch
valid bytes only, and the packet buffer is read inside the packet only. -/

namespace Sys2Proof.Safety

open Sys2Proof.Machine

/-- The state with other storage contents. -/
def withStorage (rxData txData pkt : Memory) (s : State) : State :=
  { s with rx := { s.rx with data := rxData }, tx := { s.tx with data := txData }, pkt }

/-- An update that neither reads nor writes FIFO storage, counters or the packet buffer. -/
structure RegisterUpdate (g : State → State) : Prop where
  commutes : ∀ a b p s, g (withStorage a b p s) = withStorage a b p (g s)
  frame : ∀ s, g s = { g s with
    cfg := s.cfg, pkt := s.pkt, pktlen := s.pktlen,
    rx := { (g s).rx with data := s.rx.data, put := s.rx.put, get := s.rx.get },
    tx := { (g s).tx with data := s.tx.data, put := s.tx.put, get := s.tx.get } }

namespace RegisterUpdate

variable {g : State → State} (hg : RegisterUpdate g) (s : State)
include hg

theorem cfg : (g s).cfg = s.cfg := by rw [hg.frame s]
theorem pkt : (g s).pkt = s.pkt := by rw [hg.frame s]
theorem pktlen : (g s).pktlen = s.pktlen := by rw [hg.frame s]
theorem rx_data : (g s).rx.data = s.rx.data := by rw [hg.frame s]
theorem rx_put : (g s).rx.put = s.rx.put := by rw [hg.frame s]
theorem rx_get : (g s).rx.get = s.rx.get := by rw [hg.frame s]
theorem tx_data : (g s).tx.data = s.tx.data := by rw [hg.frame s]
theorem tx_put : (g s).tx.put = s.tx.put := by rw [hg.frame s]
theorem tx_get : (g s).tx.get = s.tx.get := by rw [hg.frame s]

end RegisterUpdate

variable {s t s' : State}

/-! States that differ only in stale storage. -/

theorem SameButStale.exists_withStorage (h : SameButStale s t) : ∃ a b p, t = withStorage a b p s :=
  ⟨_, _, _, h.rest⟩

/-- What does not depend on storage is the same in both states. -/
theorem SameButStale.register {α : Type} (h : SameButStale s t) {φ : State → α}
    (hφ : ∀ a b p s, φ (withStorage a b p s) = φ s) : φ t = φ s := by
  obtain ⟨a, b, p, rfl⟩ := h.exists_withStorage
  exact hφ a b p s

theorem SameButStale.cfg (h : SameButStale s t) : t.cfg = s.cfg := h.register (φ := State.cfg) fun _ _ _ _ => rfl

theorem SameButStale.issuer (h : SameButStale s t) : t.issuer = s.issuer :=
  h.register (φ := State.issuer) fun _ _ _ _ => rfl

theorem SameButStale.fifo (h : SameButStale s t) (f : Sel) : ∃ d, t.fifo f = { s.fifo f with data := d } := by
  obtain ⟨a, b, p, rfl⟩ := h.exists_withStorage
  cases f
  · exact ⟨a, rfl⟩
  · exact ⟨b, rfl⟩

theorem SameButStale.contents (h : SameButStale s t) (f : Sel) :
    contents s.cfg f (t.fifo f) = contents s.cfg f (s.fifo f) := by
  cases f
  · exact h.rx
  · exact h.tx

/-- The valid bytes depend on storage and the two counters only. -/
theorem contents_congr {c : Config} {f : Sel} {x y : Fifo} (hd : y.data = x.data) (hp : y.put = x.put)
    (hg : y.get = x.get) : contents c f y = contents c f x := by
  unfold Safety.contents
  rw [hd, hp, hg]

theorem SameButStale.update {g : State → State} (hg : RegisterUpdate g) (h : SameButStale s t) :
    SameButStale (g s) (g t) := by
  obtain ⟨a, b, p, rfl⟩ := h.exists_withStorage
  rw [hg.commutes]
  refine ⟨rfl, ?_, ?_, fun i hi => ?_⟩
  · rw [hg.cfg, contents_congr (hg.rx_data s) (hg.rx_put s) (hg.rx_get s), ← h.rx]
    exact contents_congr rfl (hg.rx_put s) (hg.rx_get s)
  · rw [hg.cfg, contents_congr (hg.tx_data s) (hg.tx_put s) (hg.tx_get s), ← h.tx]
    exact contents_congr rfl (hg.tx_put s) (hg.tx_get s)
  · rw [hg.pkt]
    exact h.pkt i (by rwa [hg.pktlen] at hi)

theorem SameButStale.setFifo (h : SameButStale s t) {f : Sel} {x y : Fifo} (hy : ∃ d, y = { x with data := d })
    (hc : Safety.contents s.cfg f y = Safety.contents s.cfg f x) : SameButStale (s.setFifo f x) (t.setFifo f y) := by
  obtain ⟨a, b, p, rfl⟩ := h.exists_withStorage
  obtain ⟨d, rfl⟩ := hy
  cases f
  · exact ⟨rfl, hc, h.tx, h.pkt⟩
  · exact ⟨rfl, h.rx, hc, h.pkt⟩

/-! Register updates. -/

theorem RegisterUpdate.comp {g k : State → State} (hg : RegisterUpdate g) (hk : RegisterUpdate k) :
    RegisterUpdate fun s => g (k s) where
  commutes a b p s := by rw [hk.commutes, hg.commutes]
  frame s := by
    simpa only [hk.cfg, hk.pkt, hk.pktlen, hk.rx_data, hk.rx_put, hk.rx_get, hk.tx_data, hk.tx_put, hk.tx_get]
      using hg.frame (k s)

/-- A choice that does not depend on storage. -/
theorem RegisterUpdate.ite {g k : State → State} {c : State → Prop} [DecidablePred c]
    (hc : ∀ a b p s, c (withStorage a b p s) ↔ c s) (hg : RegisterUpdate g) (hk : RegisterUpdate k) :
    RegisterUpdate fun s => if c s then g s else k s where
  commutes a b p s := by
    simp only [hc]
    split
    · exact hg.commutes a b p s
    · exact hk.commutes a b p s
  frame s := by
    split
    · exact hg.frame s
    · exact hk.frame s

/-- A hold. -/
theorem RegisterUpdate.hold : RegisterUpdate fun s => s := ⟨fun _ _ _ _ => rfl, fun _ => rfl⟩

/-- An answer whose word does not depend on storage. -/
theorem RegisterUpdate.result {v : State → Word} (hv : ∀ a b p s, v (withStorage a b p s) = v s) :
    RegisterUpdate fun s => s.result (v s) :=
  ⟨fun a b p s => by rw [hv]; rfl, fun _ => rfl⟩

theorem RegisterUpdate.answer (v : Word) : RegisterUpdate (·.result v) := .result fun _ _ _ _ => rfl

/-! One register written, or one output emitted. -/

theorem RegisterUpdate.refuse (r : RefuseReason) : RegisterUpdate (·.refuse r) :=
  ⟨fun _ _ _ _ => rfl, fun _ => rfl⟩

theorem RegisterUpdate.setAppOp (op : AppOp) : RegisterUpdate ({ · with appOp := op }) :=
  ⟨fun _ _ _ _ => rfl, fun _ => rfl⟩

theorem RegisterUpdate.setUsbOp (op : UsbOp) : RegisterUpdate ({ · with usbOp := op }) :=
  ⟨fun _ _ _ _ => rfl, fun _ => rfl⟩

theorem RegisterUpdate.setRxcbEn (en : Bool) : RegisterUpdate ({ · with rxcbEn := en }) :=
  ⟨fun _ _ _ _ => rfl, fun _ => rfl⟩

theorem RegisterUpdate.setConn (conn : Bool) : RegisterUpdate ({ · with conn := conn }) :=
  ⟨fun _ _ _ _ => rfl, fun _ => rfl⟩

theorem RegisterUpdate.setPef (pef : Bool) : RegisterUpdate ({ · with pef := pef }) :=
  ⟨fun _ _ _ _ => rfl, fun _ => rfl⟩

theorem RegisterUpdate.emit (o : Output) : RegisterUpdate (·.emit o) :=
  ⟨fun _ _ _ _ => rfl, fun _ => rfl⟩

theorem RegisterUpdate.setIssuer (d : Domain) : RegisterUpdate ({ · with issuer := d }) :=
  ⟨fun _ _ _ _ => rfl, fun _ => rfl⟩

theorem RegisterUpdate.setAppIn (p : PortStream) : RegisterUpdate ({ · with appIn := p }) :=
  ⟨fun _ _ _ _ => rfl, fun _ => rfl⟩

theorem RegisterUpdate.setUsbIn (p : PortStream) : RegisterUpdate ({ · with usbIn := p }) :=
  ⟨fun _ _ _ _ => rfl, fun _ => rfl⟩

/-! The shared operations on registers. -/

/-- A synchroniser reads and writes counters' copies and flags only. -/
theorem RegisterUpdate.syncStep (c : Copy) : RegisterUpdate (syncStep c) := by
  cases c <;> exact ⟨fun _ _ _ _ => rfl, fun _ => rfl⟩

theorem afterSched_withStorage (a b p : Memory) (s : State) :
    (withStorage a b p s).afterSched = withStorage a b p s.afterSched := by
  unfold State.afterSched withStorage
  cases s.sched <;> rfl

theorem RegisterUpdate.afterSched : RegisterUpdate State.afterSched :=
  ⟨afterSched_withStorage, fun s => by rw [State.afterSched_record s]⟩

theorem afterDraw_withStorage (a b p : Memory) (s : State) :
    (withStorage a b p s).afterDraw = withStorage a b p s.afterDraw := by
  unfold State.afterDraw withStorage
  cases s.draws <;> rfl

theorem RegisterUpdate.afterDraw : RegisterUpdate State.afterDraw :=
  ⟨afterDraw_withStorage, fun s => by rw [State.afterDraw_record s]⟩

theorem RegisterUpdate.callback (bytes : List Byte) : RegisterUpdate (callback bytes) :=
  .ite (c := fun s => s.rxcbUsb = true) (fun _ _ _ _ => Iff.rfl) (.emit _) .hold

/-- The draw of `INIT` and its answer. -/
theorem RegisterUpdate.init : RegisterUpdate fun s =>
    if s.initDone then s.refuse .reinit
    else State.result { s.afterDraw with initDone := s.drawn } (bitWord (!s.drawn)) := by
  refine .ite (c := fun s => s.initDone = true) (fun _ _ _ _ => Iff.rfl) (.refuse _) ⟨?_, ?_⟩
  · intro a b p s; rw [afterDraw_withStorage]; rfl
  · intro s; rw [State.afterDraw_record s]; rfl

theorem RegisterUpdate.verdict (v : Verdict) (data : List Byte) : RegisterUpdate (Machine.answer v data) :=
  (RegisterUpdate.answer _).comp (.emit _)

/-- The draw of the notification and its output. -/
theorem RegisterUpdate.notification (v : Half) : RegisterUpdate (notification v) := by
  refine .ite (c := fun s => s.cfg.serialStateNotify = true) (fun _ _ _ _ => Iff.rfl) ⟨?_, ?_⟩ .hold
  · intro a b p s; rw [afterDraw_withStorage]; rfl
  · intro s; rw [State.afterDraw_record s]

theorem RegisterUpdate.lineState (v : Half) : RegisterUpdate (lineStateRequest v) :=
  (RegisterUpdate.verdict ..).comp ((RegisterUpdate.notification v).comp (.setConn _))

theorem RegisterUpdate.setCoding (wLength : Half) (data : List Byte) :
    RegisterUpdate (setCodingRequest wLength data) :=
  .ite (c := fun _ => lcSize ≤ wLength.toNat) (fun _ _ _ _ => Iff.rfl) (.verdict ..) (.verdict ..)

/-! Instructions that use no storage. -/

/-- The instructions that read or write FIFO storage or the packet buffer. -/
def usesStorage : Instr → Bool
  | .rbPushRx _ | .rbPushTx _ | .rbPopRx | .rbPopTx | .recvByte | .sendByte _ | .evBulkOut _ | .evSof => true
  | _ => false

/-- A register update behind a port test is one. -/
theorem registers_onPort {d : Domain} {k : State → Result State} {g : State → State} (hg : RegisterUpdate g)
    (hk : ∀ s, k s = .next (g s)) :
    ∃ g', RegisterUpdate g' ∧ ∀ s, onPort (s.issuer == d) s (k s) = .next (g' s) := by
  refine ⟨_, hg.ite (c := fun s => (s.issuer == d) = true) (fun _ _ _ _ => Iff.rfl) (.refuse .domain), fun s => ?_⟩
  rw [hk]
  cases s.issuer == d <;> rfl

/-- Every other instruction is a register update. -/
theorem exec_registers {i : Instr} (hi : usesStorage i = false) :
    ∃ g, RegisterUpdate g ∧ ∀ s, exec i s = .next (g s) := by
  cases i with
  | rbPushRx | rbPushTx | rbPopRx | rbPopTx | recvByte | sendByte | evBulkOut | evSof => cases hi
  | rbLenRx | rbLenTx | rbIsFullRx | rbIsFullTx | rbIsEmptyRx | rbIsEmptyTx | rbContigSpaceRx | rbContigSpaceTx
  | rbContigLenRx | rbContigLenTx => exact ⟨_, .result fun _ _ _ _ => rfl, fun _ => rfl⟩
  | connected | available => exact registers_onPort (.result fun _ _ _ _ => rfl) fun _ => rfl
  | init => exact registers_onPort .init fun s => by split <;> rfl
  | send bytes =>
    refine registers_onPort (.ite (c := fun _ => bytes = []) (fun _ _ _ _ => Iff.rfl) (.answer 0#32)
      (.setAppOp (.send bytes 0 0))) fun s => ?_
    split <;> rfl
  | poll => exact registers_onPort (.setAppOp .poll) fun _ => rfl
  | setRxCallback en => exact registers_onPort ((RegisterUpdate.answer _).comp (.setRxcbEn en)) fun _ => rfl
  | evReset => exact registers_onPort ((RegisterUpdate.answer _).comp (.setConn false)) fun _ => rfl
  | evDataIn ep => exact registers_onPort (.answer _) fun _ => rfl
  | evSetup p stage =>
    refine registers_onPort ?_ fun _ => rfl
    exact .ite (c := fun _ => p.bmRequestType &&& 0x7F#8 ≠ 0x21#8) (fun _ _ _ _ => Iff.rfl) (.verdict ..)
      (.ite (c := fun _ => p.bRequest = 0x22#8) (fun _ _ _ _ => Iff.rfl) (.lineState _)
        (.ite (c := fun _ => p.bRequest = 0x20#8) (fun _ _ _ _ => Iff.rfl) (.setCoding ..)
          (.ite (c := fun _ => p.bRequest = 0x21#8) (fun _ _ _ _ => Iff.rfl)
            (.verdict .handled LineCoding.fixed.bytes) (.verdict ..))))
  | setLineCoding dir v ix l => exact registers_onPort (.setCoding l []) fun _ => rfl
  | setControlLineState dir v ix l => exact registers_onPort (.lineState v) fun _ => rfl
  | getLineCoding => exact registers_onPort (.verdict .handled LineCoding.fixed.bytes) fun _ => rfl
  | classInterfaceUnsupported | notRouted => exact registers_onPort (.verdict ..) fun _ => rfl

end Sys2Proof.Safety
end

section
/-! PROOF. Storage that is not valid is never seen, the operations on storage and the step (10_state.md R37, R53). -/

namespace Sys2Proof.Safety

open Sys2Proof.Machine

variable {s t : State}

/-- Two states of the invariant that differ only in stale storage. -/
structure Twins (s t : State) : Prop where
  left : BlockInv s
  right : BlockInv t
  same : SameButStale s t

/-- The second outcome follows the first: a next state is answered by one that differs only in stale storage. -/
def Follows (o o' : Result State) : Prop := ∀ s', o = .next s' → ∃ t', o' = .next t' ∧ SameButStale s' t'

theorem BlockInv.fifo (h : BlockInv s) (f : Sel) : FifoInv s.cfg f (s.fifo f) := by
  cases f
  · exact h.rx
  · exact h.tx

theorem Twins.fifoInv (h : Twins s t) (f : Sel) : FifoInv s.cfg f (t.fifo f) := h.same.cfg ▸ h.right.fifo f

theorem Twins.update {g : State → State} (hg : RegisterUpdate g) (h : Twins s t) (hl : BlockInv (g s))
    (hr : BlockInv (g t)) : Twins (g s) (g t) := ⟨hl, hr, h.same.update hg⟩

theorem follows_next (h : SameButStale s t) : Follows (.next s) (.next t) := by
  rintro _ ⟨⟩
  exact ⟨t, rfl, h⟩

theorem follows_ite {c : Prop} [Decidable c] {o k o' k' : Result State} (ho : Follows o o') (hk : Follows k k') :
    Follows (if c then o else k) (if c then o' else k') := by
  split
  · exact ho
  · exact hk

/-- A refusal depends on the issuing port only. -/
theorem follows_onPort {d : Domain} {k k' : Result State} (h : SameButStale s t)
    (hk : s.issuer = d → Follows k k') : Follows (onPort (s.issuer == d) s k) (onPort (t.issuer == d) t k') := by
  rw [h.issuer]
  by_cases hd : s.issuer = d
  · rw [onPort_pos s (by simpa using hd), onPort_pos t (by simpa using hd)]
    exact hk hd
  · rw [onPort_neg s (by simpa using hd), onPort_neg t (by simpa using hd)]
    exact follows_next (h.update (.refuse .domain))

/-! A push and a pop. -/

/-- The same bytes appended behind the same valid bytes. -/
theorem Twins.appended (h : Twins s t) {f : Sel} {bytes : List Byte}
    (hfree : bytes.length ≤ s.cfg.cap f - s.cfg.occ (s.fifo f).put (s.fifo f).getCopy)
    (hend : bytes.length ≤ s.cfg.cap f - s.cfg.ix f (s.fifo f).put) :
    (∃ d, appended s.cfg f (t.fifo f) bytes = { appended s.cfg f (s.fifo f) bytes with data := d }) ∧
      contents s.cfg f (appended s.cfg f (t.fifo f) bytes) = contents s.cfg f (appended s.cfg f (s.fifo f) bytes) := by
  obtain ⟨d, hd⟩ := h.same.fifo f
  refine ⟨⟨_, by rw [hd]; rfl⟩, ?_⟩
  rw [contents_appended h.left.legal (h.fifoInv f) (by rw [hd]; exact hfree) (by rw [hd]; exact hend),
    contents_appended h.left.legal (h.left.fifo f) hfree hend, h.same.contents f]

/-- The same number of valid bytes taken in front. -/
theorem Twins.taken (h : Twins s t) {f : Sel} {n : Nat} (hn : n ≤ s.cfg.occ (s.fifo f).put (s.fifo f).get) :
    (∃ d, taken s.cfg (t.fifo f) n = { taken s.cfg (s.fifo f) n with data := d }) ∧
      contents s.cfg f (taken s.cfg (t.fifo f) n) = contents s.cfg f (taken s.cfg (s.fifo f) n) := by
  obtain ⟨d, hd⟩ := h.same.fifo f
  refine ⟨⟨_, by rw [hd]; rfl⟩, ?_⟩
  rw [contents_taken h.left.legal (h.fifoInv f) (by rw [hd]; exact hn),
    contents_taken h.left.legal (h.left.fifo f) hn, h.same.contents f]

/-- Valid bytes at the consumer's end read the same. -/
theorem Twins.readBytes_get (h : Twins s t) {f : Sel} {n : Nat}
    (hn : n ≤ s.cfg.occ (s.fifo f).put (s.fifo f).get) (hend : n ≤ s.cfg.cap f - s.cfg.ix f (s.fifo f).get) :
    Memory.readBytes (t.fifo f).data (s.cfg.ix f (t.fifo f).get) n =
      Memory.readBytes (s.fifo f).data (s.cfg.ix f (s.fifo f).get) n := by
  obtain ⟨d, hd⟩ := h.same.fifo f
  rw [Safety.readBytes_get (by rw [hd]; exact hn) (by rw [hd]; exact hend), Safety.readBytes_get hn hend,
    h.same.contents f]

theorem Twins.pushByte (h : Twins s t) (f : Sel) (b : Byte) : ∃ acc s' t',
    pushByte f b s = .next (acc, s') ∧ pushByte f b t = .next (acc, t') ∧ SameButStale s' t' := by
  obtain ⟨d, hd⟩ := h.same.fifo f
  have hcfg := h.same.cfg
  by_cases hfull : s.cfg.occ (s.fifo f).put (s.fifo f).getCopy = s.cfg.cap f
  · exact ⟨false, s, t, pushByte_full f b hfull, pushByte_full f b (by rw [hcfg, hd]; exact hfull), h.same⟩
  · have hroom : [b].length ≤ s.cfg.cap f - s.cfg.occ (s.fifo f).put (s.fifo f).getCopy := by
      have := (h.left.fifo f).bounded
      simp only [List.length_singleton]; omega
    refine ⟨true, _, _, pushByte_room h.left.legal f b hfull,
      pushByte_room h.right.legal f b (by rw [hcfg, hd]; exact hfull), ?_⟩
    obtain ⟨hdata, hcontents⟩ := h.appended hroom (Config.one_le_room h.left.legal f _)
    rw [hcfg]
    exact h.same.setFifo hdata hcontents

theorem Twins.popByte (h : Twins s t) (f : Sel) : ∃ b s' t',
    popByte f s = .next (b, s') ∧ popByte f t = .next (b, t') ∧ SameButStale s' t' := by
  obtain ⟨d, hd⟩ := h.same.fifo f
  have hcfg := h.same.cfg
  by_cases hempty : s.cfg.occ (s.fifo f).putCopy (s.fifo f).get = 0
  · exact ⟨none, s, t, popByte_empty f hempty, popByte_empty f (by rw [hcfg, hd]; exact hempty), h.same⟩
  · have hone : 1 ≤ s.cfg.occ (s.fifo f).put (s.fifo f).get := by
      have := (h.left.fifo f).put_trails
      omega
    have hread := h.readBytes_get hone (Config.one_le_room h.left.legal f _)
    simp only [Memory.readBytes, List.cons.injEq, and_true] at hread
    have hpop := popByte_some h.right.legal f (by rw [hcfg, hd]; exact hempty)
    rw [hcfg, hread] at hpop
    obtain ⟨hdata, hcontents⟩ := h.taken hone
    exact ⟨_, _, _, popByte_some h.left.legal f hempty, hpop, h.same.setFifo hdata hcontents⟩

theorem rbPush_follows (h : Twins s t) (f : Sel) (b : Byte) : Follows (rbPush f b s) (rbPush f b t) := by
  refine follows_onPort h.same fun _ => ?_
  obtain ⟨acc, s', t', hs, ht, hsame⟩ := h.pushByte f b
  rw [hs, ht]
  exact follows_next (hsame.update (.answer _))

theorem rbPop_follows (h : Twins s t) (f : Sel) : Follows (rbPop f s) (rbPop f t) := by
  refine follows_onPort h.same fun _ => ?_
  obtain ⟨b, s', t', hs, ht, hsame⟩ := h.popByte f
  rw [hs, ht]
  exact follows_next (hsame.update (.answer _))

theorem sendStep_follows (h : Twins s t) (bytes : List Byte) (i a : Nat) :
    Follows (sendStep bytes i a s) (sendStep bytes i a t) := by
  unfold sendStep
  split
  · exact follows_next (h.same.update ((RegisterUpdate.answer _).comp (.setAppOp .idle)))
  · next b _ =>
    obtain ⟨acc, s', t', hs, ht, hsame⟩ := h.pushByte .tx b
    rw [hs, ht]
    exact follows_ite (follows_next (hsame.update ((RegisterUpdate.answer _).comp (.setAppOp .idle))))
      (follows_next (hsame.update (.setAppOp _)))

theorem pollEnd_follows (h : SameButStale s t) : Follows (pollEnd s) (pollEnd t) := by
  obtain ⟨a, b, p, rfl⟩ := h.exists_withStorage
  exact follows_ite (c := s.usbOp = .idle)
    (follows_next (h.update ((RegisterUpdate.answer _).comp (.setAppOp .idle)))) (follows_next h)

/-! The packet buffer. -/

/-- The packet reads the same. -/
theorem SameButStale.readBytes_pkt (h : SameButStale s t) {i n : Nat} (hn : i + n ≤ s.pktlen) :
    Memory.readBytes t.pkt i n = Memory.readBytes s.pkt i n :=
  Memory.readBytes_congr fun k hk => h.pkt (i + k) (by omega)

/-- A packet loaded into two buffers. -/
theorem Twins.loaded (h : Twins s t) (bytes : List Byte) : SameButStale (loaded bytes s) (loaded bytes t) := by
  refine ⟨?_, h.same.rx, h.same.tx, fun i hi => ?_⟩
  · obtain ⟨a, b, p, rfl⟩ := h.same.exists_withStorage
    rfl
  · have hin : 0 ≤ i ∧ i < 0 + bytes.length := ⟨Nat.zero_le i, by simpa [Machine.loaded] using hi⟩
    simp only [Machine.loaded]
    rw [Memory.read_writeBytes h.right.pkt_canonical, Memory.read_writeBytes h.left.pkt_canonical, if_pos hin,
      if_pos hin]

theorem Twins.afterBulkOut (h : Twins s t) {bytes : List Byte} (hlen : bytes.length ≤ mpsBulk) :
    SameButStale (afterBulkOut bytes s) (afterBulkOut bytes t) := by
  have hcb : t.rxcbUsb = s.rxcbUsb := h.same.register (φ := State.rxcbUsb) fun _ _ _ _ => rfl
  have hspace : t.cspace .usb .rx = s.cspace .usb .rx :=
    h.same.register (φ := fun u => u.cspace .usb .rx) fun _ _ _ _ => rfl
  unfold Machine.afterBulkOut
  rw [received_eq h.left.pkt_canonical, received_eq h.right.pkt_canonical, hcb, h.same.cfg, hspace]
  split
  · exact (h.loaded bytes).update ((RegisterUpdate.answer _).comp (.callback bytes))
  · split
    · next hsp =>
      obtain ⟨hdata, hcontents⟩ := h.appended (f := .rx) (bytes := bytes)
        (Nat.le_trans hlen (Nat.le_trans hsp (Nat.min_le_left ..)))
        (Nat.le_trans hlen (Nat.le_trans hsp (Nat.min_le_right ..)))
      exact ((h.loaded bytes).setFifo (f := .rx) hdata hcontents).update
        ((RegisterUpdate.answer _).comp (.callback bytes))
    · exact (h.loaded bytes).update (.setUsbOp _)

theorem execEvBulkOut_follows (h : Twins s t) (bytes : List Byte) :
    Follows (execEvBulkOut bytes s) (execEvBulkOut bytes t) := by
  intro s' hs
  have hissuer := h.same.issuer
  rcases execEvBulkOut_cases hs with ⟨hne, rfl⟩ | ⟨hi, hlen, rfl⟩
  · exact ⟨_, onPort_neg t (by simpa [hissuer] using hne) _, h.same.update (.refuse .domain)⟩
  · exact ⟨_, execEvBulkOut_eq (hissuer.trans hi) hlen, h.afterBulkOut hlen⟩

theorem Twins.afterRxStep (h : Twins s t) (i : Nat) (drop : Bool) :
    SameButStale (afterRxStep s.pktlen i drop s) (afterRxStep s.pktlen i drop t) := by
  have hocc : t.occOf .usb .rx = s.occOf .usb .rx :=
    h.same.register (φ := fun u => u.occOf .usb .rx) fun _ _ _ _ => rfl
  obtain ⟨a, b, p, rfl⟩ := h.same.exists_withStorage
  unfold Machine.afterRxStep
  rw [hocc, h.same.cfg, h.same.readBytes_pkt (i := 0) (n := s.pktlen) (by omega)]
  split
  · rw [h.same.readBytes_pkt (i := i) (n := 1) (by omega)]
    split
    · next hroom =>
      obtain ⟨hdata, hcontents⟩ := h.appended (f := .rx) (bytes := Memory.readBytes s.pkt i 1)
        (Nat.sub_pos_of_lt hroom.2) (Config.one_le_room h.left.legal .rx _)
      exact (h.same.setFifo (f := .rx) hdata hcontents).update (.setUsbOp _)
    · exact h.same.update (.setUsbOp _)
  · exact h.same.update ((RegisterUpdate.answer _).comp ((RegisterUpdate.setUsbOp .idle).comp (.callback _)))

theorem rxStep_follows (h : Twins s t) {len i : Nat} {drop : Bool} (hop : s.usbOp = .rx len i drop) :
    Follows (rxStep len i drop s) (rxStep len i drop t) := by
  have hok := h.left.usbOp
  rw [hop] at hok
  obtain ⟨rfl, hi⟩ := hok
  intro s' hs
  obtain rfl := rxStep_eq_next hs
  exact ⟨_, rxStep_eq h.right.legal hi h.left.pktlen_le, h.afterRxStep i drop⟩

/-! The transmit flush. -/

/-- Contiguous bytes of the USB view are valid bytes (42_endpoint_events.md R170). -/
theorem clen_le_occ (h : BlockInv s) : s.clen .usb .tx ≤ s.cfg.occ s.tx.put s.tx.get := by
  have htrails := h.tx.put_trails
  have hview : s.clen .usb .tx ≤ s.cfg.occ s.tx.putCopy s.tx.get := Nat.min_le_left ..
  omega

theorem Twins.afterSendPacket (h : Twins s t) {c : Nat} (hc : c ≤ s.clen .usb .tx) :
    SameButStale (afterSendPacket c s) (afterSendPacket c t) := by
  have hdrawn : t.drawn = s.drawn := h.same.register (φ := State.drawn) fun _ _ _ _ => rfl
  have hvalid := Nat.le_trans hc (clen_le_occ h.left)
  have hread := h.readBytes_get (f := .tx) hvalid (Nat.le_trans hc (Nat.min_le_right ..))
  have hdraw := h.same.update .afterDraw
  unfold Machine.afterSendPacket
  rw [hdrawn, h.same.cfg]
  split
  · obtain ⟨hdata, hcontents⟩ := h.taken (f := .tx) hvalid
    have htaken := hdraw.setFifo (f := .tx) hdata (by rw [State.afterDraw_cfg]; exact hcontents)
    simp only [State.fifo_tx] at hread htaken
    rw [hread]
    exact htaken.update ((RegisterUpdate.answer _).comp ((RegisterUpdate.setPef _).comp (.emit _)))
  · exact hdraw.update (.answer _)

theorem sendPacket_follows (h : Twins s t) {c : Nat} (hc : c ≤ s.clen .usb .tx) :
    Follows (sendPacket c s) (sendPacket c t) := by
  have hclen : t.clen .usb .tx = s.clen .usb .tx :=
    h.same.register (φ := fun u => u.clen .usb .tx) fun _ _ _ _ => rfl
  have hend {u : State} (hu : BlockInv u) (hcu : c ≤ u.clen .usb .tx) :
      u.cfg.ix .tx u.tx.get + c ≤ u.cfg.cap .tx := by
    have hroom : c ≤ u.cfg.cap .tx - u.cfg.ix .tx u.tx.get := Nat.le_trans hcu (Nat.min_le_right ..)
    have := Config.ix_lt hu.legal .tx u.tx.get
    omega
  rw [sendPacket_eq (hend h.left hc), sendPacket_eq (hend h.right (hclen ▸ hc))]
  exact follows_next (h.afterSendPacket hc)

theorem execEvSof_follows (h : Twins s t) : Follows (execEvSof s) (execEvSof t) := by
  have hconn : t.conn = s.conn := h.same.register (φ := State.conn) fun _ _ _ _ => rfl
  have hpef : t.pef = s.pef := h.same.register (φ := State.pef) fun _ _ _ _ => rfl
  have hclen : t.clen .usb .tx = s.clen .usb .tx :=
    h.same.register (φ := fun u => u.clen .usb .tx) fun _ _ _ _ => rfl
  unfold execEvSof
  rw [hconn, hpef, hclen]
  refine follows_onPort h.same fun _ => ?_
  have hanswer := follows_next (h.same.update (.answer 0#32))
  exact follows_ite hanswer (follows_ite hanswer (sendPacket_follows h (Nat.min_le_left ..)))

/-! The step. -/

theorem registers_follow {i : Instr} (hi : usesStorage i = false) (h : SameButStale s t) :
    Follows (exec i s) (exec i t) := by
  obtain ⟨g, hg, hexec⟩ := exec_registers hi
  rw [hexec, hexec]
  exact follows_next (h.update hg)

theorem exec_follows (h : Twins s t) (i : Instr) : Follows (exec i s) (exec i t) := by
  cases i with
  | rbPushRx b => exact rbPush_follows h .rx b
  | rbPushTx b | sendByte b => exact rbPush_follows h .tx b
  | rbPopRx | recvByte => exact rbPop_follows h .rx
  | rbPopTx => exact rbPop_follows h .tx
  | evBulkOut bytes => exact execEvBulkOut_follows h bytes
  | evSof => exact execEvSof_follows h
  | _ => exact registers_follow rfl h.same

theorem runElem_follows (h : Twins s t) (e : StreamElem) : Follows (runElem e s) (runElem e t) := by
  unfold runElem
  split
  · exact follows_next (h.same.update (.refuse _))
  · exact exec_follows h _

theorem appStep_follows (h : Twins s t) : Follows (appStep s) (appStep t) := by
  have hop : t.appOp = s.appOp := h.same.register (φ := State.appOp) fun _ _ _ _ => rfl
  have hin : t.appIn = s.appIn := h.same.register (φ := State.appIn) fun _ _ _ _ => rfl
  obtain ⟨a, b, p, rfl⟩ := h.same.exists_withStorage
  unfold appStep
  rw [hop, hin]
  split
  · exact sendStep_follows h _ _ _
  · exact pollEnd_follows h.same
  · split
    · exact follows_next h.same
    · exact runElem_follows (h.update (.setAppIn _) (blockInv_preamble h.left ..) (blockInv_preamble h.right ..)) _

theorem usbStep_follows (h : Twins s t) : Follows (usbStep s) (usbStep t) := by
  have hop : t.usbOp = s.usbOp := h.same.register (φ := State.usbOp) fun _ _ _ _ => rfl
  have hin : t.usbIn = s.usbIn := h.same.register (φ := State.usbIn) fun _ _ _ _ => rfl
  have hgated (e : StreamElem) : gated e t = gated e s := h.same.register (φ := gated e) fun _ _ _ _ => rfl
  obtain ⟨a, b, p, rfl⟩ := h.same.exists_withStorage
  unfold usbStep
  rw [hop, hin]
  split
  · exact rxStep_follows h ‹_›
  · split
    · exact follows_next h.same
    · rw [hgated]
      exact follows_ite (follows_next h.same) (runElem_follows
        (h.update (.setUsbIn _) (blockInv_preamble h.left ..) (blockInv_preamble h.right ..)) _)

theorem agentStep_follows (h : Twins s t) (a : Agent) : Follows (agentStep a s) (agentStep a t) := by
  have onPort (d : Domain) : Twins { s with issuer := d } { t with issuer := d } :=
    h.update (.setIssuer d) (blockInv_preamble h.left ..) (blockInv_preamble h.right ..)
  cases a with
  | app => exact appStep_follows (onPort .app)
  | usb => exact usbStep_follows (onPort .usb)
  | sync c => exact follows_next (h.same.update (.syncStep c))

/-- Settles O30: both states take the same step of the same agent, and each operation of it keeps them the same but
for stale storage. -/
theorem staleStorageIsNeverSeen : Obligations.StaleStorageIsNeverSeen := by
  unfold Obligations.StaleStorageIsNeverSeen
  intro s t s' hs ht hsame hstep
  obtain ⟨-, hrefused, hagent⟩ := step_eq_next hstep
  have hbit : t.refusedBit = s.refusedBit := hsame.register (φ := State.refusedBit) fun _ _ _ _ => rfl
  have hnext : t.nextAgent = s.nextAgent := hsame.register (φ := State.nextAgent) fun _ _ _ _ => rfl
  have htwins : Twins s.afterSched t.afterSched :=
    ⟨blockInv_afterSched hs, blockInv_afterSched ht, hsame.update .afterSched⟩
  rw [step_eq ht.legal (hbit.trans hrefused), hnext]
  exact agentStep_follows htwins s.nextAgent s' hagent

end Sys2Proof.Safety
end

section
/-! PROOF. The statements of 20_memory.md: each FIFO as a queue (R60), what a view can show (R76), queries that read
and do not write (R66, R68), and fair synchronisers (R72, R82). -/

namespace Sys2Proof.Safety

open Sys2Proof.Machine

/-! Each FIFO is a queue (R60). -/

/-- The agent that acts for a domain. -/
def agentOf (d : Domain) : Agent :=
  match d with
  | .app => .app
  | .usb => .usb

/-- The queue law of one FIFO in a step of agent `a`: bytes are added behind in the producer's step and removed in
front in the consumer's, as many as the counters say. -/
def QueueStep (a : Agent) (c : Config) (f : Sel) (x y : Fifo) : Prop :=
  ∃ added : List Byte,
    added.length = c.occ y.put x.put ∧
    c.occ y.get x.get ≤ (contents c f x).length ∧
    contents c f y = (contents c f x ++ added).drop (c.occ y.get x.get) ∧
    (added ≠ [] → a = agentOf (producer f)) ∧
    (c.occ y.get x.get ≠ 0 → a = agentOf (consumer f))

/-- A counter advanced by less than a full turn has moved by that much. -/
theorem occ_wrap_add {c : Config} {v n : Nat} (hv : v < 2 ^ c.ctrW) (hn : n < 2 ^ c.ctrW) :
    c.occ (c.wrap (v + n)) v = n := by
  have h := Config.occ_put_add (n := n) hv hv (by rwa [Config.occ_self, Nat.zero_add])
  rwa [Config.occ_self, Nat.zero_add] at h

/-- A FIFO that keeps its counters and its storage adds and removes nothing. -/
theorem queueStep_of_same {a : Agent} {c : Config} {f : Sel} {x y : Fifo} (hput : y.put = x.put)
    (hdata : y.data = x.data) (hget : y.get = x.get) : QueueStep a c f x y := by
  refine ⟨[], ?_, ?_, ?_, nofun, ?_⟩
  · rw [hput, Config.occ_self]; rfl
  · rw [hget, Config.occ_self]; exact Nat.zero_le _
  · rw [hget, Config.occ_self, List.append_nil, List.drop_zero, contents_congr hdata hput hget]
  · rw [hget, Config.occ_self]; exact absurd rfl

/-- Appending at the producer's end adds the bytes behind. -/
theorem queueStep_appended {c : Config} {f : Sel} {x : Fifo} {bytes : List Byte} (hc : c.legal = true)
    (hx : FifoInv c f x) (hfit : Fits c f x bytes.length) :
    QueueStep (agentOf (producer f)) c f x (appended c f x bytes) := by
  obtain ⟨hend, hfree⟩ := hfit
  have hbounded := hx.bounded
  have hdouble := Config.legal_cap_double hc f
  have hpos := Config.legal_cap_pos hc f
  have hadded : c.occ (appended c f x bytes).put x.put = bytes.length := occ_wrap_add hx.put_lt (by omega)
  have hremoved : c.occ (appended c f x bytes).get x.get = 0 := Config.occ_self c x.get
  refine ⟨bytes, hadded.symm, ?_, ?_, fun _ => rfl, absurd hremoved⟩
  · rw [hremoved]; exact Nat.zero_le _
  · rw [hremoved, List.drop_zero]; exact contents_appended hc hx (by omega) (by omega)

/-- Taking at the consumer's end removes the oldest bytes. -/
theorem queueStep_taken {c : Config} {f : Sel} {x : Fifo} {n : Nat} (hc : c.legal = true) (hx : FifoInv c f x)
    (hn : n ≤ c.occ x.putCopy x.get) : QueueStep (agentOf (consumer f)) c f x (taken c x n) := by
  have htrails := hx.put_trails
  have hle : n ≤ c.occ x.put x.get := by omega
  have hadded : c.occ (taken c x n).put x.put = 0 := Config.occ_self c x.put
  have hremoved : c.occ (taken c x n).get x.get = n :=
    occ_wrap_add hx.get_lt (Nat.lt_of_le_of_lt hn (Config.occ_lt ..))
  refine ⟨[], hadded.symm, ?_, ?_, nofun, fun _ => rfl⟩
  · rw [hremoved, length_contents]; exact hle
  · rw [hremoved, List.append_nil]; exact contents_taken hc hx hle

/-- What a port can do to a FIFO is a queue step. -/
theorem queueStep_of_moves {d : Domain} {c : Config} {f : Sel} {x y : Fifo} (hc : c.legal = true)
    (hx : FifoInv c f x) (h : FifoMoves d c f x y) : QueueStep (agentOf d) c f x y := by
  rcases h with rfl | ⟨rfl, bytes, hfit, rfl⟩ | ⟨rfl, n, hn, rfl⟩
  · exact queueStep_of_same rfl rfl rfl
  · exact queueStep_appended hc hx hfit
  · exact queueStep_taken hc hx hn

variable {s t : State}

theorem fifo_afterSched (s : State) (f : Sel) : s.afterSched.fifo f = s.fifo f := by
  cases f <;> simp

/-- What a step can do to a FIFO: the moves of the port whose agent goes, or counters and storage kept. -/
theorem step_fifo (h : step s = .next t) (f : Sel) :
    (∃ d, s.nextAgent = agentOf d ∧ FifoMoves d s.cfg f (s.fifo f) (t.fifo f)) ∨
    ((t.fifo f).put = (s.fifo f).put ∧ (t.fifo f).data = (s.fifo f).data ∧ (t.fifo f).get = (s.fifo f).get) := by
  rcases step_moves h with ⟨ha, p, hm⟩ | ⟨ha, p, hm⟩ | ⟨c, -, rfl⟩
  · refine .inl ⟨.app, ha, ?_⟩
    cases f
    · simpa using hm.rx
    · simpa using hm.tx
  · refine .inl ⟨.usb, ha, ?_⟩
    cases f
    · simpa using hm.rx
    · simpa using hm.tx
  · right
    rw [← fifo_afterSched s]
    obtain ⟨hrx, htx⟩ := syncStep_counters c s.afterSched
    cases f
    · exact hrx
    · exact htx

/-- Settles O29: the port whose agent goes appends, takes or leaves the FIFO alone, and a synchroniser leaves it
alone. -/
theorem fifoStepsAreQueueSteps : Obligations.FifoStepsAreQueueSteps := by
  unfold Obligations.FifoStepsAreQueueSteps
  intro s t hs hstep f
  have hcfg : t.cfg = s.cfg := (stepKeepsConfigurationAndTrace s t hstep).1
  rw [hcfg]
  rcases step_fifo hstep f with ⟨d, ha, hm⟩ | ⟨hput, hdata, hget⟩
  · rw [ha]
    exact queueStep_of_moves hs.legal (hs.fifo f) hm
  · exact queueStep_of_same hput hdata hget

/-! What a view shows (R76). -/

/-- Settles O31: the copies' parts of the occupancies in the FIFO invariant add up to the true ones. -/
theorem viewsNeverShowTooMuch : Obligations.ViewsNeverShowTooMuch := by
  unfold Obligations.ViewsNeverShowTooMuch
  intro s hs f
  obtain ⟨-, -, -, -, hbounded, hget, hput, -, -⟩ := hs.fifo f
  dsimp only
  omega

/-! Queries (R66, R68). -/

/-- The word a query answers (R66); no other instruction is a query. -/
def queryWord (i : Instr) (s : State) : Option Word :=
  match i with
  | .rbLenRx => some (countWord (s.occOf s.issuer .rx))
  | .rbLenTx => some (countWord (s.occOf s.issuer .tx))
  | .rbIsFullRx => some (bitWord (s.full s.issuer .rx))
  | .rbIsFullTx => some (bitWord (s.full s.issuer .tx))
  | .rbIsEmptyRx => some (bitWord (s.isEmpty s.issuer .rx))
  | .rbIsEmptyTx => some (bitWord (s.isEmpty s.issuer .tx))
  | .rbContigSpaceRx => some (countWord (s.cspace s.issuer .rx))
  | .rbContigSpaceTx => some (countWord (s.cspace s.issuer .tx))
  | .rbContigLenRx => some (countWord (s.clen s.issuer .rx))
  | .rbContigLenTx => some (countWord (s.clen s.issuer .tx))
  | .available => some (countWord (s.occOf .app .rx))
  | .connected => some (bitWord s.connApp)
  | _ => none

/-- A query on a port that may issue it only answers. -/
theorem exec_query {i : Instr} {w : Word} (hw : queryWord i s = some w) (hport : portAllows i s.issuer = true) :
    exec i s = .next (s.result w) := by
  cases i with
  | rbLenRx | rbLenTx | rbIsFullRx | rbIsFullTx | rbIsEmptyRx | rbIsEmptyTx | rbContigSpaceRx | rbContigSpaceTx
  | rbContigLenRx | rbContigLenTx => cases hw; rfl
  | available | connected => cases hw; exact onPort_pos _ hport _
  | _ => cases hw

/-- An answer does not change what a query answers. -/
theorem queryWord_result (i : Instr) (s : State) (v : Word) : queryWord i (s.result v) = queryWord i s := by
  cases i <;> rfl

/-- Settles O41: the first answer does not change the second's word. -/
theorem queriesAreIdempotent : Obligations.QueriesAreIdempotent := by
  unfold Obligations.QueriesAreIdempotent
  intro s t u i hi hport hfirst hsecond
  obtain ⟨w, hw⟩ : ∃ w, queryWord i s = some w := by
    revert i
    simp [queryWord]
  rw [exec_query hw hport] at hfirst
  cases hfirst
  rw [exec_query (s := s.result w) (by rw [queryWord_result, hw]) hport] at hsecond
  cases hsecond
  exact ⟨resultOutput s.issuer w, rfl, List.append_assoc ..⟩

/-! Fair synchronisers (R72, R82). -/

/-- A synchroniser writes no source. -/
theorem sourceOf_syncStep (c d : Copy) (s : State) : sourceOf c (syncStep d s) = sourceOf c s := by
  cases c <;> cases d <;> rfl

/-- The copy after a chosen step: the source's value before it if its synchroniser goes, else as it was. -/
theorem turn_copyOf {a : Agent} (h : turn a s = .next t) (c : Copy) :
    (a = .sync c → copyOf c t = sourceOf c s) ∧ (a ≠ .sync c → copyOf c t = copyOf c s) :=
  copiesAreWrittenBySyncOnly { s with sched := [a] } t c h

/-- A synchroniser's step brings its copy up to the source. -/
theorem turn_sync_copyOf {c : Copy} (h : turn (.sync c) s = .next t) : copyOf c t = sourceOf c t := by
  obtain ⟨hc, hr, -⟩ := step_eq_next h
  have ht := turn_sync (s := s) (c := c) hc hr
  rw [h] at ht
  cases ht
  rw [sourceOf_syncStep, copyOf_syncStep, if_pos rfl]

/-- A copy that has its source's lasting value keeps it. -/
theorem copyOf_stays {schedule : Nat → Agent} {run : Nat → State} (hrun : RunsUnder schedule run) {c : Copy}
    {m v : Nat} (hsource : ∀ k, m ≤ k → sourceOf c (run k) = v) (hm : copyOf c (run m) = v) :
    ∀ k, m ≤ k → copyOf c (run k) = v := by
  intro k hk
  induction k, hk using Nat.le_induction with
  | base => exact hm
  | succ k hk ih =>
    obtain ⟨hsync, hother⟩ := turn_copyOf (hrun k) c
    by_cases ha : schedule k = .sync c
    · rw [hsync ha, hsource k hk]
    · rw [hother ha, ih]

/-- Settles O60: the copy's synchroniser goes at some later step; what it delivers stays while the source does. -/
theorem fairSynchronisersDeliver : Obligations.FairSynchronisersDeliver := by
  unfold Obligations.FairSynchronisersDeliver
  intro schedule run hfair hrun c n
  obtain ⟨m, hnm, hm⟩ := hfair c n
  have hdelivered : copyOf c (run (m + 1)) = sourceOf c (run (m + 1)) :=
    turn_sync_copyOf (by rw [← hm]; exact hrun m)
  refine ⟨⟨m, hnm, hdelivered⟩, fun v hv => ⟨m + 1, by omega, ?_⟩⟩
  exact copyOf_stays hrun (fun k hk => hv k (by omega)) (by rw [hdelivered, hv _ (by omega)])

end Sys2Proof.Safety
end

section
/-! PROOF. The two round trips between decoder and encoder, and what a setup packet is (30_encoding.md R86 to R95, R98,
R100). -/

namespace Sys2Proof

open Sys2Proof.Laws.EncodesLegally (byte_fits classPacket_isClassInterface)

/-! The control request of a setup packet. -/

theorem halfOf_inj {lo hi lo' hi' : Byte} : halfOf lo hi = halfOf lo' hi' ↔ lo = lo' ∧ hi = hi' := by
  refine ⟨fun h => ⟨?_, ?_⟩, fun ⟨hlo, hhi⟩ => by rw [hlo, hhi]⟩
  · rw [← loByte_halfOf lo hi, h, loByte_halfOf]
  · rw [← hiByte_halfOf lo hi, h, hiByte_halfOf]

theorem halfOf_and (lo hi lo' hi' : Byte) : halfOf lo hi &&& halfOf lo' hi' = halfOf (lo &&& lo') (hi &&& hi') :=
  BitVec.and_append

theorem isClassInterface_iff {p : SetupPacket} : p.isClassInterface = true ↔ p.bmRequestType &&& 0x7F#8 = 0x21#8 :=
  beq_iff_eq

/-- The pattern of one recognised request (R95): the class bits, and its request code. -/
theorem rq_matches_request (p : SetupPacket) (r : Byte) :
    p.rq &&& 0xFF7F#16 = halfOf 0x21#8 r ↔ p.isClassInterface = true ∧ p.bRequest = r := by
  show halfOf _ _ &&& halfOf 0x7F#8 (BitVec.allOnes 8) = _ ↔ _
  rw [halfOf_and, BitVec.and_allOnes, halfOf_inj, isClassInterface_iff]

/-- The pattern of a class request to an interface, whatever its code (R95). -/
theorem rq_matches_class (p : SetupPacket) : p.rq &&& 0x007F#16 = 0x0021#16 ↔ p.isClassInterface = true := by
  show halfOf _ _ &&& halfOf 0x7F#8 0#8 = halfOf 0x21#8 0#8 ↔ _
  rw [halfOf_and, BitVec.and_zero, halfOf_inj, isClassInterface_iff]
  exact and_iff_left rfl

/-- The patterns of R95 read the class bits first, then the request code. -/
theorem decodeSetup_eq (p : SetupPacket) :
    decodeSetup p =
      if p.isClassInterface then
        if p.bRequest = 0x20#8 then .setLineCoding (p.bmRequestType.getLsbD 7) p.wValue p.wIndex p.wLength
        else if p.bRequest = 0x21#8 then .getLineCoding (p.bmRequestType.getLsbD 7) p.wValue p.wIndex p.wLength
        else if p.bRequest = 0x22#8 then .setControlLineState (p.bmRequestType.getLsbD 7) p.wValue p.wIndex p.wLength
        else .classInterfaceUnsupported (p.bmRequestType.getLsbD 7) p.bRequest p.wValue p.wIndex p.wLength
      else .notRouted p := by
  have hset : p.rq &&& 0xFF7F#16 = 0x2021#16 ↔ _ := rq_matches_request p 0x20#8
  have hget : p.rq &&& 0xFF7F#16 = 0x2121#16 ↔ _ := rq_matches_request p 0x21#8
  have hstate : p.rq &&& 0xFF7F#16 = 0x2221#16 ↔ _ := rq_matches_request p 0x22#8
  unfold decodeSetup
  simp only [hset, hget, hstate, rq_matches_class]
  cases p.isClassInterface <;> simp

/-- A packet that is no class request to an interface is not routed. -/
theorem decodeSetup_notRouted {p : SetupPacket} (h : p.isClassInterface = false) : decodeSetup p = .notRouted p := by
  rw [decodeSetup_eq, if_neg (by rw [h]; decide)]

/-- Settles O6: the class bits route the packet, and the request code dispatches it. -/
theorem everySetupPacketIsOneRequest : Obligations.EverySetupPacketIsOneRequest := by
  unfold Obligations.EverySetupPacketIsOneRequest
  intro p
  refine ⟨fun h => decodeSetup_notRouted ?_, fun h => ?_⟩
  · exact Bool.eq_false_iff.2 (mt isClassInterface_iff.1 h)
  · rw [decodeSetup_eq, if_pos (isClassInterface_iff.2 h)]

/-! From an instruction to its encoding and back. -/

/-- The decoder reads a command without payload off its word. -/
theorem decode_plainElem {op : Opcode} {sel : Bool} {imm : Half} {i : Instr} (hs : sel = true → op.usesSel = true)
    (hi : imm >>> op.immBits = 0#16) (hb : decodeBody op sel imm [] = .ok i) : decode (plainElem op sel imm) = .ok i :=
  (decodeElem_headWord hs hi).trans hb

/-- The decoder reads a command with a byte operand off its word. -/
theorem decode_plainElem_byte {op : Opcode} {sel : Bool} {b : Byte} {i : Byte → Instr}
    (hs : sel = true → op.usesSel = true) (hi : op.immBits = 8)
    (hb : decodeBody op sel (immOfByte b) [] = .ok (i (loByte (immOfByte b)))) :
    decode (plainElem op sel (immOfByte b)) = .ok (i b) := by
  rw [loByte_immOfByte] at hb
  exact decode_plainElem hs (by rw [hi]; exact byte_fits b) hb

/-- A count of at most 16 bits is read back as it was written. -/
theorem toNat_count {n : Nat} (h : n < 65536) : (BitVec.ofNat 16 n).toNat = n := by
  rw [BitVec.toNat_ofNat, Nat.mod_eq_of_lt h]

/-- A command that selects no FIFO is decoded by its body. -/
theorem decode_headWord {op : Opcode} {imm : Half} {payload : List Byte} (hi : imm >>> op.immBits = 0#16) :
    decode (.cmd32 { word := headWord op false imm, payload }) = decodeBody op false imm payload :=
  decodeElem_headWord nofun hi

/-- An opcode that reads all of `IMM16` leaves no bit that must be 0. -/
theorem imm_fits {op : Opcode} (h : op.immBits = 16) (imm : Half) : imm >>> op.immBits = 0#16 :=
  BitVec.ushiftRight_eq_zero h.ge

theorem decode_encode_send {bytes : List Byte} (h : bytes.length < 65536) :
    decode (encode (.send bytes)) = .ok (.send bytes) := by
  rw [encode, decode_headWord (imm_fits (op := .send) rfl _)]
  exact if_pos (toNat_count h).symm

theorem decode_encode_evBulkOut {bytes : List Byte} (h : bytes.length ≤ mpsBulk) :
    decode (encode (.evBulkOut bytes)) = .ok (.evBulkOut bytes) := by
  have hcount : (BitVec.ofNat 16 bytes.length).toNat = bytes.length := toNat_count (Nat.lt_of_le_of_lt h (by decide))
  rw [encode, decode_headWord (imm_fits (op := .evBulkOut) rfl _), decodeBody, hcount,
    if_neg (Nat.not_lt.2 h), if_pos rfl]

theorem decode_encode_evSetup {p : SetupPacket} {stage : List Byte} (h : stage.length = p.stageLen) :
    decode (encode (.evSetup p stage)) = .ok (.evSetup p stage) := by
  rw [encode, decode_headWord rfl]
  simp only [decodeBody, splitSetup_bytes, if_pos h]

/-- The 8 bytes of a setup packet decode to the request it is. -/
theorem decode_setupBytes (p : SetupPacket) : decode (.setup64 p.bytes) = .ok (decodeSetup p) := by
  simp only [decode, decodePacket, splitSetup_bytes_nil]

theorem classPacket_direction (dir : Bool) (r : Byte) (v ix l : Half) :
    (classPacket dir r v ix l).bmRequestType.getLsbD 7 = dir := by
  cases dir <;> simp [classPacket]

/-- The encoder's packet of a class request decodes by its request code. -/
theorem decode_classPacket (dir : Bool) (r : Byte) (v ix l : Half) :
    decode (.setup64 (classPacket dir r v ix l).bytes) = .ok
      (if r = 0x20#8 then .setLineCoding dir v ix l
      else if r = 0x21#8 then .getLineCoding dir v ix l
      else if r = 0x22#8 then .setControlLineState dir v ix l
      else .classInterfaceUnsupported dir r v ix l) := by
  rw [decode_setupBytes, decodeSetup_eq, if_pos (classPacket_isClassInterface ..), classPacket_direction]
  rfl

/-- Settles O1: a command's word by its header and body, a control request by its packet. -/
theorem decodeOfEncodeGivesTheInstruction : Obligations.DecodeOfEncodeGivesTheInstruction := by
  unfold Obligations.DecodeOfEncodeGivesTheInstruction
  intro i hwf
  cases i with
  | rbPushRx b => exact decode_plainElem_byte (i := .rbPushRx) nofun rfl rfl
  | rbPushTx b => exact decode_plainElem_byte (i := .rbPushTx) (fun _ => rfl) rfl rfl
  | sendByte b => exact decode_plainElem_byte (i := .sendByte) nofun rfl rfl
  | evDataIn ep => exact decode_plainElem_byte (i := .evDataIn) nofun rfl rfl
  | rbPopTx | rbLenTx | rbIsFullTx | rbIsEmptyTx | rbContigSpaceTx | rbContigLenTx =>
    exact decode_plainElem (fun _ => rfl) rfl rfl
  | rbPopRx | rbLenRx | rbIsFullRx | rbIsEmptyRx | rbContigSpaceRx | rbContigLenRx
  | init | connected | available | recvByte | poll | evReset | evSof => exact decode_plainElem nofun rfl rfl
  | setRxCallback en => cases en <;> exact decode_plainElem nofun rfl rfl
  | send bytes => exact decode_encode_send (of_decide_eq_true hwf)
  | evBulkOut bytes => exact decode_encode_evBulkOut (of_decide_eq_true hwf)
  | evSetup p stage => exact decode_encode_evSetup (of_decide_eq_true hwf)
  | setLineCoding dir v ix l | getLineCoding dir v ix l | setControlLineState dir v ix l =>
    exact decode_classPacket dir _ v ix l
  | classInterfaceUnsupported dir r v ix l =>
    have hr : (r ≠ 0x20#8 ∧ r ≠ 0x21#8) ∧ r ≠ 0x22#8 := by
      simpa [Instr.wf, requestIsOther, isKnownRequest] using hwf
    obtain ⟨⟨h0, h1⟩, h2⟩ := hr
    refine (decode_classPacket dir r v ix l).trans ?_
    rw [if_neg h0, if_neg h1, if_neg h2]
  | notRouted p =>
    have hp : p.isClassInterface = false := by simpa [Instr.wf, packetNotRouted] using hwf
    exact (decode_setupBytes p).trans (congrArg _ (decodeSetup_notRouted hp))

/-! From an accepted element to its instruction and back. -/

/-- An operand fits the bits its opcode reads (R88). -/
theorem ushiftRight_eq_zero_iff {imm : Half} {n : Nat} : imm >>> n = 0#16 ↔ imm.toNat < 2 ^ n := by
  rw [← BitVec.toNat_inj, BitVec.toNat_ushiftRight, Nat.shiftRight_eq_div_pow, BitVec.toNat_ofNat, Nat.zero_mod,
    Nat.div_eq_zero_iff_lt (Nat.two_pow_pos n)]

/-- An operand of an opcode that reads none is 0. -/
theorem imm_eq_zero {imm : Half} (h : imm >>> 0 = 0#16) : imm = 0#16 := h

/-- An operand of one bit is that bit. -/
theorem imm_eq_bit {imm : Half} (h : imm >>> 1 = 0#16) : (BitVec.ofBool (imm.getLsbD 0)).setWidth 16 = imm := by
  have hlt : imm.toNat < 2 := ushiftRight_eq_zero_iff.1 h
  obtain h0 | h1 : imm = 0#16 ∨ imm = 1#16 := by bv_omega
  · rw [h0]; rfl
  · rw [h1]; rfl

/-- The body of a legal header accepts only a well-formed instruction's own operand and payload. -/
theorem decodeBody_eq_ok {op : Opcode} {sel : Bool} {imm : Half} {payload : List Byte} {i : Instr}
    (hs : sel = true → op.usesSel = true) (hi : imm >>> op.immBits = 0#16)
    (h : decodeBody op sel imm payload = .ok i) :
    i.wf = true ∧ encode i = .cmd32 { word := headWord op sel imm, payload } := by
  have hsel (ho : op.usesSel = false) : sel = false := by
    cases sel
    · rfl
    · rw [ho] at hs; cases hs rfl
  cases op with
  | rbPush =>
    obtain ⟨rfl, rfl⟩ := noPayload_eq_ok h
    cases sel <;> exact ⟨rfl, by simp [encode, plainElem, immOfByte_loByte hi]⟩
  | rbPop | rbLen | rbIsFull | rbIsEmpty | rbContigSpace | rbContigLen =>
    obtain ⟨rfl, rfl⟩ := noPayload_eq_ok h
    obtain rfl := imm_eq_zero hi
    cases sel <;> exact ⟨rfl, rfl⟩
  | init | connected | available | recvByte | poll | evReset | evSof =>
    obtain ⟨rfl, rfl⟩ := noPayload_eq_ok h
    obtain rfl := imm_eq_zero hi
    obtain rfl := hsel rfl
    exact ⟨rfl, rfl⟩
  | sendByte | evDataIn =>
    obtain ⟨rfl, rfl⟩ := noPayload_eq_ok h
    obtain rfl := hsel rfl
    exact ⟨rfl, by simp [encode, plainElem, immOfByte_loByte hi]⟩
  | setRxCallback =>
    obtain ⟨rfl, rfl⟩ := noPayload_eq_ok h
    obtain rfl := hsel rfl
    exact ⟨rfl, by simp only [encode, plainElem, imm_eq_bit hi]⟩
  | send =>
    obtain rfl := hsel rfl
    simp only [decodeBody] at h
    split at h <;> cases h
    next hlen => exact ⟨decide_eq_true (hlen ▸ imm.isLt), by simp [encode, hlen]⟩
  | evSetup =>
    obtain rfl := hsel rfl
    obtain rfl := imm_eq_zero hi
    simp only [decodeBody] at h
    split at h
    · next p stage hsplit =>
      split at h <;> cases h
      next hlen => exact ⟨decide_eq_true hlen, by rw [eq_of_splitSetup hsplit]; rfl⟩
    · cases h
  | evBulkOut =>
    obtain rfl := hsel rfl
    simp only [decodeBody] at h
    split at h
    · cases h
    · next hmax =>
      split at h <;> cases h
      next hlen => exact ⟨decide_eq_true (by omega), by simp [encode, hlen]⟩

/-- Settles O2: the header checks leave the encoder's word, the body its operand and payload. -/
theorem acceptedElementIsItsEncoding : Obligations.AcceptedElementIsItsEncoding := by
  unfold Obligations.AcceptedElementIsItsEncoding
  intro e i h
  obtain ⟨op, sel, imm, hword, hs, hi, hbody⟩ := decodeElem_eq_ok h
  obtain ⟨hwf, hencode⟩ := decodeBody_eq_ok hs hi hbody
  refine ⟨hwf, ?_⟩
  rw [hencode, ← hword]

/-- Settles O5: each word is computed. -/
theorem wordsOfTheSpecDecode : Obligations.WordsOfTheSpecDecode := by
  unfold Obligations.WordsOfTheSpecDecode
  decide

end Sys2Proof
end

section
/-! PROOF. What the decoder rejects, and why (30_encoding.md R90, R98, R99). -/

namespace Sys2Proof

/-! The fields of a command word as numbers (R86). -/

theorem toNat_opField (w : Word) : (opField w).toNat = w.toNat / 2 ^ 24 := by
  have := w.isLt
  rw [opField, BitVec.extractLsb'_toNat, Nat.shiftRight_eq_div_pow]
  omega

theorem toNat_rsvField (w : Word) : (rsvField w).toNat = w.toNat / 2 ^ 16 % 2 ^ 7 := by
  rw [rsvField, BitVec.extractLsb'_toNat, Nat.shiftRight_eq_div_pow]

theorem toNat_immField (w : Word) : (immField w).toNat = w.toNat % 2 ^ 16 := by
  rw [immField, BitVec.extractLsb'_toNat, Nat.shiftRight_zero]

theorem selField_eq (w : Word) : selField w = decide (w.toNat / 2 ^ 23 % 2 = 1) := by
  rw [selField, ← BitVec.testBit_toNat, Nat.testBit_eq_decide_div_mod_eq]

theorem rsvField_eq_zero_iff {w : Word} : rsvField w = 0#7 ↔ w.toNat / 2 ^ 16 % 2 ^ 7 = 0 := by
  rw [← toNat_rsvField, ← BitVec.toNat_inj]
  rfl

/-- The opcodes that read `SEL` are those below 0x08 (R86, R91). -/
theorem usesSel_iff {op : Opcode} : op.usesSel = true ↔ op.code.toNat < 0x08 := by cases op <;> decide

/-- The known opcodes (R91). -/
theorem code_ranges (op : Opcode) :
    (0x01 ≤ op.code.toNat ∧ op.code.toNat ≤ 0x07) ∨ (0x10 ≤ op.code.toNat ∧ op.code.toNat ≤ 0x17) ∨
      (0x20 ≤ op.code.toNat ∧ op.code.toNat ≤ 0x24) := by
  cases op <;> decide

theorem code_toNat_of_opcodeOf {w : Word} {op : Opcode} (h : opcodeOf (opField w) = some op) :
    op.code.toNat = w.toNat / 2 ^ 24 := by
  rw [← code_of_opcodeOf h, toNat_opField]

/-- A word whose high half holds an opcode with `SEL` and `RSV` 0. -/
theorem eq_headWord_of_high {w : Word} (op : Opcode) (h : w.toNat / 2 ^ 16 = op.code.toNat * 2 ^ 8) :
    w = headWord op false (immField w) := by
  have hop : opField w = op.code := BitVec.eq_of_toNat_eq (by rw [toNat_opField]; omega)
  have hsel : selField w = false := by rw [selField_eq]; exact decide_eq_false (by omega)
  have hrsv : rsvField w = 0#7 := rsvField_eq_zero_iff.2 (by omega)
  conv => lhs; rw [eq_headWord (op := op) (by rw [hop, opcodeOf_code]) hrsv, hsel]

/-! The header checks, in the order of R98. -/

/-- Settles O3: no known opcode is in a reserved range. -/
theorem reservedOpcodesAreIllegal : Obligations.ReservedOpcodesAreIllegal := by
  unfold Obligations.ReservedOpcodesAreIllegal
  intro e hrange
  have hnone : opcodeOf (opField e.word) = none := by
    rw [Option.eq_none_iff_forall_ne_some]
    intro op hop
    have hcode := code_toNat_of_opcodeOf hop
    have hknown := code_ranges op
    omega
  rw [decode, decodeElem, hnone]

section
variable {e : StreamElem} {op : Opcode} (hop : opcodeOf (opField e.word) = some op)
include hop

theorem decode_reserved (hr : rsvField e.word ≠ 0#7) : decode (.cmd32 e) = .error .reserved := by
  rw [decode, decodeElem, hop]
  exact if_pos hr

theorem decode_badSel (hr : rsvField e.word = 0#7) (hs : selField e.word = true) (hu : op.usesSel = false) :
    decode (.cmd32 e) = .error .sel := by
  rw [decode, decodeElem, hop]
  exact (if_neg (not_not.2 hr)).trans (if_pos (by rw [hs, hu]; rfl))

theorem decode_badImm (hr : rsvField e.word = 0#7) (hs : selField e.word = true → op.usesSel = true)
    (hi : immField e.word >>> op.immBits ≠ 0#16) : decode (.cmd32 e) = .error .imm := by
  rw [decode, decodeElem, hop]
  refine (if_neg (not_not.2 hr)).trans ((if_neg ?_).trans (if_pos hi))
  simpa using hs

/-- A legal header leaves the body to decode. -/
theorem decode_body (hr : rsvField e.word = 0#7) (hs : selField e.word = true → op.usesSel = true)
    (hi : immField e.word >>> op.immBits = 0#16) :
    decode (.cmd32 e) = decodeBody op (selField e.word) (immField e.word) e.payload := by
  rw [← decodeElem_headWord hs hi, ← eq_headWord hop hr]
  rfl

end

/-! The payload checks (R90; R98, items 5 and 6). -/

theorem noPayload_eq_error {i : Instr} {payload : List Byte} (h : payload ≠ []) :
    noPayload i payload = .error .payload := if_neg h

/-- Every opcode but three takes no payload. -/
theorem decodeBody_payload {op : Opcode} {sel : Bool} {imm : Half} {payload : List Byte}
    (hop : op ∉ [Opcode.send, .evBulkOut, .evSetup]) (h : payload ≠ []) :
    decodeBody op sel imm payload = .error .payload := by
  cases op with
  | send | evBulkOut | evSetup => simp at hop
  | _ => exact noPayload_eq_error h

/-- `EV_BULK_OUT` and `SEND` are decoded by their count and payload, whatever the count. -/
theorem decode_of_high {e : StreamElem} {op : Opcode} (h : e.word.toNat / 2 ^ 16 = op.code.toNat * 2 ^ 8)
    (himm : op.immBits = 16) : decode (.cmd32 e) = decodeBody op false (immField e.word) e.payload := by
  rw [← decode_headWord (imm_fits himm _), ← eq_headWord_of_high op h]

theorem decode_bulkOut_tooLong {e : StreamElem} (h : e.word.toNat / 2 ^ 16 = 0x2200)
    (hlen : 64 < (immField e.word).toNat) : decode (.cmd32 e) = .error .bulkLen := by
  rw [decode_of_high (op := .evBulkOut) h rfl]
  exact if_pos hlen

theorem decode_bulkOut_payload {e : StreamElem} (h : e.word.toNat / 2 ^ 16 = 0x2200)
    (hlen : (immField e.word).toNat ≤ 64) (hp : e.payload.length ≠ (immField e.word).toNat) :
    decode (.cmd32 e) = .error .payload := by
  rw [decode_of_high (op := .evBulkOut) h rfl, decodeBody, if_neg (Nat.not_lt.2 hlen), if_neg hp]

theorem decode_send_payload {e : StreamElem} (h : e.word.toNat / 2 ^ 16 = 0x1500)
    (hp : e.payload.length ≠ (immField e.word).toNat) : decode (.cmd32 e) = .error .payload := by
  rw [decode_of_high (op := .send) h rfl, decodeBody, if_neg hp]

theorem decode_setup_payload {e : StreamElem} (h : e.word = 0x21000000#32)
    (hp : ∀ p stage, splitSetup e.payload = some (p, stage) → stage.length ≠ p.stageLen) :
    decode (.cmd32 e) = .error .payload := by
  have hbody : decode (.cmd32 e) = decodeBody .evSetup false 0#16 e.payload := by
    rw [← decode_headWord rfl]
    exact congrArg (fun w => decode (.cmd32 ⟨w, e.payload⟩)) h
  rw [hbody, decodeBody]
  split
  · next p stage hsplit => exact if_neg (hp p stage hsplit)
  · rfl

/-- Settles O4: one clause for each check of the header and of the payload. -/
theorem illegalElementGivesTheFirstReason : Obligations.IllegalElementGivesTheFirstReason := by
  unfold Obligations.IllegalElementGivesTheFirstReason
  intro e op hop
  rw [← code_toNat_of_opcodeOf hop, ← usesSel_iff, ← rsvField_eq_zero_iff, ← toNat_immField]
  refine ⟨fun hr => decode_reserved hop (mt rsvField_eq_zero_iff.1 hr), fun hr hs hlarge => ?_,
    fun hr hs hi => ?_, decode_bulkOut_tooLong, decode_bulkOut_payload, decode_send_payload, decode_setup_payload,
    fun hr hs hi hother hp => ?_⟩
  · exact decode_badSel hop hr hs (Bool.eq_false_iff.2 fun hu => Nat.not_lt.2 hlarge (usesSel_iff.1 hu))
  · exact decode_badImm hop hr hs fun hz => Nat.not_lt.2 hi (ushiftRight_eq_zero_iff.1 hz)
  · rw [decode_body hop hr hs (ushiftRight_eq_zero_iff.2 hi)]
    exact decodeBody_payload hother hp

end Sys2Proof
end

section
/-! PROOF. What is refused: an illegal element on either port (30_encoding.md R98), and a command on a port that may not
issue it (30_encoding.md R101, 60_exceptions.md R223). -/

namespace Sys2Proof.Machine

variable {i : Instr} {s t : State}

/-! An illegal element. -/

theorem runElem_illegal {e : StreamElem} {r : EncReason} (h : decode (.cmd32 e) = .error r) (s : State) :
    runElem e s = .next (s.refuse (.encoding r)) := by
  unfold runElem
  rw [h]

/-- The gates hold back decoded events only (log 15). -/
theorem gated_illegal {e : StreamElem} {r : EncReason} (h : decode (.cmd32 e) = .error r) (s : State) :
    gated e s = false := by
  unfold gated
  rw [h]

/-- An idle APP agent takes its next element and runs it. -/
theorem appStep_takes {e : StreamElem} {rest : List StreamElem} (hop : s.appOp = .idle)
    (hp : s.appIn.pending = e :: rest) :
    appStep s = runElem e { s with appIn := { taken := s.appIn.taken + 1, pending := rest } } := by
  unfold appStep
  rw [hop, hp]

/-- An idle USB agent takes its next element, unless the gates hold it back, and runs it. -/
theorem usbStep_takes {e : StreamElem} {rest : List StreamElem} (hop : s.usbOp = .idle)
    (hp : s.usbIn.pending = e :: rest) (hg : gated e s = false) :
    usbStep s = runElem e { s with usbIn := { taken := s.usbIn.taken + 1, pending := rest } } := by
  unfold usbStep
  rw [hop, hp]
  exact if_neg (by rw [hg]; decide)

/-- Settles O14: the scheduled agent takes the element, and running it is the refusal. -/
theorem illegalElementIsRefused : Obligations.IllegalElementIsRefused := by
  unfold Obligations.IllegalElementIsRefused
  intro s agents e rest r hc hr hd
  refine ⟨fun hs hop hp => ?_, fun hs hop hp => ?_⟩
  · rw [step_scheduled hc hr hs]
    exact (appStep_takes (s := { s with sched := agents, issuer := .app }) hop hp).trans (runElem_illegal hd _)
  · rw [step_scheduled hc hr hs]
    exact (usbStep_takes (s := { s with sched := agents, issuer := .usb }) hop hp (gated_illegal hd _)).trans
      (runElem_illegal hd _)

/-! A command on a port that may not issue it. -/

/-- Every meaning but a query's begins with its port test. -/
theorem exec_forbidden (h : portAllows i s.issuer = false) : exec i s = .next (s.refuse .domain) := by
  cases i with
  | rbLenRx | rbLenTx | rbIsFullRx | rbIsFullTx | rbIsEmptyRx | rbIsEmptyTx | rbContigSpaceRx | rbContigSpaceTx
  | rbContigLenRx | rbContigLenTx => cases h
  | _ => exact onPort_neg s h _

/-! A command on a port that may issue it keeps the refusal mark, `INIT` after a success apart. -/

/-- A port test that passes leaves the meaning behind it. -/
theorem onPort_passes {allowed : Bool} {k : Result State} (h : onPort allowed s k = .next t) (ha : allowed = true) :
    k = .next t := by
  rwa [onPort_pos s ha] at h

theorem pushAndAnswer_refusal {f : Sel} {b : Byte}
    (h : andThen (pushByte f b s) (fun (acc, u) => .next (u.result (bitWord acc))) = .next t) :
    t.refusal = s.refusal := by
  obtain ⟨⟨acc, u⟩, hp, h⟩ := andThen_eq_next h
  cases h
  rcases pushByte_cases hp with ⟨-, hu⟩ | ⟨-, hu⟩ <;> cases hu <;> simp

theorem popAndAnswer_refusal {f : Sel}
    (h : andThen (popByte f s) (fun (b, u) => .next (u.result (popWord b))) = .next t) : t.refusal = s.refusal := by
  obtain ⟨⟨b, u⟩, hp, h⟩ := andThen_eq_next h
  cases h
  rcases popByte_cases hp with ⟨-, hu⟩ | ⟨-, hu⟩ <;> cases hu <;> simp

theorem lineStateRequest_refusal (v : Half) (s : State) : (lineStateRequest v s).refusal = s.refusal := by
  obtain ⟨conn, out, draws, free, h⟩ := lineStateRequest_writes v s
  rw [h]

theorem setCodingRequest_refusal (wLength : Half) (data : List Byte) (s : State) :
    (setCodingRequest wLength data s).refusal = s.refusal := by
  rw [setCodingRequest_eq]
  rfl

theorem afterBulkOut_refusal (bytes : List Byte) (s : State) : (afterBulkOut bytes s).refusal = s.refusal := by
  unfold afterBulkOut
  rw [callback_eq, callback_eq]
  split
  · rfl
  · split <;> rfl

theorem afterSendPacket_refusal (c : Nat) (s : State) : (afterSendPacket c s).refusal = s.refusal := by
  unfold afterSendPacket
  split <;> simp

theorem execInit_refusal (hi : s.issuer = .app) (h : execInit s = .next t) :
    t.refusal = s.refusal ∨ s.initDone = true := by
  rw [execInit_eq hi] at h
  cases h
  split
  · exact .inr ‹_›
  · exact .inl (State.afterDraw_refusal s)

theorem execEvSetup_refusal {p : SetupPacket} {stage : List Byte} (hi : s.issuer = .usb)
    (h : execEvSetup p stage s = .next t) : t.refusal = s.refusal := by
  have h := onPort_passes h (by rw [hi]; rfl)
  cases h
  split
  · rfl
  · split
    · exact lineStateRequest_refusal ..
    · split
      · exact setCodingRequest_refusal ..
      · split <;> rfl

theorem execEvSof_refusal (hi : s.issuer = .usb) (h : execEvSof s = .next t) : t.refusal = s.refusal := by
  have h := onPort_passes h (by rw [hi]; rfl)
  split at h
  · cases h; rfl
  · split at h
    · cases h; rfl
    · rw [sendPacket_eq_next h, afterSendPacket_refusal]

theorem exec_allowed_refusal (hport : portAllows i s.issuer = true) (h : exec i s = .next t) :
    t.refusal = s.refusal ∨ (i = .init ∧ s.initDone = true) := by
  cases i with
  | init => exact (execInit_refusal (beq_iff_eq.1 hport) h).imp_right fun hdone => ⟨rfl, hdone⟩
  | rbPushRx b | rbPushTx b | sendByte b => exact .inl (pushAndAnswer_refusal (onPort_passes h hport))
  | rbPopRx | rbPopTx | recvByte => exact .inl (popAndAnswer_refusal (onPort_passes h hport))
  | rbLenRx | rbLenTx | rbIsFullRx | rbIsFullTx | rbIsEmptyRx | rbIsEmptyTx | rbContigSpaceRx | rbContigSpaceTx
  | rbContigLenRx | rbContigLenTx => cases h; exact .inl rfl
  | send bytes =>
    have h := onPort_passes h hport
    split at h <;> cases h <;> exact .inl rfl
  | evSetup p stage => exact .inl (execEvSetup_refusal (beq_iff_eq.1 hport) h)
  | evSof => exact .inl (execEvSof_refusal (beq_iff_eq.1 hport) h)
  | evBulkOut bytes =>
    rcases execEvBulkOut_cases h with ⟨hi, -⟩ | ⟨-, -, rfl⟩
    · exact absurd (beq_iff_eq.1 hport) hi
    · exact .inl (afterBulkOut_refusal bytes s)
  | setLineCoding dir v ix l => cases onPort_passes h hport; exact .inl (setCodingRequest_refusal ..)
  | setControlLineState dir v ix l => cases onPort_passes h hport; exact .inl (lineStateRequest_refusal ..)
  | connected | available | poll | setRxCallback en | evReset | evDataIn ep | getLineCoding dir v ix l
  | classInterfaceUnsupported dir r v ix l | notRouted p => cases onPort_passes h hport; exact .inl rfl

/-- Settles O15: R101's table is the test every meaning makes. -/
theorem portLegalityTable : Obligations.PortLegalityTable := by
  unfold Obligations.PortLegalityTable
  intro i s allowed
  have hallowed : allowed = portAllows i s.issuer := by cases i <;> rfl
  rw [hallowed]
  exact ⟨exec_forbidden, fun hport t h => exec_allowed_refusal hport h⟩

end Sys2Proof.Machine
end

section
/-! PROOF. The statements of 40_ring_buffer.md: the contiguity bounds (R120), which bytes a store reaches, a push and a
pop (R112, R113, R119), the queries (R114 to R118) and the synchronisers (R123 to R129). -/

namespace Sys2Proof.Machine

open Sys2Proof.Safety

/-! The contiguity bounds (R120). -/

section
variable (s : State) (d : Domain) (f : Sel)

theorem State.cspace_le_room : s.cspace d f ≤ s.cfg.cap f - s.cfg.ix f (s.viewPut d f) := Nat.min_le_right ..
theorem State.cspace_le_free : s.cspace d f ≤ s.cfg.cap f - s.occOf d f := Nat.min_le_left ..
theorem State.clen_le_room : s.clen d f ≤ s.cfg.cap f - s.cfg.ix f (s.viewGet d f) := Nat.min_le_right ..
theorem State.clen_le_occOf : s.clen d f ≤ s.occOf d f := Nat.min_le_left ..

end

theorem memRead_inside {outside : Fault} {size : Nat} {m : Memory} {i n : Nat} (h : i + n ≤ size) :
    memRead outside size m i n = .next (Memory.readBytes m i n) := if_pos h

theorem memWrite_inside {outside : Fault} {size : Nat} {m : Memory} {i : Nat} {bytes : List Byte}
    (h : i + bytes.length ≤ size) : memWrite outside size m i bytes = .next (Memory.writeBytes m i bytes) := if_pos h

/-- A block no longer than the way from its index to the physical end stays inside the storage. -/
theorem ix_add_le_cap {c : Config} (hc : c.legal = true) (f : Sel) {v n : Nat} (hn : n ≤ c.cap f - c.ix f v) :
    c.ix f v + n ≤ c.cap f := by
  have hix := Config.ix_lt hc f v
  omega

/-- Settles O33: both counts are minima with the way to the physical end. -/
theorem contiguousBlocksStayInside : Obligations.ContiguousBlocksStayInside := by
  unfold Obligations.ContiguousBlocksStayInside
  intro s d f hc
  refine ⟨s.cspace_le_room d f, s.cspace_le_free d f, s.clen_le_room d f, s.clen_le_occOf d f, ?_, ?_⟩
  · rintro m i bytes rfl hlen
    exact memWrite_inside (ix_add_le_cap hc f (hlen.trans (s.cspace_le_room d f)))
  · rintro m i n rfl hlen
    exact memRead_inside (ix_add_le_cap hc f (hlen.trans (s.clen_le_room d f)))

/-! A push and a pop (R112, R113, R119). -/

variable {s t : State}

/-- Settles O37: `SEND_BYTE` is `RB_PUSH` of TX, and the issuer is the producer. -/
theorem pushStoresOrRefuses : Obligations.PushStoresOrRefuses := by
  unfold Obligations.PushStoresOrRefuses
  intro s b hc
  refine ⟨fun hi => (rbPush_eq .rx b hc hi).trans ?_, fun hi i hpush => ?_⟩
  · rw [State.result_usb hi, State.result_usb (by rw [State.setFifo_issuer, hi])]
    rfl
  · have hexec : exec i s = rbPush .tx b s := by rcases hpush with rfl | rfl <;> rfl
    rw [hexec, rbPush_eq .tx b hc hi, State.result_app hi, State.result_app (by rw [State.setFifo_issuer, hi])]
    rfl

/-- Settles O38: `RECV_BYTE` is `RB_POP` of RX, and the issuer is the consumer. -/
theorem popAnswersTheOldestByte : Obligations.PopAnswersTheOldestByte := by
  unfold Obligations.PopAnswersTheOldestByte
  intro s hc
  refine ⟨fun hi i hpop => ?_, fun hi => (rbPop_eq .tx hc hi).trans ?_⟩
  · have hexec : exec i s = rbPop .rx s := by rcases hpop with rfl | rfl <;> rfl
    rw [hexec, rbPop_eq .rx hc hi, State.result_app hi, State.result_app (by rw [State.setFifo_issuer, hi])]
    rfl
  · rw [State.result_usb hi, State.result_usb (by rw [State.setFifo_issuer, hi])]
    rfl

/-- What `RB_PUSH` can do: the refusal of the port, the answer 0, or one byte appended and the answer 1. -/
theorem rbPush_cases {f : Sel} {b : Byte} (h : rbPush f b s = .next t) :
    t = s.refuse .domain ∨ t = s.result 0#32 ∨ t = (s.setFifo f (appended s.cfg f (s.fifo f) [b])).result 1#32 := by
  rcases onPort_eq_next h with ⟨-, h⟩ | ⟨-, rfl⟩
  · obtain ⟨⟨acc, u⟩, hp, h⟩ := andThen_eq_next h
    cases h
    rcases pushByte_cases hp with ⟨-, hu⟩ | ⟨-, hu⟩ <;> cases hu
    · exact .inr (.inl rfl)
    · exact .inr (.inr rfl)
  · exact .inl rfl

theorem resultOutput_inj {d : Domain} {v w : Word} (h : resultOutput d v = resultOutput d w) : v = w := by
  cases d <;> cases h <;> rfl

theorem rbPush_answered_zero {f : Sel} {b : Byte} (h : rbPush f b s = .next t) (hout : s.out.length < t.out.length)
    (hlast : t.out.getLast? = some (resultOutput s.issuer 0#32)) : t = s.result 0#32 := by
  rcases rbPush_cases h with rfl | rfl | rfl
  · exact absurd hout (Nat.lt_irrefl _)
  · rfl
  · simp only [State.result_out, State.setFifo_issuer, List.getLast?_concat, Option.some.injEq] at hlast
    exact absurd (resultOutput_inj hlast) (by decide)

/-- Settles O40: a push that stores answers 1, and a refusal of the port emits nothing. -/
theorem refusedPushChangesNothing : Obligations.RefusedPushChangesNothing := by
  unfold Obligations.RefusedPushChangesNothing
  intro s t b i hpush h hout hlast
  rcases hpush with rfl | rfl | rfl
  · exact rbPush_answered_zero (f := .rx) h hout hlast
  · exact rbPush_answered_zero (f := .tx) h hout hlast
  · exact rbPush_answered_zero (f := .tx) h hout hlast

/-! Which bytes a store reaches. -/

/-- A push changes no byte of its FIFO but the one at the index of `put`. -/
theorem rbPush_read {f : Sel} {b : Byte} (hwf : Memory.wf (s.fifo f).data = true) (h : rbPush f b s = .next t) {a : Nat}
    (ha : a ≠ s.cfg.ix f (s.fifo f).put) : Memory.read (t.fifo f).data a = Memory.read (s.fifo f).data a := by
  rcases rbPush_cases h with rfl | rfl | rfl
  · cases f <;> rfl
  · cases f <;> rfl
  · have hstored : ((s.setFifo f (appended s.cfg f (s.fifo f) [b])).result 1#32).fifo f
        = appended s.cfg f (s.fifo f) [b] := by cases f <;> rfl
    rw [hstored]
    exact (Memory.read_write _ _ _ hwf a).trans (if_neg ha)

/-- The storage after `EV_BULK_OUT`: the packet in the buffer, and on the fast path the packet appended to RX. -/
theorem afterBulkOut_storage (bytes : List Byte) (s : State) :
    (afterBulkOut bytes s).pkt = Memory.writeBytes s.pkt 0 bytes ∧
    ((afterBulkOut bytes s).rx = s.rx ∨ (afterBulkOut bytes s).rx = appended s.cfg .rx s.rx (received bytes s)) := by
  unfold afterBulkOut
  rw [callback_eq, callback_eq]
  split
  · exact ⟨rfl, .inl rfl⟩
  · split
    · exact ⟨rfl, .inr rfl⟩
    · exact ⟨rfl, .inl rfl⟩

theorem execEvBulkOut_read_rx {bytes : List Byte} (hwf : Memory.wf s.rx.data = true)
    (h : execEvBulkOut bytes s = .next t) {a : Nat}
    (ha : a < s.cfg.ix .rx s.rx.put ∨ s.cfg.ix .rx s.rx.put + bytes.length ≤ a) :
    Memory.read t.rx.data a = Memory.read s.rx.data a := by
  rcases execEvBulkOut_cases h with ⟨-, rfl⟩ | ⟨-, -, rfl⟩
  · rfl
  · rcases (afterBulkOut_storage bytes s).2 with hrx | hrx <;> rw [hrx]
    exact Memory.read_writeBytes_outside hwf (by rw [length_received]; omega)

theorem execEvBulkOut_read_pkt {bytes : List Byte} (hwf : Memory.wf s.pkt = true)
    (h : execEvBulkOut bytes s = .next t) {a : Nat} (ha : bytes.length ≤ a) :
    Memory.read t.pkt a = Memory.read s.pkt a := by
  rcases execEvBulkOut_cases h with ⟨-, rfl⟩ | ⟨-, -, rfl⟩
  · rfl
  · rw [(afterBulkOut_storage bytes s).1]
    exact Memory.read_writeBytes_outside hwf (by omega)

/-- Every other instruction leaves the storage as it was. -/
theorem exec_storage {i : Instr} (h : exec i s = .next t) (hpushRx : ∀ b, i ≠ .rbPushRx b)
    (hbulk : ∀ bytes, i ≠ .evBulkOut bytes) (hpushTx : ∀ b, i ≠ .rbPushTx b) (hsend : ∀ b, i ≠ .sendByte b) :
    t.rx.data = s.rx.data ∧ t.tx.data = s.tx.data ∧ t.pkt = s.pkt := by
  have hw := exec_writes h
  cases i with
  | rbPushRx b => exact absurd rfl (hpushRx b)
  | evBulkOut bytes => exact absurd rfl (hbulk bytes)
  | rbPushTx b => exact absurd rfl (hpushTx b)
  | sendByte b => exact absurd rfl (hsend b)
  | _ => simp only [writesOnly] at hw; rw [hw]; exact ⟨rfl, rfl, rfl⟩

/-- Settles O36, by the store each instruction makes. -/
theorem storesReachOnlyTheirBytes : Obligations.StoresReachOnlyTheirBytes := by
  unfold Obligations.StoresReachOnlyTheirBytes
  intro s t hrx htx hpkt
  refine ⟨fun b h a ha => ?_, fun b h a ha => ?_, fun bytes h => ⟨fun a ha => ?_, fun a ha => ?_⟩,
    fun i h hpushRx hbulk hpushTx hsend a => ?_⟩
  · exact rbPush_read (f := .rx) hrx h ha
  · exact rbPush_read (f := .tx) htx (h.elim id id) ha
  · exact execEvBulkOut_read_rx hrx h ha
  · exact execEvBulkOut_read_pkt hpkt h ha
  · obtain ⟨hrxData, htxData, hpktData⟩ := exec_storage h hpushRx hbulk hpushTx hsend
    rw [hrxData, htxData, hpktData]
    exact ⟨rfl, rfl, rfl⟩

/-! The queries (R114 to R118, 43_facade.md R193, R194). -/

theorem countWord_of_lt {n : Nat} (h : n < 2 ^ 32) : countWord n = BitVec.ofNat 32 n := if_pos h

theorem bitWord_eq (b : Bool) : bitWord b = if b then 1#32 else 0#32 := by cases b <;> rfl

/-- A query on a port that may issue it answers its word. -/
theorem answers_of_queryWord {i : Instr} {w : Word} {v : Word → Prop} (hw : queryWord i s = some w)
    (hport : portAllows i s.issuer = true) (hv : v w) : answers i s v :=
  ⟨w, hv, exec_query hw hport⟩

/-- Settles O39: each query's word is a count or a bit of the issuing port's view. -/
theorem queriesAnswerTheView : Obligations.QueriesAnswerTheView := by
  unfold Obligations.QueriesAnswerTheView
  intro s pRx gRx pTx gTx hviews
  obtain ⟨rfl, rfl, rfl, rfl⟩ : pRx = s.viewPut s.issuer .rx ∧ gRx = s.viewGet s.issuer .rx ∧
      pTx = s.viewPut s.issuer .tx ∧ gTx = s.viewGet s.issuer .tx := by
    cases hi : s.issuer <;> rw [hi] at hviews <;> cases hviews <;> exact ⟨rfl, rfl, rfl, rfl⟩
  refine ⟨?_, ?_, ?_, ?_, ?_, ?_, ?_, ?_, ?_, ?_, fun hi => ?_, fun hi => ?_⟩
  · exact answers_of_queryWord rfl rfl countWord_of_lt
  · exact answers_of_queryWord rfl rfl countWord_of_lt
  · exact answers_of_queryWord rfl rfl (bitWord_eq _)
  · exact answers_of_queryWord rfl rfl (bitWord_eq _)
  · exact answers_of_queryWord rfl rfl (bitWord_eq _)
  · exact answers_of_queryWord rfl rfl (bitWord_eq _)
  · exact answers_of_queryWord rfl rfl countWord_of_lt
  · exact answers_of_queryWord rfl rfl countWord_of_lt
  · exact answers_of_queryWord rfl rfl countWord_of_lt
  · exact answers_of_queryWord rfl rfl countWord_of_lt
  · rw [hi]
    exact answers_of_queryWord rfl (by rw [hi]; rfl) countWord_of_lt
  · exact answers_of_queryWord rfl (by rw [hi]; rfl) (bitWord_eq _)

/-! The synchronisers (R123 to R129). -/

/-- Settles O17: a scheduled synchroniser makes its copy. -/
theorem synchroniserStepsCopy : Obligations.SynchroniserStepsCopy := by
  unfold Obligations.SynchroniserStepsCopy
  intro s hc hr
  exact ⟨turn_sync hc hr, turn_sync hc hr, turn_sync hc hr, turn_sync hc hr, turn_sync hc hr, turn_sync hc hr⟩

/-- A synchroniser's step, and what follows it. -/
theorem andThen_turn_sync {c : Copy} {k : State → Result State} (hc : s.cfg.legal = true) (hr : s.refusedBit = false) :
    andThen (turn (.sync c) s) k = k (syncStep c { s with sched := [] }) := by
  rw [turn_sync hc hr, andThen_next]

theorem synced_syncAll (s : State) : Synced (syncAll s) := by
  intro c
  cases c <;> rfl

theorem sourceOf_syncAll (c : Copy) (s : State) : sourceOf c (syncAll s) = sourceOf c s := by
  simp only [syncAll, sourceOf_syncStep]

/-- When every copy equals its source, both domains see the true counters. -/
theorem views_of_synced (h : Synced s) (d : Domain) (f : Sel) :
    s.viewPut d f = (s.fifo f).put ∧ s.viewGet d f = (s.fifo f).get := by
  cases f
  · cases d
    · exact ⟨h .rxPut, rfl⟩
    · exact ⟨rfl, h .rxGet⟩
  · cases d
    · exact ⟨rfl, h .txGet⟩
    · exact ⟨h .txPut, rfl⟩

/-- Settles O18: no synchroniser's step stops the next one, and together they bring every copy up to date. -/
theorem eagerSyncMakesEveryViewTrue : Obligations.EagerSyncMakesEveryViewTrue := by
  unfold Obligations.EagerSyncMakesEveryViewTrue
  intro s hc hr
  refine ⟨syncAll { s with sched := [] }, ?_, synced_syncAll _, fun c => ?_, views_of_synced (synced_syncAll _), rfl⟩
  · rw [andThen_turn_sync, andThen_turn_sync, andThen_turn_sync, andThen_turn_sync, andThen_turn_sync, turn_sync]
    · rfl
    -- No synchroniser writes the configuration or the mark, so `s`'s facts are those of each state between.
    any_goals exact hc
    all_goals exact hr
  · rw [sourceOf_syncAll]
    cases c <;> rfl

end Sys2Proof.Machine
end

section
/-! PROOF. The statements of 41_control_requests.md: what each control request does (R141 to R147), the round trip of
the line coding (R149), and who writes `CONN` (R148). -/

namespace Sys2Proof.Machine

open Sys2Proof.Safety

variable {i : Instr} {s t : State}

/-! The responder on its own port. -/

theorem onUsb_eq (hi : s.issuer = .usb) (k : Result State) : onUsb s k = k := onPort_pos s (by rw [hi]; rfl) k

/-- The verdict and the data stage, then the verdict's code as the result. -/
theorem answer_usb (hi : s.issuer = .usb) (v : Verdict) (data : List Byte) :
    answer v data s = { s with out := s.out ++ [.ctrl v data, .usbRes (verdictWord v)] } := by
  unfold answer
  rw [State.result_usb (s := s.emit _) hi, State.emit_out, List.append_assoc]
  rfl

/-- The line-state request with its result, by whether the notification is configured. -/
theorem lineStateRequest_usb (hi : s.issuer = .usb) (v : Half) :
    lineStateRequest v s = { (if s.cfg.serialStateNotify then s.afterDraw else s) with
      conn := v.getLsbD 0,
      out := s.out ++ (if s.cfg.serialStateNotify && s.drawn then [.notify epIntIn (s.cfg.serialStateBytes v)] else [])
        ++ [.ctrl .handled [], .usbRes 1#32] } := by
  rw [lineStateRequest_eq]
  refine (State.result_usb ?_ _).trans ?_
  · split
    · exact (State.afterDraw_issuer s).trans hi
    · exact hi
  · simp only [List.append_assoc, List.cons_append, List.nil_append]

/-! The requests as instructions (R143, R145 to R147). -/

/-- Settles O56: the draw is made, and its answer matters, only when the notification is configured. -/
theorem lineStateRequestWritesConn : Obligations.LineStateRequestWritesConn := by
  unfold Obligations.LineStateRequestWritesConn
  intro s dir v ix l hi
  have hexec : exec (.setControlLineState dir v ix l) s = .next (lineStateRequest v s) := onUsb_eq hi _
  rw [hexec, lineStateRequest_usb hi]
  refine ⟨fun hn => ?_, fun hn => ?_, length_serialStateBytes s.cfg v⟩
  · simp [hn]
  · simp [hn]

theorem exec_setLineCoding (hi : s.issuer = .usb) (dir : Bool) (v ix l : Half) :
    exec (.setLineCoding dir v ix l) s = .next { s with out := s.out ++
      (if 7 ≤ l.toNat then [.ctrl .handled [], .usbRes 1#32] else [.ctrl .notSupported [], .usbRes 0#32]) } := by
  have hexec : exec (.setLineCoding dir v ix l) s = .next (setCodingRequest l [] s) := onUsb_eq hi _
  rw [hexec, setCodingRequest_eq, answer_usb hi]
  split <;> rfl

/-- The data stage is the fixed structure's bytes, whatever the state holds. -/
theorem exec_getLineCoding (hi : s.issuer = .usb) (dir : Bool) (v ix l : Half) :
    exec (.getLineCoding dir v ix l) s = .next { s with out := s.out ++
      [.ctrl .handled [0x00#8, 0xC2#8, 0x01#8, 0x00#8, 0x00#8, 0x00#8, 0x08#8], .usbRes 1#32] } := by
  have hexec : exec (.getLineCoding dir v ix l) s = .next (answer .handled LineCoding.fixed.bytes s) := onUsb_eq hi _
  rw [hexec, answer_usb hi]
  rfl

/-- Settles O57: each of the four requests is one verdict. -/
theorem otherRequestsAnswerOnly : Obligations.OtherRequestsAnswerOnly := by
  unfold Obligations.OtherRequestsAnswerOnly
  intro s dir r v ix l p hi
  have hunsupported : exec (.classInterfaceUnsupported dir r v ix l) s = .next (answer .notSupported [] s) :=
    onUsb_eq hi _
  have hunrouted : exec (.notRouted p) s = .next (answer .notRouted [] s) := onUsb_eq hi _
  rw [hunsupported, hunrouted, answer_usb hi, answer_usb hi]
  exact ⟨exec_setLineCoding hi dir v ix l, exec_getLineCoding hi dir v ix l, rfl, rfl⟩

/-! The event that carries the requests (R142, 42_endpoint_events.md R175). -/

/-- `EV_SETUP` is the request of its packet, whatever the data stage: `LC` ignores writes (10_state.md R47). -/
theorem exec_evSetup (p : SetupPacket) (stage : List Byte) (s : State) :
    exec (.evSetup p stage) s = exec (decodeSetup p) s := by
  show execEvSetup p stage s = _
  unfold execEvSetup
  rw [decodeSetup_eq]
  by_cases hclass : p.bmRequestType &&& 0x7F#8 = 0x21#8
  · rw [if_neg (not_not.2 hclass), if_pos (isClassInterface_iff.2 hclass)]
    by_cases hset : p.bRequest = 0x20#8
    · rw [hset]; rfl
    · rw [if_neg hset, if_neg hset]
      by_cases hget : p.bRequest = 0x21#8
      · rw [hget]; rfl
      · rw [if_neg hget, if_neg hget]
        split <;> rfl
  · rw [if_pos hclass, if_neg (mt isClassInterface_iff.1 hclass)]
    rfl

/-- Settles O58: the event is `GET_LINE_CODING`, whose answer reads nothing of the state. -/
theorem lineCodingRoundTrip : Obligations.LineCodingRoundTrip := by
  unfold Obligations.LineCodingRoundTrip
  intro s p stage hi hclass hget
  have hrequest : decodeSetup p = .getLineCoding (p.bmRequestType.getLsbD 7) p.wValue p.wIndex p.wLength := by
    rw [decodeSetup_eq, if_pos (isClassInterface_iff.2 hclass), hget]
    rfl
  rw [exec_evSetup, hrequest, exec_getLineCoding hi]

/-! Who writes `CONN` (R148, 10_state.md R40). -/

theorem lineStateRequest_conn (v : Half) (s : State) : (lineStateRequest v s).conn = v.getLsbD 0 := by
  rw [lineStateRequest_eq, State.result_conn]

/-- Of the requests an `EV_SETUP` can carry, one writes `CONN`. -/
theorem execEvSetup_conn {p : SetupPacket} {stage : List Byte} (h : execEvSetup p stage s = .next t) :
    t.conn = s.conn ∨
      (p.bmRequestType &&& 0x7F#8 = 0x21#8 ∧ p.bRequest = 0x22#8 ∧ t.conn = p.wValue.getLsbD 0) := by
  rcases onPort_eq_next h with ⟨-, h⟩ | ⟨-, rfl⟩
  · cases h
    split
    · exact .inl rfl
    · next hclass =>
      split
      · next hstate => exact .inr ⟨not_not.1 hclass, hstate, lineStateRequest_conn ..⟩
      · rw [setCodingRequest_eq]
        split
        · exact .inl rfl
        · split <;> exact .inl rfl
  · exact .inl rfl

/-- The instructions that write `CONN`, and the value each leaves. -/
theorem exec_conn (h : exec i s = .next t) :
    t.conn = s.conn ∨ (i = .evReset ∧ t.conn = false) ∨
      (∃ p stage, i = .evSetup p stage ∧ p.bmRequestType &&& 0x7F#8 = 0x21#8 ∧ p.bRequest = 0x22#8 ∧
        t.conn = p.wValue.getLsbD 0) ∨
      ∃ dir v ix l, i = .setControlLineState dir v ix l ∧ t.conn = v.getLsbD 0 := by
  have hw := exec_writes h
  cases i with
  | evReset =>
    rcases onPort_eq_next h with ⟨-, h⟩ | ⟨-, rfl⟩
    · cases h; exact .inr (.inl ⟨rfl, rfl⟩)
    · exact .inl rfl
  | evSetup p stage =>
    rcases execEvSetup_conn h with hsame | hstate
    · exact .inl hsame
    · exact .inr (.inr (.inl ⟨p, stage, rfl, hstate⟩))
  | setControlLineState dir v ix l =>
    rcases onPort_eq_next h with ⟨-, h⟩ | ⟨-, rfl⟩
    · cases h; exact .inr (.inr (.inr ⟨dir, v, ix, l, rfl, lineStateRequest_conn v s⟩))
    · exact .inl rfl
  | _ => simp only [writesOnly] at hw; exact .inl (by rw [hw])

/-- A stream element is never a bare control request: those are 8-byte packets. -/
theorem ne_setControlLineState_of_decode {e : StreamElem} (h : decode (.cmd32 e) = .ok i) (dir : Bool) (v ix l : Half) :
    i ≠ .setControlLineState dir v ix l := by
  rintro rfl
  cases (acceptedElementIsItsEncoding e _ h).2

/-- Settles O25: the USB agent's element wrote `CONN`, and it is no bare control request. -/
theorem connHasTwoWriters : Obligations.ConnHasTwoWriters := by
  unfold Obligations.ConnHasTwoWriters
  intro s t h hne
  obtain ⟨ha, hop, e, rest, i, hp, hd, h⟩ := step_usbFlags h fun hsame => hne hsame.1
  rw [← runningUsb_conn rest s] at hne
  refine ⟨ha, hop, e, rest, i, hp, hd, ?_⟩
  rcases exec_conn h with hsame | hreset | hsetup | ⟨dir, v, ix, l, hi, -⟩
  · exact absurd hsame hne
  · exact .inl hreset
  · exact .inr hsetup
  · exact absurd hi (ne_setControlLineState_of_decode hd dir v ix l)

end Sys2Proof.Machine
end


section
/-! PROOF. The statements of 42_endpoint_events.md about one step: the gate (R160), `EV_RESET` and `EV_DATA_IN` (R162,
R174), the paths of `EV_BULK_OUT` (R163 to R168), `EV_SOF` (R170 to R172) and `EV_SETUP` (R175). -/

namespace Sys2Proof.Machine

open Sys2Proof.Safety

variable {i : Instr} {s t : State} {e : StreamElem} {rest : List StreamElem}

/-! The gate (R160). -/

theorem State.eventsOpen_iff :
    s.eventsOpen = true ↔ s.initDone = true ∧ (s.cfg.deliveryMode = .irq ∨ s.appOp = .poll) := by
  simp [State.eventsOpen]

theorem gated_decoded (hd : decode (.cmd32 e) = .ok i) (s : State) : gated e s = (isEvent i && !s.eventsOpen) := by
  unfold gated
  rw [hd]

/-- An idle USB agent runs the instruction its next element decodes to; an event needs the gates open. -/
theorem usbStep_exec (hop : s.usbOp = .idle) (hp : s.usbIn.pending = e :: rest) (hd : decode (.cmd32 e) = .ok i)
    (hgate : isEvent i = true → s.eventsOpen = true) :
    usbStep s = exec i { s with usbIn := { taken := s.usbIn.taken + 1, pending := rest } } := by
  have hopen : gated e s = false := by
    rw [gated_decoded hd]
    cases hev : isEvent i
    · rfl
    · rw [hgate hev]; rfl
  rw [usbStep_takes hop hp hopen, runElem_exec hd]

/-- An idle USB agent holds an event back while the gates are closed. -/
theorem usbStep_gated (hop : s.usbOp = .idle) (hp : s.usbIn.pending = e :: rest) (hg : gated e s = true) :
    usbStep s = .next s := by
  unfold usbStep
  rw [hop, hp]
  exact if_pos hg

/-- Settles O11: the agent is next and idle, and the gates of R160 are those of `eventsOpen`. -/
theorem usbPortRunsTheDecodedElement : Obligations.UsbPortRunsTheDecodedElement := by
  unfold Obligations.UsbPortRunsTheDecodedElement
  intro s agents e rest i hc hr hs hop hp hd hgate
  rw [step_scheduled hc hr hs]
  refine usbStep_exec (s := { s with sched := agents, issuer := .usb }) hop hp hd fun hev => ?_
  obtain ⟨hinit, hmode⟩ := hgate hev
  exact State.eventsOpen_iff.2 ⟨hinit, hmode.imp_right And.right⟩

/-- Settles O12: the gate that is closed gates the element. -/
theorem closedGateHoldsTheEvent : Obligations.ClosedGateHoldsTheEvent := by
  unfold Obligations.ClosedGateHoldsTheEvent
  intro s agents e rest i hc hr hs hop hp hd hi hclosed
  have hev : isEvent i = true := by
    rcases hi with hi | ⟨p, stage, rfl⟩ | ⟨b, rfl⟩ | ⟨ep, rfl⟩
    · rcases List.mem_pair.1 hi with rfl | rfl <;> rfl
    · rfl
    · rfl
    · rfl
  have hshut : s.eventsOpen = false := by
    rw [Bool.eq_false_iff, ne_eq, State.eventsOpen_iff]
    rintro ⟨hinit, hmode⟩
    rcases hclosed with hno | ⟨hpolled, hpoll⟩
    · exact absurd (hinit.symm.trans hno) (by decide)
    · rcases hmode with hirq | happ
      · exact absurd (hirq.symm.trans hpolled) (by decide)
      · exact hpoll happ
  rw [step_scheduled hc hr hs]
  refine usbStep_gated (s := { s with sched := agents, issuer := .usb }) hop hp ?_
  rw [gated_decoded hd, hev]
  exact congrArg not hshut

/-! `EV_RESET` and `EV_DATA_IN` (R162, R174). -/

/-- Settles O48: behind the port test, one flag cleared and the answer, or the answer alone. -/
theorem resetClearsConnOnly : Obligations.ResetClearsConnOnly := by
  unfold Obligations.ResetClearsConnOnly
  intro s hi
  refine ⟨(onUsb_eq hi _).trans ?_, fun ep => (onUsb_eq hi _).trans ?_⟩
  · rw [State.result_usb (s := { s with conn := false }) hi]
  · rw [State.result_usb hi]

/-! The paths of `EV_BULK_OUT` (R163 to R168). -/

/-- The callback, if one is registered, and then the answer 0. -/
theorem callback_result_usb (hi : s.issuer = .usb) (bytes : List Byte) :
    (callback bytes s).result 0#32 =
      { s with out := s.out ++ (if s.rxcbUsb then [.rxCallback bytes] else []) ++ [.usbRes 0#32] } := by
  rw [callback_eq]
  exact State.result_usb (by exact hi) _

/-- Settles O49: one case for each path of `afterBulkOut`. -/
theorem bulkOutTakesItsPath : Obligations.BulkOutTakesItsPath := by
  unfold Obligations.BulkOutTakesItsPath
  intro s bytes _ hi hlen hwf p cspace s1
  refine (execEvBulkOut_eq hi hlen).trans (congrArg _ ?_)
  unfold afterBulkOut
  rw [received_eq hwf, callback_result_usb (s := loaded bytes s) hi,
    callback_result_usb (s := (loaded bytes s).setFifo .rx (appended s.cfg .rx s.rx bytes)) hi]
  by_cases hbypass : s.rxcbUsb = true ∧ s.cfg.rxCbBypass = true
  · rw [if_pos hbypass, if_pos (Bool.and_eq_true_iff.2 hbypass)]
    simp [s1, loaded, hbypass.1]
  · rw [if_neg hbypass, if_neg (mt Bool.and_eq_true_iff.1 hbypass)]
    rfl

/-! The slow path (R166 to R168). -/

theorem usbStep_rx {len i : Nat} {drop : Bool} (hop : s.usbOp = .rx len i drop) : usbStep s = rxStep len i drop s := by
  unfold usbStep
  rw [hop]

/-- A chosen step of the USB agent on the slow path. -/
theorem turn_rx {len i : Nat} {drop : Bool} (hc : s.cfg.legal = true) (hr : s.refusedBit = false)
    (hop : s.usbOp = .rx len i drop) (hi : i ≤ len) (hlen : len ≤ mpsBulk) :
    turn .usb s = .next (afterRxStep len i drop { s with sched := [], issuer := .usb }) := by
  rw [turn_eq hc hr]
  exact (usbStep_rx (s := { s with sched := [], issuer := .usb }) hop).trans (rxStep_eq hc hi hlen)

/-- A byte stored (R166). -/
theorem afterRxStep_store {len i : Nat} {drop : Bool} (hi : i < len)
    (hroom : drop = false ∧ s.cfg.occ s.rx.put s.rx.getCopy < s.cfg.nRx) :
    afterRxStep len i drop s =
      { s with rx := appended s.cfg .rx s.rx [Memory.read s.pkt i], usbOp := .rx len (i + 1) false } := by
  unfold afterRxStep
  rw [if_pos hi]
  exact if_pos hroom

/-- A byte dropped, and every later one with it (R166). -/
theorem afterRxStep_drop {len i : Nat} {drop : Bool} (hi : i < len)
    (hfull : ¬(drop = false ∧ s.cfg.occ s.rx.put s.rx.getCopy < s.cfg.nRx)) :
    afterRxStep len i drop s = { s with usbOp := .rx len (i + 1) true } := by
  unfold afterRxStep
  rw [if_pos hi]
  exact if_neg hfull

/-- The completion (R167, R168). -/
theorem afterRxStep_done {len : Nat} {drop : Bool} (hi : s.issuer = .usb) :
    afterRxStep len len drop s = { s with
      usbOp := .idle,
      out := s.out ++ (if s.rxcbUsb then [.rxCallback (Memory.readBytes s.pkt 0 len)] else []) ++ [.usbRes 0#32] } := by
  unfold afterRxStep
  rw [if_neg (Nat.lt_irrefl len), callback_eq]
  exact State.result_usb (by exact hi) _

/-- Settles O50, by the three cases of a slow-path step. -/
theorem slowPathStoresDropsOrCompletes : Obligations.SlowPathStoresDropsOrCompletes := by
  unfold Obligations.SlowPathStoresDropsOrCompletes
  intro s len i drop hc hr hop hi hlen
  refine (turn_rx hc hr hop hi hlen).trans (congrArg _ ?_)
  split
  · next hdone =>
    subst hdone
    exact afterRxStep_done rfl
  · next hmore =>
    split
    · next hroom => exact afterRxStep_store (by omega) hroom
    · next hfull => exact afterRxStep_drop (by omega) hfull

/-! `EV_SOF` (R170 to R172). -/

/-- The number of bytes `EV_SOF` offers bulk-IN. -/
def flushCount (s : State) : Nat := min (s.clen .usb .tx) mpsBulk

/-- `EV_SOF` on the USB port: nothing to do, or a packet offered. -/
theorem execEvSof_eq (hc : s.cfg.legal = true) (hi : s.issuer = .usb) :
    execEvSof s = .next (if s.conn = false ∨ (flushCount s = 0 ∧ s.pef = false) then s.result 0#32
      else afterSendPacket (flushCount s) s) := by
  have hfit : s.cfg.ix .tx s.tx.get + flushCount s ≤ s.cfg.cap .tx :=
    ix_add_le_cap hc .tx ((Nat.min_le_left ..).trans (s.clen_le_room .usb .tx))
  unfold execEvSof
  rw [onUsb_eq hi]
  by_cases hconn : s.conn = false
  · rw [if_pos hconn, if_pos (.inl hconn)]
  · rw [if_neg hconn]
    by_cases hnone : flushCount s = 0 ∧ s.pef = false
    · exact (if_pos hnone).trans (congrArg _ (if_pos (Or.inr hnone)).symm)
    · rw [if_neg (not_or.2 ⟨hconn, hnone⟩), ← sendPacket_eq hfit]
      exact if_neg hnone

/-- A packet bulk-IN takes: its bytes leave TX (R172). -/
theorem afterSendPacket_taken {c : Nat} (hi : s.issuer = .usb) (hd : s.drawn = true) :
    afterSendPacket c s = { s.afterDraw with
      tx := taken s.cfg s.tx c, pef := decide (c = mpsBulk),
      out := s.out ++ [.packetIn epBulkIn (Memory.readBytes s.tx.data (s.cfg.ix .tx s.tx.get) c), .usbRes 0#32] } := by
  unfold afterSendPacket
  rw [if_pos hd, State.afterDraw_record s]
  refine (State.result_usb (by exact hi) _).trans ?_
  simp only [State.emit_out, State.setFifo_out, List.append_assoc]
  rfl

/-- A packet bulk-IN does not take changes nothing (R172). -/
theorem afterSendPacket_notTaken {c : Nat} (hi : s.issuer = .usb) (hd : ¬s.drawn = true) :
    afterSendPacket c s = { s.afterDraw with out := s.out ++ [.usbRes 0#32] } := by
  unfold afterSendPacket
  rw [if_neg hd, State.result_usb (by rw [State.afterDraw_issuer, hi]), State.afterDraw_out]

/-- Settles O51: the count is `flushCount`, and bulk-IN takes the packet or not. -/
theorem sofSendsTheOldestContiguousBytes : Obligations.SofSendsTheOldestContiguousBytes := by
  unfold Obligations.SofSendsTheOldestContiguousBytes
  intro s hc hi g c
  refine (execEvSof_eq hc hi).trans (congrArg _ ?_)
  have hcount : flushCount s = c := rfl
  rw [hcount, State.result_usb hi]
  by_cases hd : s.drawn = true
  · rw [if_pos hd, afterSendPacket_taken hi hd]
    rfl
  · rw [if_neg hd, afterSendPacket_notTaken hi hd]

/-! `EV_SETUP` (R175). -/

/-- What a control request leaves: `CONN`, the draws and the trace, whose last outputs are the verdict and its code. -/
def Answered (s t : State) : Prop :=
  ∃ v data sent, t = { s with conn := t.conn, out := t.out, draws := t.draws, free := t.free } ∧
    t.out = s.out ++ sent ++ [.ctrl v data, .usbRes (verdictWord v)]

theorem answered_answer (hi : s.issuer = .usb) (v : Verdict) (data : List Byte) : Answered s (answer v data s) := by
  rw [answer_usb hi]
  exact ⟨v, data, [], rfl, by rw [List.append_nil]⟩

theorem answered_lineState (hi : s.issuer = .usb) (v : Half) : Answered s (lineStateRequest v s) := by
  rw [lineStateRequest_usb hi]
  refine ⟨.handled, [], _, ?_, rfl⟩
  split
  · rw [State.afterDraw_record s]
  · rfl

/-- Every packet's request is answered. -/
theorem execEvSetup_answered (hi : s.issuer = .usb) (p : SetupPacket) (stage : List Byte) :
    ∃ t, execEvSetup p stage s = .next t ∧ Answered s t := by
  refine ⟨_, onUsb_eq hi _, ?_⟩
  rw [setCodingRequest_eq]
  split
  · exact answered_answer hi ..
  · split
    · exact answered_lineState hi _
    · split
      · exact answered_answer hi ..
      · split <;> exact answered_answer hi ..

/-- Settles O55: the event is its packet's request, and each request ends with its verdict. -/
theorem setupEventRunsItsRequest : Obligations.SetupEventRunsItsRequest := by
  unfold Obligations.SetupEventRunsItsRequest
  intro p stage s
  refine ⟨exec_evSetup p stage s, fun hi => ?_⟩
  obtain ⟨t, hexec, v, data, sent, hframe, hout⟩ := execEvSetup_answered hi p stage
  refine ⟨t, v, data, hexec, hframe, sent, hout.trans ?_⟩
  cases v <;> rfl

end Sys2Proof.Machine
end

section
/-! PROOF. The drop law of the slow path (42_endpoint_events.md R169): how far a packet that does not fit has got, kept
by every step but `SYNC_RX_GET` and moved on by the USB agent's own. -/

namespace Sys2Proof.Machine

open Sys2Proof.Safety

/-- The bytes free in RX by the USB view. -/
def rxFree (s : State) : Nat := s.cfg.nRx - s.cfg.occ s.rx.put s.rx.getCopy

/-- The packet `bytes` came in at `s`, and in `u` its first `n` bytes have been dealt with: those that fitted are behind
the bytes RX held, less what has been popped in front, and the USB view of `get` is still that of `s`. -/
structure Received (s : State) (bytes : List Byte) (n : Nat) (u : State) : Prop where
  inv : BlockInv u
  cfg : u.cfg = s.cfg
  getCopy : u.rx.getCopy = s.rx.getCopy
  packet : Memory.readBytes u.pkt 0 bytes.length = bytes
  occ : s.cfg.occ u.rx.put s.rx.getCopy = s.cfg.occ s.rx.put s.rx.getCopy + min n (rxFree s)
  popped_le : s.cfg.occ u.rx.get s.rx.get ≤ (contents s.cfg .rx s.rx).length + min n (rxFree s)
  held : contents s.cfg .rx u.rx =
    (contents s.cfg .rx s.rx ++ bytes.take (min n (rxFree s))).drop (s.cfg.occ u.rx.get s.rx.get)

/-- The USB agent is at byte `n` of the packet, and drops bytes only past those that fit. -/
def OnSlowPath (s : State) (bytes : List Byte) (n : Nat) (u : State) : Prop :=
  ∃ drop, u.usbOp = .rx bytes.length n drop ∧ (drop = true → rxFree s ≤ n)

variable {s u v t : State} {bytes : List Byte} {n : Nat} {e : StreamElem} {rest : List StreamElem}

/-! A chosen step. -/

theorem turn_blockInv {a : Agent} (h : BlockInv u) (hturn : turn a u = .next v) : BlockInv v :=
  stepKeepsTheInvariant _ v (blockInv_preamble h [a] u.free u.issuer u.appIn u.usbIn) hturn

theorem turn_running {a : Agent} (hturn : turn a u = .next v) : u.refusedBit = false := (step_eq_next hturn).2.1

/-- A chosen step of the idle USB agent runs the instruction its next element decodes to. -/
theorem turn_usb_exec {i : Instr} (hc : s.cfg.legal = true) (hr : s.refusedBit = false) (hop : s.usbOp = .idle)
    (hp : s.usbIn.pending = e :: rest) (hd : decode (.cmd32 e) = .ok i) (hopen : s.eventsOpen = true) :
    turn .usb s = exec i { s with
      sched := [], issuer := .usb, usbIn := { taken := s.usbIn.taken + 1, pending := rest } } := by
  rw [turn_eq hc hr]
  exact usbStep_exec (s := { s with sched := [], issuer := .usb }) hop hp hd fun _ => hopen

/-! What the invariant says of RX. -/

/-- The bytes free by the USB view fill RX up. -/
theorem occ_add_rxFree (h : BlockInv s) : s.cfg.occ s.rx.put s.rx.getCopy + rxFree s = s.cfg.nRx :=
  Nat.add_sub_of_le h.rx.bounded

/-- What RX holds and the bytes free by the USB view are at most its capacity. -/
theorem length_add_rxFree_le (h : BlockInv s) : (contents s.cfg .rx s.rx).length + rxFree s ≤ s.cfg.nRx := by
  have hfill := occ_add_rxFree h
  have htrails := h.rx.get_trails
  rw [length_contents]
  omega

/-- A full turn of a counter is more than RX holds. -/
theorem nRx_lt_turn (hc : s.cfg.legal = true) : s.cfg.nRx < 2 ^ s.cfg.ctrW := by
  have hpos : 0 < s.cfg.nRx := Config.legal_cap_pos hc .rx
  have hdouble : 2 * s.cfg.nRx ≤ 2 ^ s.cfg.ctrW := Config.legal_cap_double hc .rx
  omega

/-! Steps that deal with no byte. -/

/-- The packet's progress is in RX and the buffer alone. -/
theorem Received.of_same (h : Received s bytes n u) {m : Nat} (hm : min m (rxFree s) = min n (rxFree s))
    (hinv : BlockInv v) (hcfg : v.cfg = u.cfg) (hrx : v.rx = u.rx) (hpkt : v.pkt = u.pkt) : Received s bytes m v :=
  ⟨hinv, hcfg.trans h.cfg, by rw [hrx, h.getCopy], by rw [hpkt, h.packet], by rw [hrx, hm, h.occ],
    by rw [hrx, hm]; exact h.popped_le, by rw [hrx, hm, h.held]⟩

/-- Bytes popped in front come on top of those popped before. -/
theorem Received.popped_add (hs : BlockInv s) (h : Received s bytes n u) (hv : v.rx.get < 2 ^ s.cfg.ctrW)
    (hle : s.cfg.occ v.rx.get u.rx.get ≤ (contents s.cfg .rx u.rx).length) :
    s.cfg.occ v.rx.get s.rx.get = s.cfg.occ u.rx.get s.rx.get + s.cfg.occ v.rx.get u.rx.get := by
  have hu : u.rx.get < 2 ^ s.cfg.ctrW := h.cfg ▸ h.inv.rx.get_lt
  have hcap := length_add_rxFree_le hs
  have hturn := nRx_lt_turn hs.legal
  have hpopped := h.popped_le
  rw [h.held, List.length_drop, List.length_append, List.length_take] at hle
  have hadd := Config.occ_put_add (n := s.cfg.occ v.rx.get u.rx.get) hu hs.rx.get_lt (by omega)
  rwa [Config.wrap_get_occ hv hu] at hadd

/-- A step of another agent that is no `SYNC_RX_GET` adds nothing to RX, and may pop in front. -/
theorem Received.other {a : Agent} (hs : BlockInv s) (h : Received s bytes n u) (ha : a ≠ .usb)
    (hsync : a ≠ .sync .rxGet) (hturn : turn a u = .next v) : Received s bytes n v ∧ v.usbOp = u.usbOp := by
  have hinv := turn_blockInv h.inv hturn
  have hcfg : v.cfg = u.cfg := (stepKeepsConfigurationAndTrace _ v hturn).1
  obtain ⟨hput, -, -⟩ := (producerAndConsumerWriteTheirOwnSide _ v hturn).1 ha
  obtain ⟨-, -, hop, hpkt, -, -⟩ := (flagsAreWrittenByTheirDomain _ v hturn).1 ha
  have hcopy : v.rx.getCopy = u.rx.getCopy := (turn_copyOf hturn .rxGet).2 hsync
  obtain ⟨added, hadded, hle, hqueue, -, -⟩ :=
    fifoStepsAreQueueSteps _ v (blockInv_preamble h.inv [a] u.free u.issuer u.appIn u.usbIn) hturn .rx
  simp only [State.fifo_rx] at hput hop hpkt hadded hle hqueue
  rw [hput, Config.occ_self] at hadded
  rw [List.eq_nil_of_length_eq_zero hadded, List.append_nil, hcfg, h.cfg] at hqueue
  rw [h.cfg] at hle
  have hpopped := h.popped_add hs (by rw [← h.cfg, ← hcfg]; exact hinv.rx.get_lt) hle
  refine ⟨⟨hinv, hcfg.trans h.cfg, hcopy.trans h.getCopy, by rw [hpkt, h.packet], by rw [hput, h.occ], ?_, ?_⟩, hop⟩
  · rw [h.held, List.length_drop, List.length_append, List.length_take] at hle
    have hbefore := h.popped_le
    omega
  · rw [hqueue, h.held, List.drop_drop, hpopped]

/-! The USB agent's own steps. -/

/-- The view has room exactly before the byte that no longer fits (R166). -/
theorem Received.room_iff (hs : BlockInv s) (h : Received s bytes n u) {drop : Bool}
    (hdrop : drop = true → rxFree s ≤ n) :
    (drop = false ∧ u.cfg.occ u.rx.put u.rx.getCopy < u.cfg.nRx) ↔ n < rxFree s := by
  have hfill := occ_add_rxFree hs
  rw [h.cfg, h.getCopy, h.occ]
  constructor
  · rintro ⟨-, hroom⟩
    omega
  · intro hn
    exact ⟨Bool.eq_false_iff.2 fun hd => by have := hdrop hd; omega, by omega⟩

/-- The byte that fits is stored behind the others. -/
theorem Received.store (hs : BlockInv s) (h : Received s bytes n u) (hn : n < bytes.length) (hfit : n < rxFree s)
    (hinv : BlockInv v) (hcfg : v.cfg = u.cfg)
    (hrx : v.rx = appended u.cfg .rx u.rx [Memory.read u.pkt n]) (hpkt : v.pkt = u.pkt) :
    Received s bytes (n + 1) v := by
  have hbyte : Memory.read u.pkt n = bytes[n] := by
    have hget := Memory.getElem_readBytes u.pkt 0 bytes.length n (by simpa using hn)
    simpa [h.packet] using hget.symm
  have hfill := occ_add_rxFree hs
  have hocc := h.occ
  have hmin : min n (rxFree s) = n := Nat.min_eq_left hfit.le
  have hmin' : min (n + 1) (rxFree s) = n + 1 := Nat.min_eq_left hfit
  have hroom : 1 ≤ s.cfg.nRx - s.cfg.occ u.rx.put u.rx.getCopy := by rw [h.getCopy]; omega
  have hrxInv : FifoInv s.cfg .rx u.rx := h.cfg ▸ h.inv.rx
  rw [h.cfg, hbyte] at hrx
  refine ⟨hinv, hcfg.trans h.cfg, by rw [hrx]; exact h.getCopy, by rw [hpkt, h.packet], ?_, ?_, ?_⟩
  · have hadd := Config.occ_put_add (n := 1) hrxInv.put_lt hs.rx.getCopy_lt
      (by have := nRx_lt_turn hs.legal; omega)
    rw [hrx, hmin']
    exact hadd.trans (by omega)
  · rw [hrx]
    exact h.popped_le.trans (by omega)
  · rw [hrx, contents_appended (bytes := [bytes[n]]) hs.legal hrxInv hroom (Config.one_le_room hs.legal .rx _),
      h.held, hmin, hmin', ← List.take_append_getElem hn, ← List.append_assoc]
    refine (List.drop_append_of_le_length ?_).symm
    have hpopped := h.popped_le
    rw [List.length_append, List.length_take]
    omega

/-- A micro-step deals with one byte. -/
theorem Received.advances (hs : BlockInv s) (h : Received s bytes n u) (hop : OnSlowPath s bytes n u)
    (hr : u.refusedBit = false) (hn : n < bytes.length) (hlen : bytes.length ≤ mpsBulk) :
    ∃ v, turn .usb u = .next v ∧ Received s bytes (n + 1) v ∧ OnSlowPath s bytes (n + 1) v ∧
      v = { u with sched := [], issuer := .usb, usbOp := v.usbOp,
                   rx := { u.rx with data := v.rx.data, put := v.rx.put } } := by
  obtain ⟨drop, hrx, hdrop⟩ := hop
  have hturn := turn_rx h.inv.legal hr hrx hn.le hlen
  have hinv := turn_blockInv h.inv hturn
  by_cases hfit : n < rxFree s
  · rw [afterRxStep_store (s := { u with sched := [], issuer := .usb }) hn
      ((h.room_iff hs hdrop).2 hfit)] at hturn hinv
    exact ⟨_, hturn, h.store hs hn hfit hinv rfl rfl rfl, ⟨false, rfl, nofun⟩, rfl⟩
  · rw [afterRxStep_drop (s := { u with sched := [], issuer := .usb }) hn
      (mt (h.room_iff hs hdrop).1 hfit)] at hturn hinv
    exact ⟨_, hturn, h.of_same (by omega) hinv rfl rfl rfl, ⟨true, rfl, fun _ => by omega⟩, rfl⟩

/-- The completion calls a registered callback with the whole packet (R167, R168). -/
theorem Received.completes (h : Received s bytes bytes.length u) (hop : OnSlowPath s bytes bytes.length u)
    (hr : u.refusedBit = false) (hlen : bytes.length ≤ mpsBulk) :
    ∃ v, turn .usb u = .next v ∧ Received s bytes bytes.length v ∧ v.usbOp = .idle ∧ v.rx.get = u.rx.get ∧
      v.out = u.out ++ (if u.rxcbUsb then [.rxCallback bytes] else []) ++ [.usbRes 0#32] := by
  obtain ⟨drop, hrx, -⟩ := hop
  have hturn := turn_rx h.inv.legal hr hrx (Nat.le_refl _) hlen
  have hinv := turn_blockInv h.inv hturn
  rw [afterRxStep_done rfl, h.packet] at hturn hinv
  exact ⟨_, hturn, h.of_same rfl hinv rfl rfl rfl, rfl, rfl, rfl⟩

/-- A packet that does not fit starts the slow path: fewer bytes are free than it has, so fewer than 64. -/
theorem afterBulkOut_slow (hbypass : (s.rxcbUsb && s.cfg.rxCbBypass) = false) (hlong : rxFree s < bytes.length)
    (hlen : bytes.length ≤ mpsBulk) :
    afterBulkOut bytes s = { loaded bytes s with usbOp := .rx bytes.length 0 false } := by
  have hspace : s.cspace .usb .rx ≤ rxFree s := s.cspace_le_free .usb .rx
  unfold afterBulkOut
  rw [if_neg (by rw [hbypass]; decide), if_neg (by omega)]

/-- The bulk-OUT packet of a decoded element fits the buffer (30_encoding.md R98). -/
theorem decode_bulkOut_length (hd : decode (.cmd32 e) = .ok (.evBulkOut bytes)) : bytes.length ≤ mpsBulk :=
  of_decide_eq_true (acceptedElementIsItsEncoding e _ hd).1

/-- The step that takes the packet. -/
theorem received_zero (hs : BlockInv s) (hr : s.refusedBit = false) (hop : s.usbOp = .idle)
    (hp : s.usbIn.pending = e :: rest) (hd : decode (.cmd32 e) = .ok (.evBulkOut bytes)) (hopen : s.eventsOpen = true)
    (hbypass : (s.rxcbUsb && s.cfg.rxCbBypass) = false) (hlong : rxFree s < bytes.length) :
    ∃ u, turn .usb s = .next u ∧ Received s bytes 0 u ∧ OnSlowPath s bytes 0 u ∧ u.rx = s.rx ∧ u.out = s.out ∧
      u.rxcbUsb = s.rxcbUsb ∧ u.refusedBit = false := by
  have hlen := decode_bulkOut_length hd
  have hturn := (turn_usb_exec hs.legal hr hop hp hd hopen).trans (execEvBulkOut_eq rfl hlen)
  rw [afterBulkOut_slow (by exact hbypass) (by exact hlong) hlen] at hturn
  refine ⟨_, hturn, ⟨turn_blockInv hs hturn, rfl, rfl, received_eq hs.pkt_canonical, ?_, ?_, ?_⟩, ⟨false, rfl, nofun⟩,
    rfl, rfl, rfl, hr⟩
  · rw [Nat.zero_min]; rfl
  · simp [loaded]
  · simp [loaded]

/-! The packet alone on its port. -/

/-- From byte `n` on, the packet's remaining steps all succeed when no other agent steps between. -/
theorem Received.turns (hs : BlockInv s) (hlen : bytes.length ≤ mpsBulk) (m : Nat) (hm : n + m = bytes.length)
    (h : Received s bytes n u) (hop : OnSlowPath s bytes n u) (hr : u.refusedBit = false) :
    ∃ t, turns .usb (m + 1) u = .next t ∧ Received s bytes bytes.length t ∧ t.usbOp = .idle ∧ t.rx.get = u.rx.get ∧
      t.out = u.out ++ (if u.rxcbUsb then [.rxCallback bytes] else []) ++ [.usbRes 0#32] := by
  induction m generalizing n u with
  | zero =>
    obtain rfl : n = bytes.length := hm
    obtain ⟨t, hturn, hrest⟩ := h.completes hop hr hlen
    refine ⟨t, ?_, hrest⟩
    rw [Safety.turns, hturn]
    rfl
  | succ m ih =>
    obtain ⟨v, hturn, hv, hopv, hframe⟩ := h.advances hs hop hr (by omega) hlen
    obtain ⟨t, hturns, ht⟩ := ih (by omega) hv hopv (by rw [hframe]; exact hr)
    refine ⟨t, ?_, ?_⟩
    · rw [Safety.turns, hturn]
      exact hturns
    · rw [hframe] at ht
      exact ht

/-- When every byte has been dealt with, the bytes that fitted are in RX and RX is full by the USB view (R169). -/
theorem Received.full (hs : BlockInv s) (hlong : rxFree s < bytes.length) (h : Received s bytes bytes.length t) :
    s.cfg.occ t.rx.get s.rx.get ≤ (contents s.cfg .rx s.rx).length + rxFree s ∧
      contents t.cfg .rx t.rx =
        (contents s.cfg .rx s.rx ++ bytes.take (rxFree s)).drop (s.cfg.occ t.rx.get s.rx.get) ∧
      t.cfg.occ t.rx.put t.rx.getCopy = t.cfg.nRx := by
  have hmin : min bytes.length (rxFree s) = rxFree s := Nat.min_eq_right hlong.le
  have hpopped := h.popped_le
  have hheld := h.held
  have hocc := h.occ
  rw [hmin] at hpopped hheld hocc
  rw [h.cfg, h.getCopy]
  exact ⟨hpopped, hheld, hocc.trans (occ_add_rxFree hs)⟩

/-- Settles O52: the first step takes the packet, and its `L + 1` others follow it to the end. -/
theorem overflowingPacketKeepsItsPrefix : Obligations.OverflowingPacketKeepsItsPrefix := by
  unfold Obligations.OverflowingPacketKeepsItsPrefix
  intro s e rest bytes hs hr hop hp hd hopen hbypass hlong k
  obtain ⟨u, hturn, hu, hopu, hrx, hout, hcb, hru⟩ := received_zero hs hr hop hp hd hopen hbypass hlong
  obtain ⟨t, hturns, ht, hidle, hget, houtt⟩ :=
    hu.turns hs (decode_bulkOut_length hd) bytes.length (Nat.zero_add _) hopu hru
  obtain ⟨-, hheld, hfull⟩ := ht.full hs hlong
  rw [hget, hrx, Config.occ_self, List.drop_zero] at hheld
  rw [hout, hcb] at houtt
  refine ⟨t, ?_, hidle, hheld, hfull, houtt⟩
  rw [turns, hturn]
  exact hturns

/-! The packet among the steps of other agents. -/

/-- After the completion, and before the USB agent's next step, the other agents' steps change no more than before. -/
theorem Received.runs_others {agents : List Agent} (hs : BlockInv s) (h : Received s bytes n u)
    (husb : Agent.usb ∉ agents) (hsync : Agent.sync .rxGet ∉ agents) (hruns : runs agents u = .next t) :
    Received s bytes n t ∧ t.usbOp = u.usbOp := by
  induction agents generalizing u with
  | nil => cases hruns; exact ⟨h, rfl⟩
  | cons a agents ih =>
    obtain ⟨v, hturn, hruns⟩ := runs_cons_eq_next hruns
    simp only [List.mem_cons, not_or] at husb hsync
    obtain ⟨hv, hop⟩ := h.other hs (Ne.symm husb.1) (Ne.symm hsync.1) hturn
    obtain ⟨ht, hopt⟩ := ih hv husb.2 hsync.2 hruns
    exact ⟨ht, hopt.trans hop⟩

/-- From byte `n` on, the packet's remaining steps end it, whatever steps but `SYNC_RX_GET` stand between. -/
theorem Received.runs {agents : List Agent} (hs : BlockInv s) (hlen : bytes.length ≤ mpsBulk)
    (h : Received s bytes n u) (hop : OnSlowPath s bytes n u) (hcount : n + agents.count .usb = bytes.length + 1)
    (hn : n ≤ bytes.length) (hsync : Agent.sync .rxGet ∉ agents) (hruns : runs agents u = .next t) :
    Received s bytes bytes.length t ∧ t.usbOp = .idle := by
  induction agents generalizing u n with
  | nil => simp only [List.count_nil] at hcount; omega
  | cons a agents ih =>
    obtain ⟨v, hturn, hrest⟩ := runs_cons_eq_next hruns
    have hr := turn_running hturn
    simp only [List.mem_cons, not_or] at hsync
    obtain ⟨hne, hsync⟩ := hsync
    by_cases ha : a = .usb
    · subst ha
      rw [List.count_cons_self] at hcount
      by_cases hlast : n = bytes.length
      · subst hlast
        obtain ⟨w, hw, hrec, hidle, -⟩ := h.completes hop hr hlen
        cases hturn.symm.trans hw
        obtain ⟨ht, hopt⟩ := hrec.runs_others hs (List.count_eq_zero.1 (by omega)) hsync hrest
        exact ⟨ht, hopt.trans hidle⟩
      · obtain ⟨w, hw, hrec, hopw, -⟩ := h.advances hs hop hr (by omega) hlen
        cases hturn.symm.trans hw
        exact ih hrec hopw (by omega) (by omega) hsync hrest
    · rw [List.count_cons_of_ne ha] at hcount
      obtain ⟨hv, hopv⟩ := h.other hs ha (Ne.symm hne) hturn
      refine ih hv ?_ hcount hn hsync hrest
      rwa [OnSlowPath, hopv]

/-- Settles O53: the first step takes the packet, and `Received` follows it through the interleaving. -/
theorem rxDropLawInEveryInterleaving : Obligations.RxDropLawInEveryInterleaving := by
  unfold Obligations.RxDropLawInEveryInterleaving
  intro s t e rest bytes agents hs hop hp hd hopen hbypass hlong hcount hsync hruns k popped
  obtain ⟨v, hturn, hruns⟩ := runs_cons_eq_next hruns
  obtain ⟨u, hu, hrec, hopu, -⟩ := received_zero hs (turn_running hturn) hop hp hd hopen hbypass hlong
  cases hturn.symm.trans hu
  obtain ⟨ht, hidle⟩ := hrec.runs hs (decode_bulkOut_length hd) hopu (by omega) (Nat.zero_le _) hsync hruns
  exact ⟨hidle, ht.full hs hlong⟩

end Sys2Proof.Machine
end

section
/-! PROOF. The transmit flush over several `EV_SOF` (42_endpoint_events.md R173), with synchroniser steps between. -/

namespace Sys2Proof.Machine

open Sys2Proof.Safety

/-- What an `EV_SOF` emits whose packet bulk-IN takes (R172). -/
def packetSent (bytes : List Byte) : List Output := [.packetIn epBulkIn bytes, .usbRes 0#32]

/-- The USB agent can flush: TX holds `left`, all of it seen and before the physical end, and the flag, the draws to
come, the pending elements and the trace are those listed. -/
structure Flushing (left : List Byte) (pef : Bool) (draws : List Bool) (pending : List StreamElem) (out : List Output)
    (u : State) : Prop where
  inv : BlockInv u
  running : u.refusedBit = false
  idle : u.usbOp = .idle
  gate : u.eventsOpen = true
  connected : u.conn = true
  view : u.tx.putCopy = u.tx.put
  room : u.cfg.ix .tx u.tx.get + left.length < u.cfg.nTx
  held : contents u.cfg .tx u.tx = left
  flag : u.pef = pef
  nextDraws : u.draws = draws
  events : u.usbIn.pending = pending
  trace : u.out = out

variable {u v : State} {left : List Byte} {pef : Bool} {draws : List Bool} {pending : List StreamElem}
  {out : List Output} {e : StreamElem}

/-- A synchroniser writes nothing that a flush depends on: the view of `put` is already current. -/
theorem Flushing.sync (h : Flushing left pef draws pending out u) (c : Copy) :
    ∃ v, turn (.sync c) u = .next v ∧ Flushing left pef draws pending out v := by
  have hturn := turn_sync (c := c) h.inv.legal h.running
  have hinv := turn_blockInv h.inv hturn
  obtain ⟨-, hrunning, hidle, hgate, hconn, hview, hroom, hheld, hflag, hdraws, hevents, htrace⟩ := h
  refine ⟨_, hturn, ?_⟩
  cases c with
  | txPut => exact ⟨hinv, hrunning, hidle, hgate, hconn, rfl, hroom, hheld, hflag, hdraws, hevents, htrace⟩
  | _ => exact ⟨hinv, hrunning, hidle, hgate, hconn, hview, hroom, hheld, hflag, hdraws, hevents, htrace⟩

/-- All that TX holds is contiguous, so a flush offers up to 64 bytes of it. -/
theorem Flushing.count (h : Flushing left pef draws pending out u) : flushCount u = min left.length 64 := by
  have hocc : u.occOf .usb .tx = left.length := by
    rw [← h.held, length_contents, ← h.view]
    rfl
  have hroom := h.room
  have hclen : u.clen .usb .tx = left.length := by
    unfold State.clen
    rw [hocc]
    simp only [State.viewGet_usb_tx, Config.cap]
    omega
  rw [flushCount, hclen]

/-- The USB agent's next step is the `EV_SOF` that is pending. -/
theorem Flushing.turn_eq (h : Flushing left pef draws (e :: pending) out u) (hd : decode (.cmd32 e) = .ok .evSof) :
    turn .usb u = .next (if min left.length 64 = 0 ∧ pef = false
      then State.result { u with
        sched := [], issuer := .usb, usbIn := { taken := u.usbIn.taken + 1, pending := pending } } 0#32
      else afterSendPacket (min left.length 64) { u with
        sched := [], issuer := .usb, usbIn := { taken := u.usbIn.taken + 1, pending := pending } }) := by
  rw [turn_usb_exec h.inv.legal h.running h.idle h.events hd h.gate]
  refine (execEvSof_eq (by exact h.inv.legal) rfl).trans (congrArg _ ?_)
  rw [← h.count, ← h.flag]
  exact if_congr (or_iff_right (by simp [h.connected])) rfl rfl

/-- With nothing to send and no flush pending, `EV_SOF` only answers (R171). -/
theorem Flushing.nothing (hd : decode (.cmd32 e) = .ok .evSof) (h : Flushing [] false draws (e :: pending) out u) :
    ∃ v, turn .usb u = .next v ∧ Flushing [] false draws pending (out ++ [.usbRes 0#32]) v := by
  have hturn := h.turn_eq hd
  rw [if_pos ⟨rfl, rfl⟩, State.result_usb rfl] at hturn
  exact ⟨_, hturn, turn_blockInv h.inv hturn, h.running, h.idle, h.gate, h.connected, h.view, h.room, h.held, h.flag,
    h.nextDraws, rfl, by rw [h.trace]⟩

/-- Else a packet that bulk-IN takes leaves TX (R172). -/
theorem Flushing.turn_taken (hd : decode (.cmd32 e) = .ok .evSof) (hsome : ¬(left = [] ∧ pef = false))
    (h : Flushing left pef (true :: draws) (e :: pending) out u) :
    turn .usb u = .next { u with
      sched := [], issuer := .usb, usbIn := { taken := u.usbIn.taken + 1, pending := pending }, draws := draws,
      tx := taken u.cfg u.tx (min left.length 64), pef := decide (min left.length 64 = 64),
      out := u.out ++ packetSent (Memory.readBytes u.tx.data (u.cfg.ix .tx u.tx.get) (min left.length 64)) } := by
  rw [h.turn_eq hd, if_neg (by simpa using hsome),
    afterSendPacket_taken rfl (State.drawn_cons (by exact h.nextDraws)), State.afterDraw_cons (by exact h.nextDraws)]
  rfl

/-- The packet is the 64 oldest bytes, or all there are, and the others stay. -/
theorem Flushing.sends (hd : decode (.cmd32 e) = .ok .evSof) (hsome : ¬(left = [] ∧ pef = false))
    (h : Flushing left pef (true :: draws) (e :: pending) out u) :
    ∃ v, turn .usb u = .next v ∧ Flushing (left.drop 64) (decide (64 ≤ left.length)) draws pending
      (out ++ packetSent (left.take 64)) v := by
  have hturn := h.turn_taken hd hsome
  have hocc : u.cfg.occ u.tx.put u.tx.get = left.length := by rw [← length_contents, h.held]
  have hroom := h.room
  have hn : min left.length 64 ≤ u.cfg.occ u.tx.put u.tx.get := by omega
  have hbytes : Memory.readBytes u.tx.data (u.cfg.ix .tx u.tx.get) (min left.length 64) = left.take 64 := by
    rw [readBytes_get hn (by show _ ≤ u.cfg.nTx - _; omega), h.held, Nat.min_comm, ← List.take_eq_take_min]
  have hleft : contents u.cfg .tx (taken u.cfg u.tx (min left.length 64)) = left.drop 64 := by
    rw [contents_taken h.inv.legal h.inv.tx hn, h.held, Nat.min_comm, ← List.drop_eq_drop_min]
  have hindex : u.cfg.ix .tx (taken u.cfg u.tx (min left.length 64)).get = u.cfg.ix .tx u.tx.get + min left.length 64 :=
    (Config.ix_wrap h.inv.legal .tx _).trans (Config.ix_add (by show _ < u.cfg.nTx; omega))
  have hroom' : u.cfg.ix .tx (taken u.cfg u.tx (min left.length 64)).get + (left.drop 64).length < u.cfg.nTx := by
    rw [hindex, List.length_drop]
    omega
  rw [hbytes, h.trace] at hturn
  exact ⟨_, hturn, turn_blockInv h.inv hturn, h.running, h.idle, h.gate, h.connected, h.view, hroom', hleft,
    decide_eq_decide.2 (by omega), rfl, rfl, rfl⟩

/-- A full packet leaves a flush pending. -/
theorem Flushing.sendsFull (hd : decode (.cmd32 e) = .ok .evSof) (hfull : 64 ≤ left.length)
    (h : Flushing left pef (true :: draws) (e :: pending) out u) :
    ∃ v, turn .usb u = .next v ∧ Flushing (left.drop 64) true draws pending
      (out ++ packetSent (left.take 64)) v := by
  have hsome : ¬(left = [] ∧ pef = false) := by
    rintro ⟨rfl, -⟩
    exact absurd hfull (by decide)
  have hsent := h.sends hd hsome
  rwa [decide_eq_true hfull] at hsent

/-- A pending flush ends with what is left, a zero-length packet if that is nothing (R173). -/
theorem Flushing.sendsLast (hd : decode (.cmd32 e) = .ok .evSof) (hshort : left.length < 64)
    (h : Flushing left true (true :: draws) (e :: pending) out u) :
    ∃ v, turn .usb u = .next v ∧ Flushing [] false draws pending
      (out ++ packetSent left) v := by
  have hsent := h.sends hd (by simp)
  rwa [List.take_of_length_le hshort.le, List.drop_of_length_le hshort.le, decide_eq_false (by omega)] at hsent

/-! Runs of synchroniser steps and a given number of USB steps. -/

/-- From `P`, every run of `n` USB steps with any synchroniser steps between succeeds and leads to `Q`. -/
def Leads (n : Nat) (P Q : State → Prop) : Prop :=
  ∀ u, P u → ∀ agents : List Agent, .app ∉ agents → agents.count .usb = n → ∃ t, runs agents u = .next t ∧ Q t

/-- The synchronisers keep `P`. -/
def SyncStable (P : State → Prop) : Prop := ∀ u, P u → ∀ c, ∃ v, turn (.sync c) u = .next v ∧ P v

/-- The synchroniser steps before the first USB step keep `P`. -/
theorem runs_syncs {P : State → Prop} (hP : SyncStable P) (hu : P u) {agents : List Agent} (happ : .app ∉ agents) :
    ∃ v later, P v ∧ runs agents u = runs later v ∧ .app ∉ later ∧ later.count .usb = agents.count .usb ∧
      (later = [] ∨ ∃ others, later = .usb :: others) := by
  induction agents generalizing u with
  | nil => exact ⟨u, [], hu, rfl, happ, rfl, .inl rfl⟩
  | cons a agents ih =>
    cases a with
    | app => exact absurd List.mem_cons_self happ
    | usb => exact ⟨u, _, hu, rfl, happ, rfl, .inr ⟨agents, rfl⟩⟩
    | sync c =>
      obtain ⟨v, hturn, hv⟩ := hP u hu c
      obtain ⟨w, later, hw, hruns, hlater⟩ := ih hv fun hmem => happ (List.mem_cons_of_mem _ hmem)
      rw [List.count_cons_of_ne (by simp)]
      exact ⟨w, later, hw, by rw [← hruns, runs, hturn]; rfl, hlater⟩

theorem leads_zero {P : State → Prop} (hP : SyncStable P) : Leads 0 P P := by
  intro u hu agents happ husb
  obtain ⟨v, later, hv, hruns, -, hcount, rfl | ⟨others, rfl⟩⟩ := runs_syncs hP hu happ
  · exact ⟨v, hruns, hv⟩
  · rw [husb, List.count_cons_self] at hcount
    cases hcount

theorem leads_succ {P R Q : State → Prop} {n : Nat} (hP : SyncStable P)
    (husbStep : ∀ u, P u → ∃ v, turn .usb u = .next v ∧ R v) (hR : Leads n R Q) : Leads (n + 1) P Q := by
  intro u hu agents happ husb
  obtain ⟨v, later, hv, hruns, happ, hcount, rfl | ⟨others, rfl⟩⟩ := runs_syncs hP hu happ
  · rw [husb] at hcount
    cases hcount
  · obtain ⟨w, hturn, hw⟩ := husbStep v hv
    rw [husb, List.count_cons_self, Nat.add_right_cancel_iff] at hcount
    rw [hruns, runs, hturn]
    exact hR w hw others (fun hmem => happ (List.mem_cons_of_mem _ hmem)) hcount

theorem syncStable_flushing : SyncStable (Flushing left pef draws pending out) := fun _ h c => h.sync c

/-- The element with the word of `EV_SOF` (30_encoding.md R91). -/
theorem decode_evSof (hw : e.word = 0x23000000#32) (hp : e.payload = []) : decode (.cmd32 e) = .ok .evSof := by
  obtain ⟨w, p⟩ := e
  cases hw
  cases hp
  rfl

/-- From 128 to 191 bytes are two full packets and a shorter one, and then nothing (R173). -/
theorem leads_flush (hd : decode (.cmd32 e) = .ok .evSof) (hlong : 128 ≤ left.length) (hshort : left.length < 192) :
    Leads 4 (Flushing left false (true :: true :: true :: draws) (e :: e :: e :: e :: pending) out)
      (Flushing [] false draws pending (out ++ packetSent (left.take 64) ++
        packetSent ((left.drop 64).take 64) ++ packetSent ((left.drop 64).drop 64) ++ [.usbRes 0#32])) := by
  have hfirst : 64 ≤ left.length := by omega
  have hsecond : 64 ≤ (left.drop 64).length := by rw [List.length_drop]; omega
  have hthird : ((left.drop 64).drop 64).length < 64 := by rw [List.length_drop, List.length_drop]; omega
  refine leads_succ syncStable_flushing (fun _ => Flushing.sendsFull hd hfirst) ?_
  refine leads_succ syncStable_flushing (fun _ => Flushing.sendsFull hd hsecond) ?_
  refine leads_succ syncStable_flushing (fun _ => Flushing.sendsLast hd hthird) ?_
  exact leads_succ syncStable_flushing (fun _ => Flushing.nothing hd) (leads_zero syncStable_flushing)

/-- Settles O54: three packets and an answer, for each of the two lengths. -/
theorem transmitFlushPacketizes : Obligations.TransmitFlushPacketizes := by
  unfold Obligations.TransmitFlushPacketizes
  rintro s oks rest hs hr hop hgate hconn hpef hcap hview hstart hdraws ⟨e, hw, hp, hpending⟩ held sent ends
  have hd := decode_evSof hw hp
  have flushed (hlong : 128 ≤ held.length) (hshort : held.length < 192) :
      ends (sent (held.take 64) ++ sent ((held.drop 64).take 64) ++ sent ((held.drop 64).drop 64) ++
        [.usbRes 0#32]) := by
    intro agents happ husb
    have hroom : s.tx.get % s.cfg.nTx + held.length < s.cfg.nTx := by omega
    have hstarts : Flushing held false (true :: true :: true :: oks) (e :: e :: e :: e :: rest) s.out s :=
      ⟨hs, hr, hop, hgate, hconn, hview, hroom, rfl, hpef, hdraws, hpending, rfl⟩
    obtain ⟨t, hruns, ht⟩ := leads_flush hd hlong hshort s hstarts agents happ husb
    exact ⟨t, hruns, ht.flag, ht.held, ht.trace.trans (by simp only [sent, packetSent, List.append_assoc])⟩
  refine ⟨fun hlen => ?_, fun hlen => ?_⟩
  · have hall := flushed (by omega) (by omega)
    rwa [List.drop_drop] at hall
  · have hsecond : (held.drop 64).take 64 = held.drop 64 :=
      List.take_of_length_le (by rw [List.length_drop, hlen])
    have hthird : (held.drop 64).drop 64 = [] := List.drop_of_length_le (by rw [List.length_drop, hlen])
    have hall := flushed (by omega) (by omega)
    rwa [hsecond, hthird] at hall

end Sys2Proof.Machine
end

section
/-! PROOF. The statements of 43_facade.md about one step: `INIT` (R191, R192), the first steps of `SEND` and `POLL` and
`SET_RX_CALLBACK` (R197, R200, R202), the `SEND` micro-step (R198) and the `POLL` end step (R201). -/

namespace Sys2Proof.Machine

open Sys2Proof.Safety

variable {s : State}

/-! The first steps, on the façade's own port. -/

theorem onApp_eq (hi : s.issuer = .app) (k : Result State) : onApp s k = k := onPort_pos s (by rw [hi]; rfl) k

/-- Settles O42, by whether `INIT` has succeeded before. -/
theorem initSetsTheFlagOnSuccess : Obligations.InitSetsTheFlagOnSuccess := by
  unfold Obligations.InitSetsTheFlagOnSuccess
  intro s hi
  refine ⟨fun hno => (execInit_eq hi).trans (congrArg _ ?_), fun hdone => (execInit_eq hi).trans (congrArg _ ?_)⟩
  · have hanswer : bitWord (!s.drawn) = if s.drawn then 0#32 else 1#32 := by cases s.drawn <;> rfl
    rw [hno, if_neg Bool.false_ne_true, State.result_app (by exact (State.afterDraw_issuer s).trans hi), hanswer,
      State.afterDraw_out]
  · rw [if_pos hdone, State.refuse, hi]

/-- Settles O44: behind the port test, each is one update of the state. -/
theorem simpleAppCommands : Obligations.SimpleAppCommands := by
  unfold Obligations.SimpleAppCommands
  intro s hi
  refine ⟨(onApp_eq hi _).trans ?_, fun b rest => (onApp_eq hi _).trans (if_neg (List.cons_ne_nil b rest)),
    onApp_eq hi _, fun en => (onApp_eq hi _).trans ?_⟩
  · rw [if_pos rfl, State.result_app hi]
  · rw [State.result_app (s := { s with rxcbEn := en }) hi]

/-! The `POLL` end step (R201). -/

theorem appStep_poll (hop : s.appOp = .poll) : appStep s = pollEnd s := by
  unfold appStep
  rw [hop]

/-- Settles O47, by the test the end step makes. -/
theorem pollEndsWhenTheUsbAgentIsIdle : Obligations.PollEndsWhenTheUsbAgentIsIdle := by
  unfold Obligations.PollEndsWhenTheUsbAgentIsIdle
  intro s hc hr hop
  have hturn : turn .app s = pollEnd { s with sched := [], issuer := .app } :=
    (turn_eq hc hr).trans (appStep_poll hop)
  rw [hturn]
  exact ⟨fun hidle => if_pos hidle, fun hbusy => if_neg hbusy⟩

/-! The `SEND` micro-step (R198). -/

theorem appStep_send {bytes : List Byte} {i a : Nat} (hop : s.appOp = .send bytes i a) :
    appStep s = sendStep bytes i a s := by
  unfold appStep
  rw [hop]

/-- TX after `SEND_BYTE` by the APP view (R196). -/
def offeredTx (b : Byte) (s : State) : Fifo :=
  if s.cfg.occ s.tx.put s.tx.getCopy = s.cfg.nTx then s.tx else appended s.cfg .tx s.tx [b]

/-- The count of accepted bytes once one more byte has been offered. -/
def offeredCount (a : Nat) (s : State) : Nat :=
  if s.cfg.occ s.tx.put s.tx.getCopy = s.cfg.nTx then a else a + 1

/-- The state after the micro-step that offers byte `i`, which is `b`. -/
def afterSendStep (bytes : List Byte) (i : Nat) (b : Byte) (a : Nat) (s : State) : State :=
  { s with
    tx := offeredTx b s
    appOp := if i + 1 = bytes.length then .idle else .send bytes (i + 1) (offeredCount a s)
    out := if i + 1 = bytes.length then s.out ++ [.appRes (BitVec.ofNat 32 (offeredCount a s))] else s.out }

/-- A push into TX, said with `offeredTx` and `offeredCount`. -/
theorem pushByte_offered (hc : s.cfg.legal = true) (b : Byte) :
    ∃ acc : Bool, pushByte .tx b s = .next (acc, { s with tx := offeredTx b s }) ∧
      ∀ a, a + acc.toNat = offeredCount a s := by
  unfold offeredTx offeredCount
  split
  · next hfull => exact ⟨false, pushByte_full .tx b hfull, fun a => rfl⟩
  · next hroom => exact ⟨true, pushByte_room hc .tx b hroom, fun a => rfl⟩

theorem offeredCount_le (a : Nat) (s : State) : offeredCount a s ≤ a + 1 := by
  unfold offeredCount
  split <;> omega

/-- A micro-step on the APP port, with a count that fits in a result word. -/
theorem sendStep_eq {bytes : List Byte} {i a : Nat} (hc : s.cfg.legal = true) (hi : s.issuer = .app)
    (h : i < bytes.length) (ha : a + 1 < 2 ^ 32) :
    sendStep bytes i a s = .next (afterSendStep bytes i bytes[i] a s) := by
  obtain ⟨acc, hpush, hcount⟩ := pushByte_offered hc bytes[i]
  have hfits : offeredCount a s < 2 ^ 32 := (offeredCount_le a s).trans_lt ha
  unfold sendStep afterSendStep
  simp only [List.getElem?_eq_getElem h, hpush, andThen_next, hcount, countWord_of_lt hfits]
  split
  · rw [State.result_app (by exact hi)]
  · rfl

/-- A chosen step of the APP agent in a `SEND`. -/
theorem turn_send {bytes : List Byte} {i a : Nat} (hc : s.cfg.legal = true) (hr : s.refusedBit = false)
    (hop : s.appOp = .send bytes i a) (h : i < bytes.length) (ha : a + 1 < 2 ^ 32) :
    turn .app s = .next (afterSendStep bytes i bytes[i] a { s with sched := [], issuer := .app }) :=
  (turn_eq hc hr).trans ((appStep_send (s := { s with sched := [], issuer := .app }) hop).trans
    (sendStep_eq (by exact hc) rfl h ha))

/-- Settles O45: the micro-step's state is `afterSendStep`. -/
theorem sendMicroStepPushesOneByte : Obligations.SendMicroStepPushesOneByte := by
  unfold Obligations.SendMicroStepPushesOneByte
  intro s bytes i a h hc hr hop ha full a' tx'
  refine (turn_send hc hr hop h ha).trans (congrArg _ ?_)
  unfold afterSendStep
  split <;> rfl

end Sys2Proof.Machine
end

section
/-! PROOF. A `SEND` without a USB step (43_facade.md R199): how far it has got, moved on by the APP agent's steps and
kept by the synchronisers'. -/

namespace Sys2Proof.Machine

open Sys2Proof.Safety

/-- The bytes free in TX. -/
def txFree (s : State) : Nat := s.cfg.nTx - s.cfg.occ s.tx.put s.tx.get

/-- The state `s` with all that the APP agent's micro-steps and the synchronisers may write as in `u`; the copy of
`TX.get` is not among it. -/
def sendFrame (s u : State) : State :=
  { s with
    sched := u.sched, issuer := u.issuer, appOp := u.appOp, out := u.out,
    rx := { s.rx with putCopy := u.rx.putCopy, getCopy := u.rx.getCopy },
    tx := { s.tx with data := u.tx.data, put := u.tx.put, putCopy := u.tx.putCopy },
    connApp := u.connApp, rxcbUsb := u.rxcbUsb }

/-- The `SEND` of `bytes` began at `s`, and in `u` its first `n` bytes have been offered: those that fit are behind the
bytes TX held, and once all have been offered the `SEND` has answered how many those are. -/
structure Offered (s : State) (bytes : List Byte) (n : Nat) (u : State) : Prop where
  inv : BlockInv u
  running : u.refusedBit = false
  frame : u = sendFrame s u
  started : 0 < n → u.sched = [] ∧ u.issuer = .app
  op : u.appOp = if n = bytes.length then .idle else .send bytes n (min n (txFree s))
  trace : u.out = if n = bytes.length then s.out ++ [.appRes (BitVec.ofNat 32 (min n (txFree s)))] else s.out
  held : contents s.cfg .tx u.tx = contents s.cfg .tx s.tx ++ bytes.take (min n (txFree s))

variable {s u : State} {bytes : List Byte} {n : Nat}

/-! The frame. -/

theorem cfg_of_sendFrame (h : u = sendFrame s u) : u.cfg = s.cfg := (congrArg State.cfg h).trans rfl

/-- The frame leaves `TX.get` and its copy. -/
theorem tx_get_of_sendFrame (h : u = sendFrame s u) : u.tx.get = s.tx.get ∧ u.tx.getCopy = s.tx.getCopy :=
  ⟨(congrArg (fun w : State => w.tx.get) h).trans rfl, (congrArg (fun w : State => w.tx.getCopy) h).trans rfl⟩

/-- A synchroniser stays in the frame: the copy of `TX.get` is already current. -/
theorem sendFrame_sync (h : u = sendFrame s u) (hview : s.tx.getCopy = s.tx.get) (c : Copy) :
    syncStep c { u with sched := [] } = sendFrame s (syncStep c { u with sched := [] }) := by
  rw [h]
  cases c with
  | txGet => simp only [syncStep, sendFrame, hview]
  | _ => rfl

/-- So does a micro-step. -/
theorem sendFrame_afterSendStep (h : u = sendFrame s u) (i : Nat) (b : Byte) (a : Nat) :
    afterSendStep bytes i b a { u with sched := [], issuer := .app } =
      sendFrame s (afterSendStep bytes i b a { u with sched := [], issuer := .app }) := by
  rw [h]
  unfold afterSendStep offeredTx
  split <;> rfl

/-! What has been offered, under each agent's step. -/

/-- What TX holds and the bytes free fill it up. -/
theorem occ_add_txFree (hs : BlockInv s) : s.cfg.occ s.tx.put s.tx.get + txFree s = s.cfg.nTx :=
  Nat.add_sub_of_le hs.tx.occ_le

/-- A `SEND` in flight has a byte to offer, and its count fits in a result word (R197, R198). -/
theorem send_in_flight (hs : BlockInv s) {i a : Nat} (hop : s.appOp = .send bytes i a) :
    i < bytes.length ∧ a ≤ i ∧ bytes.length < 65536 := by
  have hok := hs.appOp
  rwa [hop] at hok

theorem offered_zero (hs : BlockInv s) (hr : s.refusedBit = false) (hop : s.appOp = .send bytes 0 0) :
    Offered s bytes 0 s := by
  have hmore : 0 ≠ bytes.length := (send_in_flight hs hop).1.ne
  refine ⟨hs, hr, rfl, fun hlt => absurd hlt (Nat.lt_irrefl 0), ?_, ?_, ?_⟩
  · rw [if_neg hmore, Nat.zero_min, hop]
  · rw [if_neg hmore]
  · rw [Nat.zero_min, List.take_zero, List.append_nil]

/-- By the APP view TX is full exactly when the bytes that fit have been offered. -/
theorem Offered.full_iff (hs : BlockInv s) (hview : s.tx.getCopy = s.tx.get) (h : Offered s bytes n u)
    (hn : n ≤ bytes.length) : u.cfg.occ u.tx.put u.tx.getCopy = u.cfg.nTx ↔ txFree s ≤ n := by
  obtain ⟨hget, hcopy⟩ := tx_get_of_sendFrame h.frame
  have hfill := occ_add_txFree hs
  have hlength := congrArg List.length h.held
  rw [length_contents, List.length_append, length_contents, List.length_take, hget] at hlength
  rw [cfg_of_sendFrame h.frame, hcopy, hview, hlength]
  omega

/-- A synchroniser writes nothing that a micro-step reads, the copy of `TX.get` being current. -/
theorem Offered.sync (hview : s.tx.getCopy = s.tx.get) (h : Offered s bytes n u) (c : Copy) :
    ∃ v, turn (.sync c) u = .next v ∧ Offered s bytes n v := by
  have hturn := turn_sync (c := c) h.inv.legal h.running
  have hinv := turn_blockInv h.inv hturn
  have hframe := sendFrame_sync h.frame hview c
  obtain ⟨-, hrunning, -, hstarted, hop, htrace, hheld⟩ := h
  refine ⟨_, hturn, ?_⟩
  cases c <;> exact ⟨hinv, hrunning, hframe, fun hn => ⟨rfl, (hstarted hn).2⟩, hop, htrace, hheld⟩

/-- The count of accepted bytes after one more micro-step. -/
theorem Offered.count_next (hs : BlockInv s) (hview : s.tx.getCopy = s.tx.get) (h : Offered s bytes n u)
    (hn : n < bytes.length) : offeredCount (min n (txFree s)) u = min (n + 1) (txFree s) := by
  unfold offeredCount
  rw [if_congr (h.full_iff hs hview hn.le) rfl rfl]
  split <;> omega

/-- The byte that fits is stored behind the others, and one that does not is dropped. -/
theorem Offered.held_next (hs : BlockInv s) (hview : s.tx.getCopy = s.tx.get) (h : Offered s bytes n u)
    (hn : n < bytes.length) :
    contents s.cfg .tx (offeredTx bytes[n] u) = contents s.cfg .tx s.tx ++ bytes.take (min (n + 1) (txFree s)) := by
  have hcfg := cfg_of_sendFrame h.frame
  have hfull := h.full_iff hs hview hn.le
  unfold offeredTx
  by_cases hfit : n < txFree s
  · have hroom : u.cfg.occ u.tx.put u.tx.getCopy ≠ u.cfg.nTx := mt hfull.1 (by omega)
    have hbound : u.cfg.occ u.tx.put u.tx.getCopy ≤ u.cfg.nTx := h.inv.tx.bounded
    have hheld := h.held
    rw [Nat.min_eq_left hfit.le] at hheld
    rw [if_neg hroom, Nat.min_eq_left (by omega), ← List.take_append_getElem hn, ← List.append_assoc, ← hheld, ← hcfg]
    exact contents_appended h.inv.legal h.inv.tx (by show 1 ≤ u.cfg.nTx - _; omega)
      (Config.one_le_room h.inv.legal .tx _)
  · rw [if_pos (hfull.2 (by omega)), h.held]
    congr 2
    omega

/-- A micro-step offers one byte; with the last one the `SEND` answers (R198). -/
theorem Offered.advances (hs : BlockInv s) (hview : s.tx.getCopy = s.tx.get) (h : Offered s bytes n u)
    (hn : n < bytes.length) : ∃ v, turn .app u = .next v ∧ Offered s bytes (n + 1) v := by
  have hop := h.op
  have htrace := h.trace
  rw [if_neg hn.ne] at hop htrace
  obtain ⟨-, -, hlen⟩ := send_in_flight h.inv hop
  have hturn := turn_send h.inv.legal h.running hop hn (by omega)
  have hinv := turn_blockInv h.inv hturn
  have hcount := h.count_next hs hview hn
  refine ⟨_, hturn, hinv, h.running, sendFrame_afterSendStep h.frame .., fun _ => ⟨rfl, rfl⟩, ?_, ?_,
    h.held_next hs hview hn⟩
  · rw [← hcount]
    rfl
  · rw [← hcount, ← htrace]
    rfl

/-- Each APP step offers one byte, whatever synchroniser steps stand between. -/
theorem Offered.runs {agents : List Agent} (hs : BlockInv s) (hview : s.tx.getCopy = s.tx.get)
    (h : Offered s bytes n u) (husb : Agent.usb ∉ agents) (hcount : n + agents.count .app = bytes.length) :
    ∃ t, runs agents u = .next t ∧ Offered s bytes bytes.length t := by
  induction agents generalizing n u with
  | nil =>
    obtain rfl : n = bytes.length := hcount
    exact ⟨u, rfl, h⟩
  | cons a agents ih =>
    simp only [List.mem_cons, not_or] at husb
    obtain ⟨hne, husb⟩ := husb
    have follow {m : Nat} (hstep : ∃ v, turn a u = .next v ∧ Offered s bytes m v)
        (hm : m + agents.count .app = bytes.length) :
        ∃ t, runs (a :: agents) u = .next t ∧ Offered s bytes bytes.length t := by
      obtain ⟨v, hturn, hv⟩ := hstep
      obtain ⟨t, hruns, ht⟩ := ih hv husb hm
      exact ⟨t, by rw [Safety.runs, hturn]; exact hruns, ht⟩
    cases a with
    | app =>
      rw [List.count_cons_self] at hcount
      exact follow (h.advances hs hview (by omega)) (by omega)
    | usb => exact absurd rfl hne
    | sync c =>
      rw [List.count_cons_of_ne (by simp)] at hcount
      exact follow (h.sync hview c) hcount

/-- Settles O46: `Offered` is followed from the first byte to the last. -/
theorem uninterruptedSendAcceptsAPrefix : Obligations.UninterruptedSendAcceptsAPrefix := by
  unfold Obligations.UninterruptedSendAcceptsAPrefix
  intro s bytes agents hs hr hop hview husb hcount n
  obtain ⟨t, hruns, ht⟩ := (offered_zero hs hr hop).runs hs hview husb (by omega)
  obtain ⟨hsched, hissuer⟩ := ht.started (send_in_flight hs hop).1
  have hidle := ht.op
  have htrace := ht.trace
  have hframe := ht.frame
  rw [if_pos rfl] at hidle htrace
  rw [sendFrame, hsched, hissuer, hidle] at hframe
  exact ⟨t, hruns, hidle, by rw [cfg_of_sendFrame ht.frame]; exact ht.held, htrace, hframe⟩

end Sys2Proof.Machine
end

section
/-! PROOF. Progress (60_exceptions.md R220, 20_memory.md R65): from a state of the invariant every access of an agent's
step is inside its storage, so the step answers a next state. A step without an access is a register update. -/

namespace Sys2Proof.Machine

open Sys2Proof.Safety

variable {s : State}

/-! Operations in sequence, and behind a port test. -/

theorem andThen_exists_next {α β : Type} {o : Result α} {k : α → Result β} (ho : ∃ a, o = .next a)
    (hk : ∀ a, ∃ b, k a = .next b) : ∃ b, andThen o k = .next b := by
  obtain ⟨a, rfl⟩ := ho
  exact hk a

theorem onPort_exists_next {allowed : Bool} {k : Result State} (hk : ∃ t, k = .next t) :
    ∃ t, onPort allowed s k = .next t := by
  cases allowed
  · exact ⟨_, onPort_false s k⟩
  · exact hk

/-! The transfer of a byte. -/

theorem pushByte_exists_next (hc : s.cfg.legal = true) (f : Sel) (b : Byte) : ∃ r, pushByte f b s = .next r := by
  by_cases hfull : s.cfg.occ (s.fifo f).put (s.fifo f).getCopy = s.cfg.cap f
  · exact ⟨_, pushByte_full f b hfull⟩
  · exact ⟨_, pushByte_room hc f b hfull⟩

theorem popByte_exists_next (hc : s.cfg.legal = true) (f : Sel) : ∃ r, popByte f s = .next r := by
  by_cases hempty : s.cfg.occ (s.fifo f).putCopy (s.fifo f).get = 0
  · exact ⟨_, popByte_empty f hempty⟩
  · exact ⟨_, popByte_some hc f hempty⟩

/-! The commands and events. -/

theorem rbPush_exists_next (hc : s.cfg.legal = true) (f : Sel) (b : Byte) : ∃ t, rbPush f b s = .next t :=
  onPort_exists_next (andThen_exists_next (pushByte_exists_next hc f b) fun _ => ⟨_, rfl⟩)

theorem rbPop_exists_next (hc : s.cfg.legal = true) (f : Sel) : ∃ t, rbPop f s = .next t :=
  onPort_exists_next (andThen_exists_next (popByte_exists_next hc f) fun _ => ⟨_, rfl⟩)

theorem exec_exists_next_of_register {i : Instr} (hi : usesStorage i = false) : ∃ t, exec i s = .next t := by
  obtain ⟨g, -, hexec⟩ := exec_registers hi
  exact ⟨g s, hexec s⟩

/-- The decoder has checked the length of a bulk-OUT packet (30_encoding.md R98 item 5), so the packet fits the
buffer. -/
theorem exec_decoded_exists_next {e : StreamElem} {i : Instr} (hc : s.cfg.legal = true)
    (hd : decode (.cmd32 e) = .ok i) : ∃ t, exec i s = .next t := by
  cases hport : portAllows i s.issuer with
  | false => exact ⟨_, exec_forbidden hport⟩
  | true =>
    cases i with
    | rbPushRx b => exact rbPush_exists_next hc .rx b
    | rbPushTx b | sendByte b => exact rbPush_exists_next hc .tx b
    | rbPopRx | recvByte => exact rbPop_exists_next hc .rx
    | rbPopTx => exact rbPop_exists_next hc .tx
    | evBulkOut bytes => exact ⟨_, execEvBulkOut_eq (beq_iff_eq.1 hport) (decode_bulkOut_length hd)⟩
    | evSof => exact ⟨_, execEvSof_eq hc (beq_iff_eq.1 hport)⟩
    | _ => exact exec_exists_next_of_register rfl

/-! The agents' steps. -/

theorem runElem_exists_next (hc : s.cfg.legal = true) (e : StreamElem) : ∃ t, runElem e s = .next t := by
  unfold runElem
  split
  · exact ⟨_, rfl⟩
  · next hd => exact exec_decoded_exists_next hc hd

theorem sendStep_exists_next (hc : s.cfg.legal = true) (bytes : List Byte) (i a : Nat) :
    ∃ t, sendStep bytes i a s = .next t := by
  unfold sendStep
  split
  · exact ⟨_, rfl⟩
  · next b _ =>
    refine andThen_exists_next (pushByte_exists_next hc .tx b) fun r => ?_
    dsimp only
    split <;> exact ⟨_, rfl⟩

theorem pollEnd_exists_next (s : State) : ∃ t, pollEnd s = .next t := by
  unfold pollEnd
  split <;> exact ⟨_, rfl⟩

theorem appStep_exists_next (hc : s.cfg.legal = true) : ∃ t, appStep s = .next t := by
  unfold appStep
  split
  · exact sendStep_exists_next hc _ _ _
  · exact pollEnd_exists_next s
  · split
    · exact ⟨_, rfl⟩
    · exact runElem_exists_next (by exact hc) _

/-- The slow path reads inside the packet buffer, because the packet in flight is inside it (42_endpoint_events.md
R166, R167). -/
theorem usbStep_exists_next (h : BlockInv s) : ∃ t, usbStep s = .next t := by
  unfold usbStep
  split
  · next len i drop hop =>
    have hflight := h.usbOp
    rw [hop] at hflight
    obtain ⟨rfl, hi⟩ := hflight
    exact ⟨_, rxStep_eq h.legal hi h.pktlen_le⟩
  · split
    · exact ⟨_, rfl⟩
    · split
      · exact ⟨_, rfl⟩
      · exact runElem_exists_next (by exact h.legal) _

theorem agentStep_exists_next (h : BlockInv s) (a : Agent) : ∃ t, agentStep a s = .next t := by
  cases a with
  | app => exact appStep_exists_next (by exact h.legal)
  | usb => exact usbStep_exists_next (blockInv_preamble h s.sched s.free .usb s.appIn s.usbIn)
  | sync c => exact ⟨_, rfl⟩

/-- Settles O20: each agent's step makes progress, whichever agent is chosen. -/
theorem invariantStatesNeverFault : Obligations.InvariantStatesNeverFault := by
  unfold Obligations.InvariantStatesNeverFault
  intro s h hr
  rw [step_eq h.legal hr]
  exact agentStep_exists_next (blockInv_afterSched h) s.nextAgent

end Sys2Proof.Machine
end

section
/-! PROOF. Power-on reset (70_reset_and_hazards.md R250). Each register's value is read off `State.por`; what a FIFO
holds and what the line coding serialises to are the two facts that are computed. -/

namespace Sys2Proof

theorem LineCoding.bytes_fixed :
    LineCoding.fixed.bytes = [0x00#8, 0xC2#8, 0x01#8, 0x00#8, 0x00#8, 0x00#8, 0x08#8] := by decide

end Sys2Proof

namespace Sys2Proof.Machine

open Sys2Proof.Safety

theorem contents_empty (c : Config) (f : Sel) : contents c f Fifo.empty = [] := by
  have hlen : (contents c f Fifo.empty).length = 0 := by
    rw [length_contents]
    exact Config.occ_self c 0
  exact List.eq_nil_of_length_eq_zero hlen

/-- Settles O8: an empty FIFO holds no byte because its `put` equals its `get`, and `LC` reads the fixed coding. -/
theorem powerOnResetValues : Obligations.PowerOnResetValues := by
  unfold Obligations.PowerOnResetValues
  intro c s
  have counters : Fifo.empty.put = 0 ∧ Fifo.empty.get = 0 ∧ Fifo.empty.putCopy = 0 ∧ Fifo.empty.getCopy = 0 :=
    ⟨rfl, rfl, rfl, rfl⟩
  have reads : s.readLC.bytes = LineCoding.fixed.bytes := congrArg LineCoding.bytes (State.readLC_eq s)
  refine ⟨counters, counters, contents_empty c .rx, contents_empty c .tx, ?registers⟩
  exact ⟨rfl, rfl, rfl, rfl, rfl, rfl, rfl, rfl, rfl, rfl, rfl, reads.trans LineCoding.bytes_fixed⟩

end Sys2Proof.Machine
end
